-- ==== Sys2Proof/Config.lean ====
section
/-! DEFINITION. The configuration (00_scope R6): one record of the widths, capacities and fixed values, whose names every
rule uses, and the record of display command constants of 30_encoding R98. The remaining rows of R6 are arguments of the
machine and stand in the state: AS with AS_DOM, the framebuffer drawn at reset, the display command constants. The machine
never uses a fixed value of the last: it reads the record its state carries (`Env.display`), so every statement about all
states holds for every choice of the bytes. -/

namespace Sys2Proof.Config

/-- The parameters of R6 that have a value, in the table's order. -/
structure Params where
  pageH     : Nat
  glyphBase : Nat
  coordW    : Nat
  sizeW     : Nat
  asAddrW   : Nat
  devaddrW  : Nat
  dimMax    : Nat
  fbCap     : Nat
  strTerm   : BitVec 8
  opwordW   : Nat
  deriving DecidableEq, Repr

/-- The values R6 takes. -/
abbrev params : Params where
  pageH     := 8
  glyphBase := 32
  coordW    := 16
  sizeW     := 32
  asAddrW   := 32
  devaddrW  := 8
  dimMax    := 256
  fbCap     := 8192
  strTerm   := 0x00#8
  opwordW   := 160

/-- `PAGE_H`: pixels per framebuffer byte, stacked vertically. -/
abbrev pageH : Nat := params.pageH

/-- `GLYPH_BASE`: character code of the first glyph of a font table. -/
abbrev glyphBase : Nat := params.glyphBase

/-- `COORD_W`: bits of a coordinate operand and of WIDTH, HEIGHT, CURX, CURY. -/
abbrev coordW : Nat := params.coordW

/-- `SIZE_W`: bits of BUFSIZE. -/
abbrev sizeW : Nat := params.sizeW

/-- `AS_ADDR_W`: bits of an asset address. -/
abbrev asAddrW : Nat := params.asAddrW

/-- `DEVADDR_W`: bits of DEVADDR. -/
abbrev devaddrW : Nat := params.devaddrW

/-- `DIM_MAX`: largest WIDTH and HEIGHT of a valid handle (10_state R33). -/
abbrev dimMax : Nat := params.dimMax

/-- `FB_CAP`: bytes of framebuffer memory that exist. -/
abbrev fbCap : Nat := params.fbCap

/-- `STR_TERM`: the string terminator byte (30_encoding R94). -/
abbrev strTerm : BitVec 8 := params.strTerm

/-- `OPWORD_W`: bits of the host operation word. -/
abbrev opwordW : Nat := params.opwordW

/-- Number of asset addresses, `2^AS_ADDR_W` (20_memory R55). -/
abbrev asSize : Nat := 2 ^ asAddrW

/-- Largest value a cursor register holds, `2^COORD_W - 1` (42_glyph_rasterizer R133). -/
abbrev cursorMax : Nat := 2 ^ coordW - 1

/-- The display command constants `CMD_*` and `ARG_*` of 30_encoding R98, in the table's order. -/
structure DisplayCommands where
  cmdDisplayOff        : BitVec 8
  cmdDisplayOn         : BitVec 8
  cmdMemMode           : BitVec 8
  argMemModeHorizontal : BitVec 8
  cmdComScan           : BitVec 8
  cmdColRange          : BitVec 8
  cmdPageRange         : BitVec 8
  cmdContrast          : BitVec 8
  argContrast          : BitVec 8
  cmdSegRemap          : BitVec 8
  cmdMuxRatio          : BitVec 8
  cmdStartLine         : BitVec 8
  cmdDisplayOffset     : BitVec 8
  argDisplayOffset     : BitVec 8
  cmdClockDiv          : BitVec 8
  argClockDiv          : BitVec 8
  cmdPrecharge         : BitVec 8
  argPrecharge         : BitVec 8
  cmdVcomh             : BitVec 8
  argVcomh             : BitVec 8
  cmdComPins           : BitVec 8
  argComPins           : BitVec 8
  cmdChargePump        : BitVec 8
  argChargePumpOn      : BitVec 8
  cmdResumeRam         : BitVec 8
  cmdNormal            : BitVec 8
  cmdInverse           : BitVec 8
  cmdScrollOff         : BitVec 8
  deriving DecidableEq, Repr

/-- The default values of R98. PRESUMED (assumption 2): the spec marks them as general knowledge, not in its source.
Only `State.reset` uses them. -/
def defaultDisplay : DisplayCommands where
  cmdDisplayOff        := 0xAE#8
  cmdDisplayOn         := 0xAF#8
  cmdMemMode           := 0x20#8
  argMemModeHorizontal := 0x00#8
  cmdComScan           := 0xC8#8
  cmdColRange          := 0x21#8
  cmdPageRange         := 0x22#8
  cmdContrast          := 0x81#8
  argContrast          := 0x7F#8
  cmdSegRemap          := 0xA1#8
  cmdMuxRatio          := 0xA8#8
  cmdStartLine         := 0x40#8
  cmdDisplayOffset     := 0xD3#8
  argDisplayOffset     := 0x00#8
  cmdClockDiv          := 0xD5#8
  argClockDiv          := 0x80#8
  cmdPrecharge         := 0xD9#8
  argPrecharge         := 0x22#8
  cmdVcomh             := 0xDB#8
  argVcomh             := 0x20#8
  cmdComPins           := 0xDA#8
  argComPins           := 0x12#8
  cmdChargePump        := 0x8D#8
  argChargePumpOn      := 0x14#8
  cmdResumeRam         := 0xA4#8
  cmdNormal            := 0xA6#8
  cmdInverse           := 0xA7#8
  cmdScrollOff         := 0x2E#8

end Sys2Proof.Config
end

