-- ==== Sys2Proof/Word.lean ====
section
/-! DEFINITION. The widths the spec gives its registers, operands and words, by the names of the configuration (00_scope
R6, R7; 30_encoding R80). Every value is unsigned (R8); arithmetic on them inside a rule is exact, so it is done on `Nat`
after `toNat`. -/

namespace Sys2Proof

/-- One bit: colour operand, BUFOK, INV, PHASE, PWR, BUSY. -/
abbrev Bit := BitVec 1

/-- A byte of FB or AS, a command byte, a character code, a font dimension. -/
abbrev Byte := BitVec 8

/-- A coordinate or dimension: operands, WIDTH, HEIGHT, CURX, CURY. -/
abbrev Half := BitVec Config.coordW

/-- BUFSIZE. -/
abbrev Size := BitVec Config.sizeW

/-- An asset address. -/
abbrev AsAddr := BitVec Config.asAddrW

/-- DEVADDR. -/
abbrev DevAddr := BitVec Config.devaddrW

/-- FAULTINFO and what the register read port returns: 32 bits (10_state R22, R32). -/
abbrev Word := BitVec 32

/-- The host's operation word. -/
abbrev OpWord := BitVec Config.opwordW

end Sys2Proof
end

