-- ==== Sys2Proof/Syntax.lean ====
section
/-! DEFINITION. The operations of 30_encoding R84, one constructor per row of the opcode table, with the operand
lists of R83 and the operand order of R87. Every operand has exactly its slot's width, so a term of `Instr` cannot
hold an operand value the encoding does not admit. -/

namespace Sys2Proof

/-- The font descriptor of 30_encoding R93: cell width, cell height, number of glyphs, asset address of the table. -/
structure Font where
  fw    : Byte
  fh    : Byte
  fn    : Byte
  fbase : AsAddr
  deriving DecidableEq, Repr

/-- The thirteen operations (R84). The colour `c` is one bit: 0 black, 1 white (R95). -/
inductive Instr where
  | config (width height : Half) (bufsize : Size) (devaddr : DevAddr) (bok : Bit)
  | putPixel (x y : Half) (c : Bit)
  | drawBitmap (x y : Half) (src : AsAddr) (w h : Half) (c : Bit)
  | drawChar (font : Font) (ch : Byte) (x y : Half) (c : Bit)
  | drawString (font : Font) (text : AsAddr) (x y : Half) (c : Bit)
  | writeCommand (cmd : Byte)
  | init
  | displayOn
  | displayOff
  | invert
  | fill
  | clear
  | flush
  deriving DecidableEq, Repr

/-- The opcode of R84. -/
def Instr.opcode : Instr → BitVec 4
  | .config _ _ _ _ _ => 0x1#4
  | .putPixel _ _ _ => 0x2#4
  | .drawBitmap _ _ _ _ _ _ => 0x3#4
  | .drawChar _ _ _ _ _ => 0x4#4
  | .drawString _ _ _ _ _ => 0x5#4
  | .writeCommand _ => 0x6#4
  | .init => 0x7#4
  | .displayOn => 0x8#4
  | .displayOff => 0x9#4
  | .invert => 0xA#4
  | .fill => 0xB#4
  | .clear => 0xC#4
  | .flush => 0xD#4

end Sys2Proof
end

