-- ==== Sys2Proof/WellFormed.lean ====
section
/-! DEFINITION. Well-formedness. An `Instr` term needs no check: each operand has its slot's width (Syntax.lean). What
can be ill-formed is the operation WORD. This file says which words are legal, from the mask and match columns of
spec/opcode_table.json (30_encoding R82, R85); Decode.lean says it again from the slots of R81 and R82, and an
obligation states that the two agree. -/

namespace Sys2Proof

/-- One row of spec/opcode_table.json: `mask` has a 1 at the opcode and at every must-be-zero bit (R82). -/
structure OpRow where
  mnemonic : String
  mask     : OpWord
  pattern  : OpWord
  deriving DecidableEq, Repr

/-- "a word `w` selects a row exactly when `w & mask == match`" (R82). -/
def OpRow.selects (r : OpRow) (w : OpWord) : Bool := w &&& r.mask == r.pattern

/-- The thirteen rows, copied from the table's mask and match columns. -/
def opTable : List OpRow :=
  [
   ⟨"CONFIG", 0xfffffffffffe000000000000000000ffffffffff#160, 0x0000000000000000000000000000000000000001#160⟩,
   ⟨"PUT_PIXEL", 0xffffffffffffffffffffffffffffff00000000ef#160, 0x0000000000000000000000000000000000000002#160⟩,
   ⟨"DRAW_BITMAP", 0xffffffffffffff000000000000000000000000ef#160, 0x0000000000000000000000000000000000000003#160⟩,
   ⟨"DRAW_CHAR", 0xffffffffffffff000000000000000000000000ef#160, 0x0000000000000000000000000000000000000004#160⟩,
   ⟨"DRAW_STRING", 0xffffff0000000000000000ff00000000000000ef#160, 0x0000000000000000000000000000000000000005#160⟩,
   ⟨"WRITE_COMMAND", 0xffffffffffffffffffffff00ffffffffffffffff#160, 0x0000000000000000000000000000000000000006#160⟩,
   ⟨"INIT", 0xffffffffffffffffffffffffffffffffffffffff#160, 0x0000000000000000000000000000000000000007#160⟩,
   ⟨"DISPLAY_ON", 0xffffffffffffffffffffffffffffffffffffffff#160, 0x0000000000000000000000000000000000000008#160⟩,
   ⟨"DISPLAY_OFF", 0xffffffffffffffffffffffffffffffffffffffff#160, 0x0000000000000000000000000000000000000009#160⟩,
   ⟨"INVERT", 0xffffffffffffffffffffffffffffffffffffffff#160, 0x000000000000000000000000000000000000000a#160⟩,
   ⟨"FILL", 0xffffffffffffffffffffffffffffffffffffffff#160, 0x000000000000000000000000000000000000000b#160⟩,
   ⟨"CLEAR", 0xffffffffffffffffffffffffffffffffffffffff#160, 0x000000000000000000000000000000000000000c#160⟩,
   ⟨"FLUSH", 0xffffffffffffffffffffffffffffffffffffffff#160, 0x000000000000000000000000000000000000000d#160⟩
  ]

/-- A word is legal when it selects a row (R85). -/
def wellFormedWord (w : OpWord) : Bool := opTable.any (fun r => r.selects w)

end Sys2Proof
end

