-- ==== Sys2Proof/Decode.lean ====
section
/-! DEFINITION. The ten slots of the operation word (30_encoding R81), the decoder (R82, R84, R85), the encoder
written from the same tables, the host's numbered-word entry point, and the assembler for the operand lists of R87. -/

namespace Sys2Proof

/-- The ten slots of R81, least significant first; their widths and places are R81's own numbers. -/
structure Slots where
  op : BitVec 4
  c  : Bit
  z0 : BitVec 3
  x  : BitVec 16
  y  : BitVec 16
  a  : BitVec 16
  b  : BitVec 16
  p  : BitVec 32
  q  : BitVec 32
  z1 : BitVec 24
  deriving DecidableEq, Repr

/-- Cut a word into its slots, at the bit positions of R81. -/
def Slots.unpack (w : OpWord) : Slots where
  op := w.extractLsb' 0 4
  c  := w.extractLsb' 4 1
  z0 := w.extractLsb' 5 3
  x  := w.extractLsb' 8 16
  y  := w.extractLsb' 24 16
  a  := w.extractLsb' 40 16
  b  := w.extractLsb' 56 16
  p  := w.extractLsb' 72 32
  q  := w.extractLsb' 104 32
  z1 := w.extractLsb' 136 24

/-- A field of `n` bits placed with its bit 0 at bit `lo` of a value of `w` bits, all other bits 0. -/
def place (w lo : Nat) {n : Nat} (v : BitVec n) : BitVec w := v.setWidth w <<< lo

/-- Put the slots together, each at its bit position in R81. -/
def Slots.pack (s : Slots) : OpWord :=
  let put {n : Nat} (lo : Nat) (v : BitVec n) : OpWord := place Config.opwordW lo v
  put 0 s.op ||| put 4 s.c ||| put 5 s.z0 ||| put 8 s.x ||| put 24 s.y ||| put 40 s.a ||| put 56 s.b |||
    put 72 s.p ||| put 104 s.q ||| put 136 s.z1

/-- Why a word is illegal (R85). Both reasons raise ILLEGAL_OP; the names are the model's: DESIGN CHOICE
(assumption 17), safe. -/
inductive Illegal where
  /-- The opcode is 0x0, 0xE or 0xF. -/
  | reservedOpcode
  /-- A bit that the format requires to be zero is 1. -/
  | mustBeZero
  deriving DecidableEq, Repr

/-- Give `i` when every must-be-zero slot of its format is zero. -/
def requireZero (zero : Bool) (i : Instr) : Except Illegal Instr :=
  if zero then .ok i else .error .mustBeZero

/-- Slots `z0` and `z1` are zero in every format (R82). -/
def Slots.zeroEnds (s : Slots) : Bool := s.z0 == 0 && s.z1 == 0

/-- Slots `c`, `x` and `y` are zero (formats K, C, N of R82). -/
def Slots.zeroCXY (s : Slots) : Bool := s.c == 0 && s.x == 0 && s.y == 0

/-- Slots `p` and `q` are zero (formats P, C, N of R82). -/
def Slots.zeroPQ (s : Slots) : Bool := s.p == 0 && s.q == 0

/-- Format N: everything but the opcode is zero (R82). -/
def Slots.zeroN (s : Slots) : Bool :=
  s.zeroEnds && s.zeroCXY && s.a == 0 && s.b == 0 && s.zeroPQ

/-- The font operands of formats G and S: `fw` in 47:40, `fh` in 55:48, `fn` in 63:56, `fbase` in slot `p` (R81). -/
def Slots.font (s : Slots) : Font where
  fw    := s.a.extractLsb' 0 8
  fh    := s.a.extractLsb' 8 8
  fn    := s.b.extractLsb' 0 8
  fbase := s.p

/-- The instruction the slots encode, format by format (R82, R84). -/
def decodeSlots (s : Slots) : Except Illegal Instr :=
  match s.op.toNat with
  | 0x1 => requireZero (s.zeroEnds && s.zeroCXY && s.q.extractLsb' 9 23 == 0)
             (.config s.a s.b s.p (s.q.extractLsb' 0 8) (s.q.extractLsb' 8 1))
  | 0x2 => requireZero (s.zeroEnds && s.a == 0 && s.b == 0 && s.zeroPQ) (.putPixel s.x s.y s.c)
  | 0x3 => requireZero (s.zeroEnds && s.q == 0) (.drawBitmap s.x s.y s.p s.a s.b s.c)
  | 0x4 => requireZero (s.zeroEnds && s.q == 0) (.drawChar s.font (s.b.extractLsb' 8 8) s.x s.y s.c)
  | 0x5 => requireZero (s.zeroEnds && s.b.extractLsb' 8 8 == 0) (.drawString s.font s.q s.x s.y s.c)
  | 0x6 => requireZero (s.zeroEnds && s.zeroCXY && s.a == 0 && s.b.extractLsb' 0 8 == 0 && s.zeroPQ)
             (.writeCommand (s.b.extractLsb' 8 8))
  | 0x7 => requireZero s.zeroN .init
  | 0x8 => requireZero s.zeroN .displayOn
  | 0x9 => requireZero s.zeroN .displayOff
  | 0xA => requireZero s.zeroN .invert
  | 0xB => requireZero s.zeroN .fill
  | 0xC => requireZero s.zeroN .clear
  | 0xD => requireZero s.zeroN .flush
  | _ => .error .reservedOpcode

/-- The decoder: total on every word (R80, R85, R86). -/
def decode (w : OpWord) : Except Illegal Instr := decodeSlots (Slots.unpack w)

/-- All slots zero but the opcode (format N of R82). -/
def Slots.ofOpcode (op : BitVec 4) : Slots where
  op := op
  c := 0
  z0 := 0
  x := 0
  y := 0
  a := 0
  b := 0
  p := 0
  q := 0
  z1 := 0

/-- The slots of an instruction, format by format (R82). -/
def encodeSlots (i : Instr) : Slots :=
  let n := Slots.ofOpcode i.opcode
  match i with
  | .config width height bufsize devaddr bok =>
      { n with a := width, b := height, p := bufsize, q := place 32 0 devaddr ||| place 32 8 bok }
  | .putPixel x y c => { n with c := c, x := x, y := y }
  | .drawBitmap x y src w h c => { n with c := c, x := x, y := y, a := w, b := h, p := src }
  | .drawChar font ch x y c =>
      { n with c := c, x := x, y := y, a := place 16 0 font.fw ||| place 16 8 font.fh,
               b := place 16 0 font.fn ||| place 16 8 ch, p := font.fbase }
  | .drawString font text x y c =>
      { n with c := c, x := x, y := y, a := place 16 0 font.fw ||| place 16 8 font.fh, b := place 16 0 font.fn,
               p := font.fbase, q := text }
  | .writeCommand cmd => { n with b := place 16 8 cmd }
  | .init => n
  | .displayOn => n
  | .displayOff => n
  | .invert => n
  | .fill => n
  | .clear => n
  | .flush => n

/-- The operation word of an instruction. -/
def encode (i : Instr) : OpWord := (encodeSlots i).pack

/-- The instruction the decoder reads from the bits `w` of a table row of `nbits` bits (all rows have 160; the word
is presented whole on the host port, R80, so the table's numbering of the bits is the word's own). A number that does
not fit 160 bits is no operation word. DESIGN CHOICE (assumption 19), safe. -/
def decodeTableWord (nbits w : Nat) : Option Instr :=
  let v := w % 2 ^ nbits
  if v < 2 ^ Config.opwordW then
    match decode (BitVec.ofNat Config.opwordW v) with
    | .ok i => some i
    | .error _ => none
  else none

/-! ### Operand lists as R87 writes them -/

/-- The mnemonics of R84, and `DISPLAY`, which R87 accepts as another spelling of FLUSH. -/
inductive Mnemonic where
  | config | putPixel | drawBitmap | drawChar | drawString | writeCommand | init | displayOn | displayOff | invert
  | fill | clear | flush | display
  deriving DecidableEq, Repr

/-- One written operand (R87): a number, a character in quotes (its ASCII code), BLACK, WHITE, or `font(...)`.
Tokens stand for text: DESIGN CHOICE (assumption 18), safe. -/
inductive Operand where
  | num (n : Nat)
  | chr (c : Char)
  | black
  | white
  | font (fw fh fn fbase : Nat)
  deriving DecidableEq, Repr

/-- The number a written operand stands for (R87, R95); a font stands for no single number. -/
def Operand.value : Operand → Option Nat
  | .num n => some n
  | .chr c => if c.toNat < 128 then some c.toNat else none
  | .black => some 0
  | .white => some 1
  | .font _ _ _ _ => none

/-- A written operand as a slot of `w` bits: refused when it does not fit (R83). -/
def Operand.bits (w : Nat) (o : Operand) : Option (BitVec w) :=
  o.value.bind fun n => if n < 2 ^ w then some (BitVec.ofNat w n) else none

/-- A written font descriptor (R93): refused when a part does not fit. -/
def Operand.asFont : Operand → Option Font
  | .font fw fh fn fbase => do
      some ⟨← (Operand.num fw).bits 8, ← (Operand.num fh).bits 8, ← (Operand.num fn).bits 8,
        ← (Operand.num fbase).bits Config.asAddrW⟩
  | _ => none

/-- The instruction a mnemonic with its operands stands for, operands in the order of the source's signatures (R87). -/
def assemble : Mnemonic → List Operand → Option Instr
  | .config, [width, height, bufsize, devaddr, bok] => do
      some (.config (← width.bits Config.coordW) (← height.bits Config.coordW) (← bufsize.bits Config.sizeW)
        (← devaddr.bits Config.devaddrW) (← bok.bits 1))
  | .putPixel, [x, y, c] => do some (.putPixel (← x.bits Config.coordW) (← y.bits Config.coordW) (← c.bits 1))
  | .drawBitmap, [x, y, src, w, h, c] => do
      some (.drawBitmap (← x.bits Config.coordW) (← y.bits Config.coordW) (← src.bits Config.asAddrW)
        (← w.bits Config.coordW) (← h.bits Config.coordW) (← c.bits 1))
  | .drawChar, [font, ch, x, y, c] => do
      some (.drawChar (← font.asFont) (← ch.bits 8) (← x.bits Config.coordW) (← y.bits Config.coordW)
        (← c.bits 1))
  | .drawString, [font, text, x, y, c] => do
      some (.drawString (← font.asFont) (← text.bits Config.asAddrW) (← x.bits Config.coordW)
        (← y.bits Config.coordW) (← c.bits 1))
  | .writeCommand, [cmd] => do some (.writeCommand (← cmd.bits 8))
  | .init, [] => some .init
  | .displayOn, [] => some .displayOn
  | .displayOff, [] => some .displayOff
  | .invert, [] => some .invert
  | .fill, [] => some .fill
  | .clear, [] => some .clear
  | .flush, [] => some .flush
  | .display, [] => some .flush
  | _, _ => none

/-- The written form of an instruction (R87): its mnemonic and its operands as numbers. -/
def disassemble : Instr → Mnemonic × List Operand
  | .config width height bufsize devaddr bok =>
      (.config, [.num width.toNat, .num height.toNat, .num bufsize.toNat, .num devaddr.toNat, .num bok.toNat])
  | .putPixel x y c => (.putPixel, [.num x.toNat, .num y.toNat, .num c.toNat])
  | .drawBitmap x y src w h c =>
      (.drawBitmap, [.num x.toNat, .num y.toNat, .num src.toNat, .num w.toNat, .num h.toNat, .num c.toNat])
  | .drawChar font ch x y c =>
      (.drawChar, [.font font.fw.toNat font.fh.toNat font.fn.toNat font.fbase.toNat, .num ch.toNat, .num x.toNat,
        .num y.toNat, .num c.toNat])
  | .drawString font text x y c =>
      (.drawString, [.font font.fw.toNat font.fh.toNat font.fn.toNat font.fbase.toNat, .num text.toNat, .num x.toNat,
        .num y.toNat, .num c.toNat])
  | .writeCommand cmd => (.writeCommand, [.num cmd.toNat])
  | .init => (.init, [])
  | .displayOn => (.displayOn, [])
  | .displayOff => (.displayOff, [])
  | .invert => (.invert, [])
  | .fill => (.fill, [])
  | .clear => (.clear, [])
  | .flush => (.flush, [])

end Sys2Proof
end

