-- ==== Sys2Proof/Machine/State.lean ====
section
/-! DEFINITION. The state of the machine as plain data (10_state R20), the reasons a step can stop, and the state after
hardware reset (10_state R41, 70_reset R210). -/

namespace Sys2Proof.Machine

/-- The tag of a transaction (20_memory R57, 30_encoding R96). -/
inductive Tag where
  | cmd
  | data
  deriving DecidableEq, Repr

/-- The one-bit encoding of the tag: CMD = 0, DATA = 1 (30_encoding R96). -/
def Tag.bit : Tag → Bit
  | .cmd => 0#1
  | .data => 1#1

/-- One transaction: device address, tag, bytes in order (10_state R40, 30_encoding R96). -/
structure Transaction where
  addr  : DevAddr
  tag   : Tag
  bytes : List Byte
  deriving DecidableEq, Repr

/-- The register file of 10_state R22, registers 0 to 11 in order. -/
structure Regs where
  width     : Half
  height    : Half
  bufsize   : Size
  devaddr   : DevAddr
  bufok     : Bit
  inv       : Bit
  curx      : Half
  cury      : Half
  session   : BitVec 2
  fault     : BitVec 4
  faultinfo : Word
  status    : Bit
  deriving DecidableEq, Repr

/-- How late the transport reports (20_memory R57: "at some later moment", 00_scope R10.3): every transaction at once, or
the next `n` at once and the one after them only in a turn of the transport's own. DESIGN CHOICE (assumption 4), safe. -/
inductive Transport where
  | prompt
  | holdsAfter (n : Nat)
  deriving DecidableEq, Repr

/-- What an operation still does once its last byte is reported: nothing (44_device_session R153, R161, R166), write PWR
(R159, R160), or write PHASE and PWR (R156). -/
inductive Ending where
  | done
  | pwr (v : Bit)
  | init
  deriving DecidableEq, Repr

/-- What an operation that waits in `Tx` still has to do: command bytes to send, one transaction each, then its ending. -/
structure Rest where
  bytes  : List Byte
  ending : Ending
  deriving DecidableEq, Repr

/-- The sequencer (10_state R38): no operation, a word captured and not yet run, or an operation that waits for the
report of the transaction it has emitted (20_memory R57). DESIGN CHOICE (assumption 5), safe. -/
inductive Sequencer where
  | idle
  | captured (w : OpWord)
  | waiting (rest : Rest)
  deriving DecidableEq, Repr

/-- What the host (or the reset pin) can do to the machine, one thing at a time (00_scope R10, 20_memory R60 R70,
70_reset R210 R224). -/
inductive HostEvent where
  /-- Present the next word of its program on the host port (10_state R21, 30_encoding R80). -/
  | present
  /-- Read register `n` through the register port (10_state R22). -/
  | readReg (n : BitVec 4)
  /-- `HostFbRead(a)` (20_memory R60). -/
  | readFb (a : Nat)
  /-- `HostFbWrite(a, v)` (20_memory R60). -/
  | writeFb (a : Nat) (v : Byte)
  /-- Populate or depopulate one asset address (20_memory R54, R70). -/
  | setAsset (a : AsAddr) (v : Option Byte)
  /-- Hardware reset (70_reset R210). `draw` is what the framebuffer bytes hold afterwards, which the spec leaves free
  (20_memory R53): byte `k` is the entry `k`, 0 past its end. `transport` is how late the transport reports from then
  on. -/
  | hardwareReset (draw : List Byte) (transport : Transport)
  deriving DecidableEq, Repr

/-- A turn of one of the three agents (00_scope R10). A turn of the host carries what it does (DESIGN CHOICE, assumption
6, safe); a turn of the transport reports the transaction it holds and says how late it reports from then on. -/
inductive Turn where
  | host (e : HostEvent)
  | mfc
  | transport (next : Transport)
  deriving DecidableEq, Repr

/-- What surrounds the machine: the arguments of the spec's step (10_state R20: the asset memory, the display command
constants); the transport and whether it owes a report (00_scope R10.3); the host's program, a finite list of operation
words, and its "pc", the index into that list (10_state R21); whether the word at the index was captured and its completion
is not yet counted (DEDUCED, assumption 6, safe); what the host last read, 0 before any read (DESIGN CHOICE, assumption
10, unsafe); and whose turns come next (00_scope R10; DESIGN CHOICE, assumption 21, safe). -/
structure Env where
  assets    : List Host.Cell
  display   : Config.DisplayCommands
  transport : Transport
  owed      : Bool
  program   : List OpWord
  hostPc    : Nat
  issued    : Bool
  hostData  : Word
  turns     : List Turn
  deriving DecidableEq, Repr

/-- The whole state (10_state R20): registers, framebuffer memory, transmit log, sequencer, and the surroundings. `fb`
lists the framebuffer bytes that are not 0x00, by rising address; TXLOG is oldest first. -/
structure State where
  regs  : Regs
  fb    : List Host.Cell
  txlog : List Transaction
  seq   : Sequencer
  env   : Env
  deriving DecidableEq, Repr

/-- The reasons a step stops with a fault. A fault of the MFC (60_exceptions R186) is NOT one of these: it is a next
state, with FAULT written. -/
inductive Fault where
  /-- The host reads or writes framebuffer address `a`, and `a` is `FB_CAP` or more: no such byte exists (20_memory R50,
  R60). Raised by the host port. Safe: the machine stops where the spec gives no byte. -/
  | hostFbAddress (a : Nat)
  deriving DecidableEq, Repr

/-- The reasons a step is refused. -/
inductive Refusal where
  /-- The instruction has no meaning in the model. Raised by `exec` only; no arm raises it. Safe. -/
  | notModelled (mnemonic : String)
  /-- The host touches FB, AS or a register other than STATUS while BUSY = 1: "a model gives the host no such step (it
  refuses, it does not invent an outcome)" (70_reset R224, 93 U19). Raised by the host port. Safe. -/
  | hostAccessWhileBusy
  deriving DecidableEq, Repr

/-- Every register after hardware reset (10_state R41). -/
def Regs.reset : Regs where
  width := 0
  height := 0
  bufsize := 0
  devaddr := 0
  bufok := 0
  inv := 0
  curx := 0
  cury := 0
  session := 0
  fault := 0
  faultinfo := 0
  status := 0

/-- The surroundings of `State.reset`: nothing populated in AS (assumption 3), the default display bytes of R98
(assumption 2), a transport that reports every transaction at once (assumption 4), no program (assumption 6), no turn to
come (assumption 21). -/
def Env.reset : Env where
  assets := []
  display := Config.defaultDisplay
  transport := .prompt
  owed := false
  program := []
  hostPc := 0
  issued := false
  hostData := 0
  turns := []

/-- The machine right after hardware reset (10_state R41, 70_reset R210), no operation running. The spec leaves every
framebuffer byte free; this one state lists none, so each reads 0x00: DESIGN CHOICE (assumption 1), unsafe. -/
def State.reset : State where
  regs := Regs.reset
  fb := []
  txlog := []
  seq := .idle
  env := Env.reset

end Sys2Proof.Machine
end

