-- ==== Sys2Proof/Machine/Flags.lean ====
section
/-! DEFINITION. The one-bit state of 10_state R35 inside the register file, the handle predicate `Valid()` (R33) and
the register read port (R22). -/

namespace Sys2Proof.Machine

/-- SESSION bit 0, PHASE: 0 UNINIT, 1 CONFIGURED (10_state R31). -/
def Regs.phase (r : Regs) : Bit := r.session.extractLsb' 0 1

/-- SESSION bit 1, PWR: 0 OFF, 1 ON (10_state R31). -/
def Regs.pwr (r : Regs) : Bit := r.session.extractLsb' 1 1

/-- Write PHASE, keep PWR. -/
def Regs.setPhase (r : Regs) (v : Bit) : Regs := { r with session := r.pwr ++ v }

/-- Write PWR, keep PHASE. -/
def Regs.setPwr (r : Regs) (v : Bit) : Regs := { r with session := v ++ r.phase }

/-- The handle validity predicate `Valid()` (10_state R33), clause by clause. -/
abbrev Regs.Valid (r : Regs) : Prop :=
  r.bufok = 1 ∧
  r.width.toNat ≠ 0 ∧
  r.height.toNat ≠ 0 ∧
  r.bufsize.toNat = r.width.toNat * r.height.toNat / Config.pageH ∧
  r.height.toNat % Config.pageH = 0 ∧
  r.width.toNat ≤ Config.dimMax ∧ r.height.toNat ≤ Config.dimMax

/-- STATUS bit 0, BUSY (10_state R34). -/
abbrev Regs.Busy (r : Regs) : Prop := r.status = 1

/-- The halted state: FAULT is not 0 (60_exceptions R187). -/
abbrev Regs.Halted (r : Regs) : Prop := r.fault ≠ 0

/-- The register read port: register `n` zero-extended to 32 bits, 0 for 12 to 15 (10_state R22). -/
def Regs.read (r : Regs) (n : BitVec 4) : Word :=
  match n.toNat with
  | 0 => r.width.setWidth 32
  | 1 => r.height.setWidth 32
  | 2 => r.bufsize
  | 3 => r.devaddr.setWidth 32
  | 4 => r.bufok.setWidth 32
  | 5 => r.inv.setWidth 32
  | 6 => r.curx.setWidth 32
  | 7 => r.cury.setWidth 32
  | 8 => r.session.setWidth 32
  | 9 => r.fault.setWidth 32
  | 10 => r.faultinfo
  | 11 => r.status.setWidth 32
  | _ => 0

end Sys2Proof.Machine
end

