-- ==== Sys2Proof/Machine/Operands.lean ====
section
/-! DEFINITION. Address arithmetic and bit selection on operands, all exact on natural numbers (00_scope R8,
45_operation_classes R170). -/

namespace Sys2Proof.Machine

/-- `ByteIndex(px, py)` for a width `W` (40_pixel_compositor R110). -/
def byteIndex (W px py : Nat) : Nat := px + (py / Config.pageH) * W

/-- `BitIndex(py) = py & 7` (R110). -/
def bitIndex (py : Nat) : Nat := py % Config.pageH

/-- `stride = ceil(w/8)`, bytes per bitmap row (30_encoding R91, 41_bitmap_blitter R121). -/
def stride (w : Nat) : Nat := (w + 7) / 8

/-- Asset address of the byte holding column `i` of row `j` (41_bitmap_blitter R120). -/
def bitmapAddr (src w i j : Nat) : Nat := src + j * stride w + i / 8

/-- The bit of a source byte for column `i`: bit `7 - (i % 8)`, the closed form R120 offers for its shift register. -/
def bitmapBit (sb : Byte) (i : Nat) : Bool := sb.getLsbD (7 - i % 8)

/-- `GlyphAddr(fbase, fw, ch, i)` (42_glyph_rasterizer R130), used only for `ch` of at least 32. -/
def glyphAddr (fbase fw ch i : Nat) : Nat := fbase + (ch - Config.glyphBase) * fw + i

/-- `GlyphBit(g, j)`: bit `7 - j`, and 0 for `j` of 8 or more (R131). -/
def glyphBit (g : Byte) (j : Nat) : Bool := if j ≤ 7 then g.getLsbD (7 - j) else false

/-- Display row of glyph row `j` of a cell at `py` (R132). -/
def glyphRow (py fh j : Nat) : Nat := py + fh - j

/-- `v | (1 << b)` in 8 bits (40_pixel_compositor R111). -/
def setBitOf (v : Byte) (b : Nat) : Byte := v ||| (1#8 <<< b)

/-- `v & (~(1 << b) & 0xFF)` in 8 bits (R111). -/
def clearBitOf (v : Byte) (b : Nat) : Byte := v &&& ~~~(1#8 <<< b)

/-- Colour to bit: colour 0 sets the bit, colour 1 clears it (R114). -/
def colourByte (v : Byte) (b : Nat) (c : Bit) : Byte := if c = 0 then setBitOf v b else clearBitOf v b

/-- The INIT byte sequence `InitSeq(W, H)` of 30_encoding R99. -/
def initSeq (d : Config.DisplayCommands) (W H : Nat) : List Byte :=
  [ d.cmdDisplayOff,
    d.cmdMemMode, d.argMemModeHorizontal,
    d.cmdComScan,
    d.cmdColRange, 0x00#8, BitVec.ofNat 8 (W - 1),
    d.cmdPageRange, 0x00#8, BitVec.ofNat 8 (H / Config.pageH - 1),
    d.cmdContrast, d.argContrast,
    d.cmdSegRemap,
    d.cmdMuxRatio, BitVec.ofNat 8 (H - 1),
    d.cmdStartLine,
    d.cmdDisplayOffset, d.argDisplayOffset,
    d.cmdClockDiv, d.argClockDiv,
    d.cmdPrecharge, d.argPrecharge,
    d.cmdVcomh, d.argVcomh,
    d.cmdComPins, d.argComPins,
    d.cmdChargePump, d.argChargePumpOn,
    d.cmdResumeRam,
    d.cmdNormal,
    d.cmdScrollOff,
    d.cmdDisplayOn ]

end Sys2Proof.Machine
end

