-- ==== Sys2Proof/Machine/Ops.lean ====
section
/-! DEFINITION. The shared operations over memory, registers and the transmit port, the shape of a run of an operation,
taking a fault (60_exceptions R186), and hardware reset, the only way back from one (R188, 70_reset R210). -/

namespace Sys2Proof.Machine

/-! ### Lists of cells -/

/-- The byte listed at address `a`, if any. -/
def Cells.find : List Host.Cell → Nat → Option Byte
  | [], _ => none
  | (k, v) :: m, a => if a = k then some v else Cells.find m a

/-- List `v` at address `a`, keeping the addresses rising. -/
def Cells.put : List Host.Cell → Nat → Byte → List Host.Cell
  | [], a, v => [(a, v)]
  | (k, w) :: m, a, v =>
    if a < k then (a, v) :: (k, w) :: m
    else if a = k then (a, v) :: m
    else (k, w) :: Cells.put m a v

/-- List nothing at address `a`. -/
def Cells.erase (m : List Host.Cell) (a : Nat) : List Host.Cell := m.filter (fun p => p.1 ≠ a)

/-- The addresses of a list of cells are strictly rising. -/
abbrev Cells.Rising (m : List Host.Cell) : Prop := m.Pairwise (fun p q => p.1 < q.1)

/-! ### The framebuffer memory -/

/-- What an unlisted framebuffer address reads as. DESIGN CHOICE (assumption 1): the spec fixes no byte at reset
(20_memory R53); every content of all 8192 bytes is some list, so statements about all states leave nothing out. -/
abbrev Memory.unlisted : Byte := 0x00#8

/-- `MemRead(FB, a, 1)` (00_scope R9). At `FB_CAP` and above, where no byte exists, it gives the unlisted byte, which no
step uses: DESIGN CHOICE (assumption 16), safe. -/
def Memory.read (m : List Host.Cell) (a : Nat) : Byte := (Cells.find m a).getD Memory.unlisted

/-- `MemWrite(FB, a, 1, v)` (00_scope R9), keeping the canonical form. -/
def Memory.write (m : List Host.Cell) (a : Nat) (v : Byte) : List Host.Cell :=
  if v = Memory.unlisted then Cells.erase m a else Cells.put m a v

/-- The canonical form: addresses strictly rising, each below `FB_CAP`, no entry equal to what is unlisted. -/
abbrev Memory.wf (m : List Host.Cell) : Prop :=
  Cells.Rising m ∧ ∀ p ∈ m, p.1 < Config.fbCap ∧ p.2 ≠ Memory.unlisted

/-- The memory that holds the given bytes at `a`, `a + 1`, and so on. -/
def Memory.ofBytesAt : Nat → List Byte → List Host.Cell
  | _, [] => []
  | a, v :: vs => if v = Memory.unlisted then Memory.ofBytesAt (a + 1) vs else (a, v) :: Memory.ofBytesAt (a + 1) vs

/-- The framebuffer that holds byte `k` of the list at address `k`, for the `FB_CAP` addresses that exist. -/
def Memory.ofBytes (bs : List Byte) : List Host.Cell := Memory.ofBytesAt 0 (bs.take Config.fbCap)

/-- Write `v` at `n` addresses from `a` upward, in ascending order (44_device_session R156, R163, R164). -/
def Memory.fillFrom (v : Byte) : Nat → Nat → List Host.Cell → List Host.Cell
  | _, 0, m => m
  | a, n + 1, m => Memory.fillFrom v (a + 1) n (Memory.write m a v)

/-- The bytes at `0 .. n-1`, in ascending address order (44_device_session R166). -/
def Memory.readOut (m : List Host.Cell) (n : Nat) : List Byte := (List.range n).map (Memory.read m)

/-! ### The asset memory -/

/-- The canonical form of the asset memory: addresses strictly rising, each below `2^32`. What is unlisted is not
populated and has no byte. -/
abbrev Assets.wf (m : List Host.Cell) : Prop := Cells.Rising m ∧ ∀ p ∈ m, p.1 < Config.asSize

/-- Populate or depopulate one address (20_memory R54, R70). -/
def Assets.set (m : List Host.Cell) (a : Word) : Option Byte → List Host.Cell
  | some v => Cells.put m a.toNat v
  | none => Cells.erase m a.toNat

/-- The asset byte at the exact address `a`: none when `a` is not in `AS_DOM` or is `2^32` or more (20_memory R55). -/
def State.asset (s : State) (a : Nat) : Option Byte :=
  if a < Config.asSize then Cells.find s.env.assets a else none

/-! ### Field updates -/

/-- Write the framebuffer byte at `a`. -/
def State.writeFb (s : State) (a : Nat) (v : Byte) : State := { s with fb := Memory.write s.fb a v }

/-- Read the framebuffer byte at `a`. -/
def State.readFb (s : State) (a : Nat) : Byte := Memory.read s.fb a

/-- Write bytes `0 .. BUFSIZE-1` (R156, R163, R164). -/
def State.fillFb (s : State) (v : Byte) : State :=
  { s with fb := Memory.fillFrom v 0 s.regs.bufsize.toNat s.fb }

/-- Write the handle registers (44_device_session R151). -/
def State.setHandle (s : State) (width height : Half) (bufsize : Size) (devaddr : DevAddr) (bok : Bit) : State :=
  { s with regs := { s.regs with width := width, height := height, bufsize := bufsize, devaddr := devaddr, bufok := bok } }

/-- Write CURX and CURY. -/
def State.setCursor (s : State) (x y : Half) : State := { s with regs := { s.regs with curx := x, cury := y } }

/-- Write CURX. -/
def State.setCurx (s : State) (x : Half) : State := { s with regs := { s.regs with curx := x } }

/-- Write INV. -/
def State.setInv (s : State) (v : Bit) : State := { s with regs := { s.regs with inv := v } }

/-- Write SESSION.PHASE. -/
def State.setPhase (s : State) (v : Bit) : State := { s with regs := s.regs.setPhase v }

/-- Write SESSION.PWR. -/
def State.setPwr (s : State) (v : Bit) : State := { s with regs := s.regs.setPwr v }

/-- Write STATUS.BUSY. -/
def State.setBusy (s : State) (v : Bit) : State := { s with regs := { s.regs with status := v } }

/-- Write FAULT and FAULTINFO. -/
def State.setFault (s : State) (code : BitVec 4) (info : Word) : State :=
  { s with regs := { s.regs with fault := code, faultinfo := info } }

/-- Append a transaction to TXLOG. -/
def State.log (s : State) (t : Transaction) : State := { s with txlog := s.txlog ++ [t] }

/-- Write the sequencer. -/
def State.setSeq (s : State) (q : Sequencer) : State := { s with seq := q }

/-- How late the transport reports from now on. -/
def State.setTransport (s : State) (t : Transport) : State := { s with env := { s.env with transport := t } }

/-- Whether the transport owes a report. -/
def State.setOwed (s : State) (v : Bool) : State := { s with env := { s.env with owed := v } }

/-- The turns to come. -/
def State.setTurns (s : State) (ts : List Turn) : State := { s with env := { s.env with turns := ts } }

/-- Replace the asset memory. -/
def State.setAssets (s : State) (m : List Host.Cell) : State := { s with env := { s.env with assets := m } }

/-- What the host's read port returned. -/
def State.setHostData (s : State) (v : Word) : State := { s with env := { s.env with hostData := v } }

/-- Whether the word at the host's index was captured and its completion is not yet counted. -/
def State.setIssued (s : State) (v : Bool) : State := { s with env := { s.env with issued := v } }

/-- The host's index moves past the word whose operation has completed (10_state R21). -/
def State.advanceHost (s : State) : State :=
  { s with env := { s.env with hostPc := s.env.hostPc + 1, issued := false } }

/-- The host's program is these words, none of them presented yet (10_state R21). -/
def State.load (s : State) (words : List OpWord) : State :=
  { s with env := { s.env with program := words, hostPc := 0, issued := false } }

/-! ### Faults -/

/-- The faults of the MFC (60_exceptions R181). -/
inductive Cause where
  | handleInvalid
  | glyphRange
  | cursorOverflow
  | assetRange
  | illegalOp
  deriving DecidableEq, Repr

/-- The code a fault writes to FAULT (60_exceptions R181). -/
def Cause.code : Cause → BitVec 4
  | .handleInvalid => 1#4
  | .glyphRange => 2#4
  | .cursorOverflow => 3#4
  | .assetRange => 4#4
  | .illegalOp => 5#4

/-- Taking a fault, `raise F(info)` (60_exceptions R186): FAULT and FAULTINFO written, the operation stopped, BUSY
cleared, nothing else. In the same step as the raise: DEDUCED (assumption 20), safe. -/
def State.takeFault (s : State) (f : Cause) (info : Word) : State := ((s.setFault f.code info).setBusy 0).setSeq .idle

/-- Hardware reset (70_reset R210), the only way out of the halted state (60_exceptions R188): registers and TXLOG as
R41 says, the framebuffer bytes as drawn, a running operation abandoned, its report no longer awaited and its completion
never counted; AS, the display constants and the host's program and index are the host's own and kept: DESIGN CHOICE
(assumption 11), safe. -/
def State.hardwareReset (s : State) (draw : List Byte) (transport : Transport) : State where
  regs := Regs.reset
  fb := Memory.ofBytes draw
  txlog := []
  seq := .idle
  env := { s.env with transport := transport, owed := false, issued := false }

/-! ### The life of one operation (10_state R34) -/

/-- The MFC accepts a word: BUSY rises and the sequencer holds the word. -/
def State.accept (s : State) (w : OpWord) : State := (s.setBusy 1).setSeq (.captured w)

/-- The operation is complete: BUSY falls. -/
def State.complete (s : State) : State := (s.setBusy 0).setSeq .idle

/-- The operation waits in `Tx` (20_memory R57): BUSY stays 1 and the transport owes its report. -/
def State.await (s : State) (rest : Rest) : State := ((s.setBusy 1).setSeq (.waiting rest)).setOwed true

/-! ### The run of one operation, up to its first transaction -/

/-- How pseudocode that sends nothing ends, or how far it has come: it goes on, or it raised a fault. The state is what
it has done so far (60_exceptions R185). -/
inductive Run where
  | go (s : State)
  | raised (f : Cause) (info : Word) (s : State)
  deriving DecidableEq, Repr

/-- Go on with `k` unless a fault was raised. -/
def Run.andThen : Run → (State → Run) → Run
  | .go s, k => k s
  | .raised f info s, _ => .raised f info s

/-- The end of an operation: `last` where the pseudocode went on, a fault taken where it raised one (60_exceptions
R186). -/
def Run.finishWith (last : State → State) : Run → Host.Outcome State Fault Refusal
  | .go s => .next (last s)
  | .raised f info s => .next (s.takeFault f info)

/-- The end of an operation that sends nothing. -/
def Run.finish (r : Run) : Host.Outcome State Fault Refusal := r.finishWith State.complete

/-- `for i in a .. a+n-1` over a body that may end the run (00_scope R9). -/
def Run.loop (body : Nat → State → Run) : Nat → Nat → State → Run
  | _, 0, s => .go s
  | a, n + 1, s => (body a s).andThen (Run.loop body (a + 1) n)

/-- `for i in a .. a+n-1` over a body that cannot fault. -/
def State.loop (body : Nat → State → State) : Nat → Nat → State → State
  | _, 0, s => s
  | a, n + 1, s => State.loop body (a + 1) n (body a s)

/-- `MemRead(AS, a, 1)` for the rest of the run (20_memory R55): the byte is handed on, or ASSET_RANGE is raised with
bits 31:0 of the exact address. -/
def State.withAsset (s : State) (a : Nat) (k : Byte → Run) : Run :=
  match s.asset a with
  | some g => k g
  | none => .raised .assetRange (BitVec.ofNat 32 a) s

/-- Every operation but CONFIG evaluates `Valid()` first (60_exceptions R182). -/
def State.requireValid (s : State) (k : State → Run) : Run :=
  if s.regs.Valid then k s else .raised .handleInvalid 0 s

/-! ### The transmit port -/

/-- `Tx(tag, bytes)` with the pseudocode `k` after it (20_memory R57): the transaction is emitted, and is in TXLOG, in
every case. Where the transport reports it at once `k` goes on; where it holds it the operation waits, and `rest` is what
it still has to do. -/
def State.tx (s : State) (tag : Tag) (bytes : List Byte) (rest : Rest) (k : State → State) : State :=
  let s' := s.log ⟨s.regs.devaddr, tag, bytes⟩
  match s.env.transport with
  | .prompt => k s'
  | .holdsAfter (n + 1) => k (s'.setTransport (.holdsAfter n))
  | .holdsAfter 0 => s'.await rest

/-- The register writes of an ending (44_device_session R156, R159, R160). -/
def Ending.run : Ending → State → State
  | .done, s => s
  | .pwr v, s => s.setPwr v
  | .init, s => (s.setPhase 1).setPwr 1

/-- `WriteCmd(b) = Tx(CMD, [b])` (44_device_session R152, 30_encoding R97) for each byte of a list, in order, then the
ending, and the operation is complete. -/
def State.sendCmds (e : Ending) : List Byte → State → State
  | [], s => (e.run s).complete
  | b :: bs, s => s.tx .cmd [b] ⟨bs, e⟩ (State.sendCmds e bs)

/-- Go on with an operation that waited. -/
def Rest.run (r : Rest) (s : State) : State := State.sendCmds r.ending r.bytes s

end Sys2Proof.Machine
end

