-- ==== Sys2Proof/Machine/Compositor.lean ====
section
/-! DEFINITION. The Pixel Compositor (40_pixel_compositor): bit accessor, pixel primitive, PUT_PIXEL. -/

namespace Sys2Proof.Machine

/-- A pixel is in range (R112); the comparison is on exact natural numbers. -/
abbrev Regs.InRange (r : Regs) (px py : Nat) : Prop := px < r.width.toNat ∧ py < r.height.toNat

/-- `GetBit(a, b)` (R111). -/
def State.getBit (s : State) (a b : Nat) : Bool := (s.readFb a).getLsbD b

/-- The bit of FB that holds pixel `(px, py)` (R110, 30_encoding R90). -/
def State.pixel (s : State) (px py : Nat) : Bool :=
  s.getBit (byteIndex s.regs.width.toNat px py) (bitIndex py)

/-- `PutPixel(px, py, c)` (R113): read-modify-write of one bit, nothing at all when out of range. -/
def putPixel (px py : Nat) (c : Bit) (s : State) : State :=
  if s.regs.InRange px py then
    let a := byteIndex s.regs.width.toNat px py
    s.writeFb a (colourByte (s.readFb a) (bitIndex py) c)
  else s

/-- PUT_PIXEL `x, y, c` (R115). -/
def execPutPixel (x y : Half) (c : Bit) (s : State) : Host.Outcome State Fault Refusal :=
  (s.requireValid fun s => .go (putPixel x.toNat y.toNat c s)).finish

end Sys2Proof.Machine
end

