-- ==== Sys2Proof/Machine/Blitter.lean ====
section
/-! DEFINITION. The Bitmap Blitter (41_bitmap_blitter). The closed form of R120 stands for the shift register: the byte
at `bitmapAddr` is read at every column, which gives the same byte and the same first fault (20_memory R56): DEDUCED (assumption 14), safe. -/

namespace Sys2Proof.Machine

/-- Column `i` of row `j` of a bitmap (R121): read the source byte, paint when its bit is 1, skip when it is 0. -/
def blitColumn (x y src w : Nat) (c : Bit) (j i : Nat) (s : State) : Run :=
  s.withAsset (bitmapAddr src w i j) fun sb =>
    .go (if bitmapBit sb i then putPixel (x + i) (y + j) c s else s)

/-- Row `j` of a bitmap, columns left to right (R121). -/
def blitRow (x y src w : Nat) (c : Bit) (j : Nat) (s : State) : Run :=
  Run.loop (blitColumn x y src w c j) 0 w s

/-- DRAW_BITMAP `x, y, src, w, h, c` (R121): rows top to bottom. -/
def execDrawBitmap (x y : Half) (src : AsAddr) (w h : Half) (c : Bit) (s : State) : Host.Outcome State Fault Refusal :=
  (s.requireValid fun s => Run.loop (blitRow x.toNat y.toNat src.toNat w.toNat c) 0 h.toNat s).finish

end Sys2Proof.Machine
end

