-- ==== Sys2Proof/Machine/Rasterizer.lean ====
section
/-! DEFINITION. The Glyph Rasterizer (42_glyph_rasterizer): checks, glyph routine, DRAW_CHAR. -/

namespace Sys2Proof.Machine

/-- The colour of glyph row `j` of a column byte: `c` for foreground, `1 - c` for background (R134). -/
def glyphColour (g : Byte) (j : Nat) (c : Bit) : Bit := if glyphBit g j then c else 1 - c

/-- Glyph row `j` of the cell column at display column `px` (R134). -/
def paintGlyphRow (px py fh : Nat) (g : Byte) (c : Bit) (j : Nat) (s : State) : State :=
  putPixel px (glyphRow py fh j) (glyphColour g j c) s

/-- One column of a cell: glyph rows `0 .. fh-1`, row 0 the bottom scanline (R132, R134). -/
def paintColumn (px py fh : Nat) (g : Byte) (c : Bit) (s : State) : State :=
  State.loop (paintGlyphRow px py fh g c) 0 fh s

/-- Column `i` of a character: read its glyph byte, paint its rows (R134). -/
def drawColumn (font : Font) (ch : Byte) (px py : Nat) (c : Bit) (i : Nat) (s : State) : Run :=
  s.withAsset (glyphAddr font.fbase.toNat font.fw.toNat ch.toNat i) fun g =>
    .go (paintColumn (px + i) py font.fh.toNat g c s)

/-- The character code is in the font: `32 <= ch < 32 + fn` (R133). -/
abbrev InFont (font : Font) (ch : Byte) : Prop :=
  Config.glyphBase ≤ ch.toNat ∧ ch.toNat < Config.glyphBase + font.fn.toNat

/-- `CharChecks(fw, fn, ch, px)` (R133): GLYPH_RANGE first, then CURSOR_OVERFLOW; on a fault nothing has changed. -/
def charChecks (font : Font) (ch : Byte) (px : Nat) (k : State → Run) (s : State) : Run :=
  if InFont font ch then
    if px + font.fw.toNat > Config.cursorMax then
      .raised .cursorOverflow (BitVec.ofNat 32 (px + font.fw.toNat)) s
    else k s
  else .raised .glyphRange (ch.setWidth 32) s

/-- `DrawChar(fw, fh, fn, fbase, ch, px, py, c)` (R134). -/
def drawChar (font : Font) (ch : Byte) (px py : Half) (c : Bit) (s : State) : Run :=
  charChecks font ch px.toNat (fun s =>
    (Run.loop (drawColumn font ch px.toNat py.toNat c) 0 font.fw.toNat (s.setCursor px py)).andThen fun s =>
      .go (s.setCurx (BitVec.ofNat Config.coordW (px.toNat + font.fw.toNat)))) s

/-- DRAW_CHAR `font, ch, x, y, c` (R135). -/
def execDrawChar (font : Font) (ch : Byte) (x y : Half) (c : Bit) (s : State) : Host.Outcome State Fault Refusal :=
  (s.requireValid (drawChar font ch x y c)).finish

end Sys2Proof.Machine
end

