-- ==== Sys2Proof/Machine/Session.lean ====
section
/-! DEFINITION. The Device Session (44_device_session): CONFIG, WRITE_COMMAND, INIT, DISPLAY_ON, DISPLAY_OFF, INVERT,
FILL, CLEAR, FLUSH. -/

namespace Sys2Proof.Machine

/-- CONFIG (R151): latch the handle unchecked, PHASE and PWR to 0. The one operation without a validity check. -/
def execConfig (width height : Half) (bufsize : Size) (devaddr : DevAddr) (bok : Bit) (s : State) :
    Host.Outcome State Fault Refusal :=
  Run.finish (.go (((s.setHandle width height bufsize devaddr bok).setPhase 0).setPwr 0))

/-- The state after the validity check (60_exceptions R182), for an operation that sends. -/
def State.checked (s : State) : Run := s.requireValid .go

/-- WRITE_COMMAND `cmd` (R153). -/
def execWriteCommand (cmd : Byte) (s : State) : Host.Outcome State Fault Refusal :=
  s.checked.finishWith (State.sendCmds .done [cmd])

/-- The buffer and soft-state phases of INIT (R156): zero the buffer, then INV, CURX and CURY to 0. -/
def initSoft (s : State) : State := ((s.fillFb 0x00#8).setInv 0).setCursor 0 0

/-- INIT (R156): buffer, soft state, the 32 commands of `InitSeq`, and SESSION last. -/
def execInit (s : State) : Host.Outcome State Fault Refusal :=
  s.checked.finishWith fun s =>
    State.sendCmds .init (initSeq s.env.display s.regs.width.toNat s.regs.height.toNat) (initSoft s)

/-- DISPLAY_ON (R159). -/
def execDisplayOn (s : State) : Host.Outcome State Fault Refusal :=
  s.checked.finishWith fun s => State.sendCmds (.pwr 1) [s.env.display.cmdDisplayOn] s

/-- DISPLAY_OFF (R160). -/
def execDisplayOff (s : State) : Host.Outcome State Fault Refusal :=
  s.checked.finishWith fun s => State.sendCmds (.pwr 0) [s.env.display.cmdDisplayOff] s

/-- The display command that goes with a value of INV: inverse for 1, normal for 0 (R161). -/
def polarityCommand (d : Config.DisplayCommands) (inv : Bit) : Byte := if inv = 1 then d.cmdInverse else d.cmdNormal

/-- INVERT (R161): complement INV, then send the command of the new value. -/
def execInvert (s : State) : Host.Outcome State Fault Refusal :=
  s.checked.finishWith fun s =>
    let inv := 1 - s.regs.inv
    State.sendCmds .done [polarityCommand s.env.display inv] (s.setInv inv)

/-- FILL (R163). -/
def execFill (s : State) : Host.Outcome State Fault Refusal :=
  (s.requireValid fun s => .go (s.fillFb 0xFF#8)).finish

/-- CLEAR (R164). -/
def execClear (s : State) : Host.Outcome State Fault Refusal :=
  (s.requireValid fun s => .go (s.fillFb 0x00#8)).finish

/-- FLUSH (R166): one DATA transaction of the whole buffer. -/
def execFlush (s : State) : Host.Outcome State Fault Refusal :=
  s.checked.finishWith fun s =>
    s.tx .data (Memory.readOut s.fb s.regs.bufsize.toNat) ⟨[], .done⟩ State.complete

end Sys2Proof.Machine
end

