-- ==== Sys2Proof/Machine/StringLayout.lean ====
section
/-! DEFINITION. String Layout (43_string_layout): DRAW_STRING. -/

namespace Sys2Proof.Machine

/-- The string loop of R141, at text address `2^32 - left`: `left` counts the asset addresses still ahead, so at 0 the
address is `2^32`, where the read faults (20_memory R55). Each character is drawn at the cursor registers (R140). DEDUCED
(assumption 13), safe. -/
def drawText (font : Font) (c : Bit) : Nat → State → Run
  | 0, s => .raised .assetRange (BitVec.ofNat 32 Config.asSize) s
  | left + 1, s =>
    s.withAsset (Config.asSize - (left + 1)) fun ch =>
      if ch = Config.strTerm then .go s
      else (drawChar font ch s.regs.curx s.regs.cury c s).andThen (drawText font c left)

/-- DRAW_STRING `font, text, x, y, c` (R141): set the cursor, then the loop from `text`. -/
def execDrawString (font : Font) (text : AsAddr) (x y : Half) (c : Bit) (s : State) : Host.Outcome State Fault Refusal :=
  (s.requireValid fun s => drawText font c (Config.asSize - text.toNat) (s.setCursor x y)).finish

end Sys2Proof.Machine
end

