-- ==== Sys2Proof/Machine/Dispatch.lean ====
section
/-! DEFINITION. One arm per operation of 30_encoding R84: the effect of an accepted operation. Acceptance (BUSY = 0 and
FAULT = 0) is tested when the word is presented, not here: DESIGN CHOICE (assumption 12), safe. -/

namespace Sys2Proof.Machine

/-- The effect of an operation the MFC has accepted. -/
def exec (i : Instr) (s : State) : Host.Outcome State Fault Refusal :=
  match i with
  | .config width height bufsize devaddr bok => Sys2Proof.Machine.execConfig width height bufsize devaddr bok s
  | .putPixel x y c => Sys2Proof.Machine.execPutPixel x y c s
  | .drawBitmap x y src w h c => Sys2Proof.Machine.execDrawBitmap x y src w h c s
  | .drawChar font ch x y c => Sys2Proof.Machine.execDrawChar font ch x y c s
  | .drawString font text x y c => Sys2Proof.Machine.execDrawString font text x y c s
  | .writeCommand cmd => Sys2Proof.Machine.execWriteCommand cmd s
  | .init => Sys2Proof.Machine.execInit s
  | .displayOn => Sys2Proof.Machine.execDisplayOn s
  | .displayOff => Sys2Proof.Machine.execDisplayOff s
  | .invert => Sys2Proof.Machine.execInvert s
  | .fill => Sys2Proof.Machine.execFill s
  | .clear => Sys2Proof.Machine.execClear s
  | .flush => Sys2Proof.Machine.execFlush s

end Sys2Proof.Machine
end

