-- ==== Sys2Proof/Machine/HostPort.lean ====
section
/-! DEFINITION. The host's step (00_scope R10.2): the next word of its program presented, its index over that program
(10_state R21), the register read port, the framebuffer port, asset preparation, hardware reset. -/

namespace Sys2Proof.Machine

/-- A word is captured only when BUSY = 0 and FAULT = 0 (60_exceptions R187, 70_reset R224). -/
abbrev State.Ready (s : State) : Prop := s.regs.status = 0 ∧ s.regs.fault = 0

/-- The host's index "advances by one after each completed operation; after a fault the index no longer matters" (10_state
R21): the operation of the word at the index has completed when that word was captured and the machine is ready again. The
host's turn is where its own index moves: DEDUCED (assumption 6), safe. -/
def State.moveOn (s : State) : State := if s.env.issued = true ∧ s.Ready then s.advanceHost else s

/-- The word at the host's index; none when the program has ended (10_state R21). -/
def State.nextWord (s : State) : Option OpWord := s.env.program[s.env.hostPc]?

/-- An operation word on the host port. While busy or halted it is neither captured nor queued (R187, R224), and the index
stays. Capturing it is all the host's step does: the MFC decodes and runs it in a turn of its own. -/
def issueWord (w : OpWord) (s : State) : Host.Outcome State Fault Refusal :=
  .next (if s.Ready then (s.accept w).setIssued true else s)

/-- The host presents the word at its index, or nothing when its program has ended. -/
def presentWord (s : State) : Host.Outcome State Fault Refusal :=
  match s.nextWord with
  | none => .next s
  | some w => issueWord w s

/-- A host access that the host may make only while BUSY = 0 (20_memory R60, R70; 70_reset R224). DEDUCED
(assumption 8), safe. -/
def whileIdle (s : State) (r : Host.Outcome State Fault Refusal) : Host.Outcome State Fault Refusal :=
  if s.regs.status = 0 then r else .refused .hostAccessWhileBusy

/-- A host access to framebuffer address `a`, which must exist (20_memory R60). DESIGN CHOICE (assumption 9), safe. -/
def atFb (a : Nat) (r : Host.Outcome State Fault Refusal) : Host.Outcome State Fault Refusal :=
  if a < Config.fbCap then r else .fault (.hostFbAddress a)

/-- A read of the register port (10_state R22); STATUS may be read at any time (R34). -/
def readRegPort (n : BitVec 4) (s : State) : Host.Outcome State Fault Refusal :=
  if n = 11#4 then .next (s.setHostData (s.regs.read n))
  else whileIdle s (.next (s.setHostData (s.regs.read n)))

/-- `HostFbRead(a)` (20_memory R60). -/
def readFbPort (a : Nat) (s : State) : Host.Outcome State Fault Refusal :=
  whileIdle s (atFb a (.next (s.setHostData ((s.readFb a).setWidth 32))))

/-- `HostFbWrite(a, v)` (20_memory R60). -/
def writeFbPort (a : Nat) (v : Byte) (s : State) : Host.Outcome State Fault Refusal :=
  whileIdle s (atFb a (.next (s.writeFb a v)))

/-- The host prepares one asset address (20_memory R70). DESIGN CHOICE (assumption 15), safe. -/
def setAssetPort (a : AsAddr) (v : Option Byte) (s : State) : Host.Outcome State Fault Refusal :=
  whileIdle s (.next (s.setAssets (Assets.set s.env.assets a v)))

/-- One event of the host. -/
def serve (e : HostEvent) (s : State) : Host.Outcome State Fault Refusal :=
  match e with
  | .present => presentWord s
  | .readReg n => readRegPort n s
  | .readFb a => readFbPort a s
  | .writeFb a v => writeFbPort a v s
  | .setAsset a v => setAssetPort a v s
  | .hardwareReset draw transport => .next (s.hardwareReset draw transport)

/-- The step relation of the host (00_scope R10.2): it counts the operation that has completed since its last step, if
one has, and then does what its turn says. -/
def hostStep (e : HostEvent) (s : State) : Host.Outcome State Fault Refusal := serve e s.moveOn

end Sys2Proof.Machine
end

