-- ==== Sys2Proof/Machine/Agents.lean ====
section
/-! DEFINITION. The steps of the MFC and of the transport, beside the host's of HostPort.lean: one step relation for each of
the three agents of 00_scope R10. Whose turn is next is plain data in the state (DESIGN CHOICE, assumption 21, safe). -/

namespace Sys2Proof.Machine

/-- The MFC runs the word it has captured. It decodes first (60_exceptions R189): an illegal word raises ILLEGAL_OP with
bits 31:0 (R184). -/
def runWord (w : OpWord) (s : State) : Host.Outcome State Fault Refusal :=
  match decode w with
  | .ok i => exec i s
  | .error _ => .next (s.takeFault .illegalOp (w.extractLsb' 0 32))

/-- The step relation of the MFC (00_scope R10.1). Halted (60_exceptions R187) or without an operation it does nothing. A
captured word it runs to the end, or to the first `Tx` that the transport holds; an operation that waits goes on once the
report is there (20_memory R57). -/
def mfcStep (s : State) : Host.Outcome State Fault Refusal :=
  if s.regs.Halted then .next s
  else match s.seq with
    | .idle => .next s
    | .captured w => runWord w s
    | .waiting rest => .next (if s.env.owed then s else rest.run s)

/-- The step relation of the transport (00_scope R10.3): it reports the transaction it holds. It reaches nothing of the
MFC, and with nothing to report it does nothing. -/
def transportStep (next : Transport) (s : State) : Host.Outcome State Fault Refusal :=
  .next (if s.env.owed then (s.setTransport next).setOwed false else s)

/-- One turn of an agent. -/
def takeTurn (a : Turn) (s : State) : Host.Outcome State Fault Refusal :=
  match a with
  | .host e => hostStep e s
  | .mfc => mfcStep s
  | .transport next => transportStep next s

/-- The next turn is taken; with none to come nothing happens and the machine waits (70_reset R210). -/
def nextTurn (s : State) : Host.Outcome State Fault Refusal :=
  match s.env.turns with
  | [] => .next s
  | a :: ts => takeTurn a (s.setTurns ts)

end Sys2Proof.Machine
end

