-- ==== Sys2Proof/Machine/Step.lean ====
section
/-! DEFINITION. The step of the machine and how the host's checks place one instruction before it. -/

namespace Sys2Proof.Machine

/-- One step: the agent whose turn it is takes its own step. -/
def step (s : State) : Host.Outcome State Fault Refusal := nextTurn s

/-- `s` with the word loaded as the host's whole program and captured (10_state R34: BUSY is 1), and the MFC's turn next,
so the very next step decodes and runs exactly this word. DEDUCED (assumption 7), safe. -/
def State.withFetchWord (s : State) (nbits w : Nat) : State :=
  let word := BitVec.ofNat Config.opwordW (w % 2 ^ nbits)
  (((s.load [word]).accept word).setIssued true).setTurns [.mfc]

end Sys2Proof.Machine
end

