-- ==== Sys2Proof/Safety.lean ====
section
/-! DEFINITION. What counts as a safe state and a successful run, in the terms the statements use: the shape
of transactions, how late the transport may report, and the invariant every step keeps. -/

namespace Sys2Proof.Machine

/-! ### Which operation may write what (10_state R22 "written by", 20_memory R50 R61) -/

/-- The handle registers WIDTH, HEIGHT, BUFSIZE, DEVADDR, BUFOK are written by CONFIG (R22). -/
def writesHandle : Instr → Bool
  | .config _ _ _ _ _ => true
  | .putPixel _ _ _ => false
  | .drawBitmap _ _ _ _ _ _ => false
  | .drawChar _ _ _ _ _ => false
  | .drawString _ _ _ _ _ => false
  | .writeCommand _ => false
  | .init => false
  | .displayOn => false
  | .displayOff => false
  | .invert => false
  | .fill => false
  | .clear => false
  | .flush => false

/-- INV is written by INIT and INVERT (R22). -/
def writesInv : Instr → Bool
  | .config _ _ _ _ _ => false
  | .putPixel _ _ _ => false
  | .drawBitmap _ _ _ _ _ _ => false
  | .drawChar _ _ _ _ _ => false
  | .drawString _ _ _ _ _ => false
  | .writeCommand _ => false
  | .init => true
  | .displayOn => false
  | .displayOff => false
  | .invert => true
  | .fill => false
  | .clear => false
  | .flush => false

/-- CURX and CURY are written by INIT, DRAW_CHAR and DRAW_STRING (R22). -/
def writesCursor : Instr → Bool
  | .config _ _ _ _ _ => false
  | .putPixel _ _ _ => false
  | .drawBitmap _ _ _ _ _ _ => false
  | .drawChar _ _ _ _ _ => true
  | .drawString _ _ _ _ _ => true
  | .writeCommand _ => false
  | .init => true
  | .displayOn => false
  | .displayOff => false
  | .invert => false
  | .fill => false
  | .clear => false
  | .flush => false

/-- SESSION is written by CONFIG, INIT, DISPLAY_ON and DISPLAY_OFF (R22). -/
def writesSession : Instr → Bool
  | .config _ _ _ _ _ => true
  | .putPixel _ _ _ => false
  | .drawBitmap _ _ _ _ _ _ => false
  | .drawChar _ _ _ _ _ => false
  | .drawString _ _ _ _ _ => false
  | .writeCommand _ => false
  | .init => true
  | .displayOn => true
  | .displayOff => true
  | .invert => false
  | .fill => false
  | .clear => false
  | .flush => false

/-- FB is written by PUT_PIXEL, DRAW_BITMAP, DRAW_CHAR, DRAW_STRING, INIT, FILL and CLEAR (20_memory R50). -/
def writesFb : Instr → Bool
  | .config _ _ _ _ _ => false
  | .putPixel _ _ _ => true
  | .drawBitmap _ _ _ _ _ _ => true
  | .drawChar _ _ _ _ _ => true
  | .drawString _ _ _ _ _ => true
  | .writeCommand _ => false
  | .init => true
  | .displayOn => false
  | .displayOff => false
  | .invert => false
  | .fill => true
  | .clear => true
  | .flush => false

/-- TX is written by WRITE_COMMAND, INIT, DISPLAY_ON, DISPLAY_OFF, INVERT and FLUSH (20_memory R50). -/
def transmits : Instr → Bool
  | .config _ _ _ _ _ => false
  | .putPixel _ _ _ => false
  | .drawBitmap _ _ _ _ _ _ => false
  | .drawChar _ _ _ _ _ => false
  | .drawString _ _ _ _ _ => false
  | .writeCommand _ => true
  | .init => true
  | .displayOn => true
  | .displayOff => true
  | .invert => true
  | .fill => false
  | .clear => false
  | .flush => true

/-- The session transitions of 44_device_session R150: PHASE, PWR and INV after an operation that completes. -/
def sessionAfter (i : Instr) (r : Regs) : Bit × Bit × Bit :=
  match i with
  | .config _ _ _ _ _ => (0, 0, r.inv)
  | .putPixel _ _ _ => (r.phase, r.pwr, r.inv)
  | .drawBitmap _ _ _ _ _ _ => (r.phase, r.pwr, r.inv)
  | .drawChar _ _ _ _ _ => (r.phase, r.pwr, r.inv)
  | .drawString _ _ _ _ _ => (r.phase, r.pwr, r.inv)
  | .writeCommand _ => (r.phase, r.pwr, r.inv)
  | .init => (1, 1, 0)
  | .displayOn => (r.phase, 1, r.inv)
  | .displayOff => (r.phase, 0, r.inv)
  | .invert => (r.phase, r.pwr, 1 - r.inv)
  | .fill => (r.phase, r.pwr, r.inv)
  | .clear => (r.phase, r.pwr, r.inv)
  | .flush => (r.phase, r.pwr, r.inv)

/-! ### What statements about drawing and sending say -/

/-- The source bit of column `i`, row `j` of a bitmap is 1 (41_bitmap_blitter R120). -/
def SourceBit (s : State) (src w i j : Nat) : Prop :=
  ∃ sb, s.asset (bitmapAddr src w i j) = some sb ∧ bitmapBit sb i = true

/-- Byte `g` is the glyph byte of column `i` of character `ch` (42_glyph_rasterizer R130). -/
abbrev GlyphByte (s : State) (font : Font) (ch : Byte) (i : Nat) (g : Byte) : Prop :=
  s.asset (glyphAddr font.fbase.toNat font.fw.toNat ch.toNat i) = some g

/-- Every glyph byte of a character can be read. -/
def GlyphReadable (s : State) (font : Font) (ch : Byte) : Prop :=
  ∀ i, i < font.fw.toNat → ∃ g, GlyphByte s font ch i g

/-- One-byte command transactions to device `d`, in order (30_encoding R96, R97). -/
def cmdTxs (d : DevAddr) (bs : List Byte) : List Transaction := bs.map fun b => ⟨d, .cmd, [b]⟩

/-- It is the host's turn, in which it does `e`; the turns after it are `ts`. -/
abbrev State.HostFaces (s : State) (e : HostEvent) (ts : List Turn) : Prop := s.env.turns = .host e :: ts

/-- The index of the word a host that finds the machine ready presents: past the word whose operation has completed
(10_state R21). -/
def State.nextIndex (s : State) : Nat := if s.env.issued then s.env.hostPc + 1 else s.env.hostPc

/-- A turn that can end a wait for a report: the transport's, or a hardware reset (70_reset R229). -/
def Turn.endsWait : Turn → Bool
  | .host (.hardwareReset _ _) => true
  | .host _ => false
  | .mfc => false
  | .transport _ => true

/-! ### Safe states -/

/-- A successful, resting state: no fault and not busy ("a model treats FAULT = 0 as a premise of every claim about a
result", 60_exceptions R187). -/
abbrev State.Resting (s : State) : Prop := s.regs.fault = 0 ∧ s.regs.status = 0

/-- A transaction of one of the two shapes the MFC emits: CMD with exactly 1 byte, or DATA with at least 1 and at most
`FB_CAP` bytes (30_encoding R96, 10_state R33). -/
abbrev Transaction.Shaped (t : Transaction) : Prop :=
  match t.tag with
  | .cmd => t.bytes.length = 1
  | .data => 1 ≤ t.bytes.length ∧ t.bytes.length ≤ Config.fbCap

/-- The transport will report at least `n` more transactions at once, so that an operation of `n` transactions ends in the
MFC's own step. (That it reports at all is the fairness premise of 70_reset R229, D25.) -/
abbrev Transport.Reports (t : Transport) (n : Nat) : Prop :=
  match t with
  | .prompt => True
  | .holdsAfter m => n ≤ m

/-- The transport after it has reported `n` transactions at once. -/
def Transport.after : Transport → Nat → Transport
  | .prompt, _ => .prompt
  | .holdsAfter m, n => .holdsAfter (m - n)

/-- FAULT holds 0 or one of the five codes (60_exceptions R181), FAULTINFO is 0 while FAULT is, and a halted machine is
not busy (R186, R187). -/
abbrev Regs.FaultLegal (r : Regs) : Prop :=
  r.fault.toNat ≤ 5 ∧ (r.fault = 0 → r.faultinfo = 0) ∧ (r.fault ≠ 0 → r.status = 0)

/-- The sequencer holds an operation that waits for a report. -/
def Sequencer.waits : Sequencer → Bool
  | .idle => false
  | .captured _ => false
  | .waiting _ => true

/-- BUSY is 1 exactly while the sequencer holds an operation (10_state R34), and the transport owes a report only to an
operation that waits for it (20_memory R57). -/
abbrev State.BusyLegal (s : State) : Prop :=
  (s.regs.status = 1 ↔ s.seq ≠ .idle) ∧ (s.env.owed = true → s.seq.waits = true)

/-- The operation that runs is the one of the word at the host's index, and the index is in the program, or past its last
word when all are done (10_state R21). -/
abbrev State.IndexLegal (s : State) : Prop :=
  (s.regs.status = 1 → s.env.issued = true) ∧ (s.env.issued = true → s.env.hostPc < s.env.program.length) ∧
    s.env.hostPc ≤ s.env.program.length

/-- The invariant of every step: both memories canonical (so every framebuffer byte listed exists, 20_memory R52), FAULT
legal, every logged transaction shaped, BUSY exactly while an operation runs, the host's index at its word. -/
structure State.Inv (s : State) : Prop where
  fbCanonical     : Memory.wf s.fb
  assetsCanonical : Assets.wf s.env.assets
  faultLegal      : s.regs.FaultLegal
  txShaped        : ∀ t ∈ s.txlog, t.Shaped
  busyLegal       : s.BusyLegal
  indexLegal      : s.IndexLegal

end Sys2Proof.Machine
end

