-- ==== Sys2Proof/Certificates/Slice0/Obligations.lean ====
section
/-! DEFINITION. The statements for the provers. Each docstring names the rules it formalises, and says where a clause is
the model's own choice. Where an operation ends, BUSY is 0 and with it the sequencer is idle, and where it waits BUSY is 1
and the sequencer says for what: the sequencer as a field is the model's (assumption 5). -/

open Sys2Proof Sys2Proof.Machine

/-! ### Encoding (30_encoding) -/

/-- R81, R82: decoding the word of an instruction gives it back, every operand at every value. -/
def Obligations.DecodeOfEncodeIsTheInstruction : Prop :=
  ∀ i : Instr, decode (encode i) = .ok i

/-- R81, R82: a legal word is the word of the instruction it decodes to, so no bit of it is dropped. -/
def Obligations.EncodeOfDecodeIsTheWord : Prop :=
  ∀ (w : OpWord) (i : Instr), decode w = .ok i → encode i = w

/-- R82, R85: the decoder accepts exactly the words that select a row by the table's mask and match. -/
def Obligations.LegalWordsAreThoseTheTableSelects : Prop :=
  ∀ w : OpWord, (∃ i, decode w = .ok i) ↔ wellFormedWord w = true

/-- R82, R84: no word selects two rows of the table. -/
def Obligations.NoWordSelectsTwoRows : Prop :=
  ∀ (w : OpWord) (r r' : OpRow), r ∈ opTable → r' ∈ opTable → r.selects w = true → r'.selects w = true → r = r'

/-- The worked examples of R115, R121, R135, R141, R151, R153, R156 and vector V91: the words written there decode to the
operations written there. -/
def Obligations.WorkedExampleWordsDecode : Prop :=
  decode 0x0000000000013c00000200002000800000000001#160 = .ok (.config 128 32 512 0x3C 1) ∧
  decode 0x0000000000000000000000000000000009000302#160 = .ok (.putPixel 3 9 0) ∧
  decode 0x00000000000000000020000003000a0003000203#160 = .ok (.drawBitmap 2 3 0x2000 10 3 0) ∧
  decode 0x0000000000000000001000414005030009000004#160 = .ok (.drawChar ⟨3, 5, 64, 0x1000⟩ 0x41 0 9 0) ∧
  decode 0x0000000000300000001000004005030009000005#160 = .ok (.drawString ⟨3, 5, 64, 0x1000⟩ 0x3000 0 9 0) ∧
  decode 0x0000000000000000000000810000000000000006#160 = .ok (.writeCommand 0x81) ∧
  decode 0x0000000000000000000000000000000000000007#160 = .ok .init ∧
  decode 0x000000000000000000000000000000000000000a#160 = .ok .invert

/-- R87: the written form of an instruction assembles to it, and DISPLAY is FLUSH. The token form is the model's
(assumption 18). -/
def Obligations.AssemblingTheWrittenFormGivesTheInstruction : Prop :=
  (∀ i : Instr, assemble (disassemble i).1 (disassemble i).2 = some i) ∧
  ∀ ops, assemble .display ops = assemble .flush ops

/-! ### Reset and the invariant (10_state R41, 70_reset R210) -/

/-- R41: whatever the machine was doing, after hardware reset every register is 0, TXLOG is empty, no operation runs, and
the framebuffer holds the drawn bytes, and every content of the 8192 bytes is some draw. That a report still owed is no
longer awaited, the event that carries the draw, and the host's turn are the model's (assumptions 6, 11 and 21). -/
def Obligations.HardwareResetClearsRegistersAndLog : Prop :=
  (∀ (s : State) (draw : List Byte) (tr : Transport) (ts : List Turn), s.HostFaces (.hardwareReset draw tr) ts →
    ∃ t, step s = .next t ∧
      (∀ n : BitVec 4, t.regs.read n = 0) ∧ t.regs = Regs.reset ∧ t.txlog = [] ∧ t.seq = .idle ∧ t.env.owed = false ∧
      ¬ t.regs.Valid ∧ t.regs.phase = 0 ∧ t.regs.pwr = 0 ∧
      ∀ k, k < Config.fbCap → t.readFb k = draw.getD k 0) ∧
  ∀ f : Nat → Byte, ∃ draw : List Byte, ∀ k, k < Config.fbCap → draw.getD k 0 = f k

/-- The invariant of Safety.lean holds right after reset. -/
def Obligations.ResetSatisfiesTheInvariant : Prop := State.reset.Inv

/-- Every step keeps the invariant: both memories canonical and inside their address ranges (20_memory R52, R55), FAULT a
legal code (60_exceptions R181), transactions of the two shapes of R96, BUSY 1 exactly while an operation runs (10_state
R34), which is the one of the word at the host's index, and the index inside the program (R21). The canonical form, the
sequencer's fields and the host's mark of a captured word are the model's (assumptions 1, 3, 5 and 6). -/
def Obligations.EveryStepKeepsTheInvariant : Prop :=
  ∀ s t : State, s.Inv → step s = .next t → t.Inv

/-- Two canonical framebuffers that read the same at every address that exists are the same data. The canonical form is
the model's (assumption 1). -/
def Obligations.CanonicalFramebuffersWithEqualReadsAreEqual : Prop :=
  ∀ m n : List Host.Cell, Memory.wf m → Memory.wf n → (∀ a, a < Config.fbCap → Memory.read m a = Memory.read n a) → m = n

/-! ### Pixels (20_memory R51, 40_pixel_compositor) -/

/-- R51, R110: pixel `(x, y)` is bit `y & 7` of byte `x + (y/8)*WIDTH`; for a valid handle this map from in-range pixels
to (byte, bit) is a bijection onto the bits of bytes `0 .. BUFSIZE-1`, all of which exist. -/
def Obligations.PixelMapIsABijectionOntoTheBuffer : Prop :=
  (∀ (s : State) (x y : Nat), s.pixel x y = (s.readFb (x + (y / 8) * s.regs.width.toNat)).getLsbD (y % 8)) ∧
  ∀ r : Regs, r.Valid → r.bufsize.toNat ≤ 8192 ∧
    (∀ x y, byteIndex r.width.toNat x y = x + (y / 8) * r.width.toNat ∧ bitIndex y = y % 8) ∧
    (∀ x y, r.InRange x y → byteIndex r.width.toNat x y < r.bufsize.toNat ∧ bitIndex y < 8) ∧
    (∀ x y x' y', r.InRange x y → r.InRange x' y' → byteIndex r.width.toNat x y = byteIndex r.width.toNat x' y' →
      bitIndex y = bitIndex y' → x = x' ∧ y = y') ∧
    ∀ a b, a < r.bufsize.toNat → b < 8 →
      ∃ x y, r.InRange x y ∧ byteIndex r.width.toNat x y = a ∧ bitIndex y = b

/-- R33: a valid handle's buffer is a whole number of pages, not empty, and fits the memory that exists. -/
def Obligations.ValidBufferIsWholePagesAndFits : Prop :=
  ∀ r : Regs, r.Valid →
    r.bufsize.toNat = r.width.toNat * (r.height.toNat / 8) ∧ 1 ≤ r.bufsize.toNat ∧ r.bufsize.toNat ≤ Config.fbCap

/-- R111: GetBit is bit `b` of the byte; SetBit writes `v | (1 << b)` and ClearBit `v & (~(1 << b) & 0xFF)`: they set and
clear the named bit, leave the other seven bits of the byte, and leave every other byte. -/
def Obligations.BitAccessorChangesOneBit : Prop :=
  ∀ (s : State) (a b : Nat), b < 8 →
    let set := s.writeFb a (setBitOf (s.readFb a) b)
    let clr := s.writeFb a (clearBitOf (s.readFb a) b)
    (s.getBit a b = true ↔ ((s.readFb a).toNat >>> b) % 2 = 1) ∧
    (set.readFb a).toNat = (s.readFb a).toNat ||| 2 ^ b ∧
    (clr.readFb a).toNat = (s.readFb a).toNat &&& (255 - 2 ^ b) ∧
    set.getBit a b = true ∧ clr.getBit a b = false ∧
    (∀ k, k < 8 → k ≠ b → set.getBit a k = s.getBit a k ∧ clr.getBit a k = s.getBit a k) ∧
    ∀ a', a' ≠ a → set.readFb a' = s.readFb a' ∧ clr.readFb a' = s.readFb a'

/-- R113, R114, R115: PUT_PIXEL completes; an in-range pixel reads bit `1 - c`; no other pixel, no byte but the one that
holds the pixel, no register, no transaction changes. -/
def Obligations.PutPixelSetsOneBit : Prop :=
  ∀ (x y : Half) (c : Bit) (s : State), s.regs.Valid →
    ∃ t, exec (.putPixel x y c) s = .next t ∧
      t.regs = { s.regs with status := 0 } ∧ t.txlog = s.txlog ∧ t.seq = .idle ∧ t.env = s.env ∧
      (s.regs.InRange x.toNat y.toNat → t.pixel x.toNat y.toNat = (1 - c == 1)) ∧
      (∀ qx qy, s.regs.InRange qx qy → ¬ (qx = x.toNat ∧ qy = y.toNat) → t.pixel qx qy = s.pixel qx qy) ∧
      ∀ a, (s.regs.InRange x.toNat y.toNat → a ≠ byteIndex s.regs.width.toNat x.toNat y.toNat) →
        t.readFb a = s.readFb a

/-- R112: a coordinate at or past WIDTH or HEIGHT is out of range, compared as an exact number; the pixel primitive then
does nothing, and PUT_PIXEL completes with nothing changed. -/
def Obligations.OutOfRangePixelIsANoOp : Prop :=
  (∀ (r : Regs) (px py : Nat), (r.InRange px py ↔ px < r.width.toNat ∧ py < r.height.toNat) ∧
    (¬ r.InRange px py ↔ r.width.toNat ≤ px ∨ r.height.toNat ≤ py)) ∧
  (∀ (px py : Nat) (c : Bit) (s : State), s.regs.width.toNat ≤ px ∨ s.regs.height.toNat ≤ py → putPixel px py c s = s) ∧
  ∀ (x y : Half) (c : Bit) (s : State), s.regs.Valid →
    s.regs.width.toNat ≤ x.toNat ∨ s.regs.height.toNat ≤ y.toNat →
    exec (.putPixel x y c) s = .next { s with regs := { s.regs with status := 0 }, seq := .idle }

/-- R113, the consequences: the pixel primitive is idempotent, two calls on different pixels commute, and of two calls on
the same pixel the later colour stays. -/
def Obligations.PutPixelIsIdempotentAndCommutes : Prop :=
  ∀ (px py qx qy : Nat) (c d : Bit) (s : State), s.regs.Valid → Memory.wf s.fb →
    putPixel px py c (putPixel px py c s) = putPixel px py c s ∧
    (¬ (px = qx ∧ py = qy) → putPixel qx qy d (putPixel px py c s) = putPixel px py c (putPixel qx qy d s)) ∧
    putPixel px py d (putPixel px py c s) = putPixel px py d s

/-! ### Bitmaps (41_bitmap_blitter) -/

/-- R120: the bit the model takes from a source byte is the top bit of the shift register after `i % 8` left shifts, and
the byte is the one of `src + j*ceil(w/8) + i/8`. -/
def Obligations.BlitterBitIsTheShiftRegistersTopBit : Prop :=
  ∀ (sb : Byte) (src w i j : Nat),
    bitmapBit sb i = ((fun v : Byte => v <<< 1)^[i % 8] sb).getLsbD 7 ∧
    bitmapAddr src w i j = src + j * ((w + 7) / 8) + i / 8

/-- R121: DRAW_BITMAP whose source bytes can be read completes; every in-range destination of a 1 bit reads bit `1 - c`,
every other pixel and every byte that holds no such destination read as before; no register, no transaction. -/
def Obligations.DrawBitmapPaintsTheSetBits : Prop :=
  ∀ (x y : Half) (src : AsAddr) (w h : Half) (c : Bit) (s : State), s.regs.Valid →
    (∀ j, j < h.toNat → ∀ i, i < w.toNat → (s.asset (bitmapAddr src.toNat w.toNat i j)).isSome) →
    ∃ t, exec (.drawBitmap x y src w h c) s = .next t ∧
      t.regs = { s.regs with status := 0 } ∧ t.txlog = s.txlog ∧ t.seq = .idle ∧ t.env = s.env ∧
      (∀ i j, i < w.toNat → j < h.toNat → SourceBit s src.toNat w.toNat i j →
        s.regs.InRange (x.toNat + i) (y.toNat + j) → t.pixel (x.toNat + i) (y.toNat + j) = (1 - c == 1)) ∧
      (∀ qx qy, s.regs.InRange qx qy →
        (∀ i j, i < w.toNat → j < h.toNat → SourceBit s src.toNat w.toNat i j →
          ¬ (qx = x.toNat + i ∧ qy = y.toNat + j)) → t.pixel qx qy = s.pixel qx qy) ∧
      ∀ a, (∀ i j, i < w.toNat → j < h.toNat → SourceBit s src.toNat w.toNat i j →
          s.regs.InRange (x.toNat + i) (y.toNat + j) →
          a ≠ byteIndex s.regs.width.toNat (x.toNat + i) (y.toNat + j)) → t.readFb a = s.readFb a

/-- R121, 60_exceptions R185, R186: DRAW_BITMAP raises ASSET_RANGE at the first source byte (row-major) that cannot be
read, with the address's low 32 bits; the pixels before it stay painted and nothing else changes. -/
def Obligations.DrawBitmapFaultsAtTheFirstUnreadableByte : Prop :=
  ∀ (x y : Half) (src : AsAddr) (w h : Half) (c : Bit) (s : State) (i0 j0 : Nat), s.regs.Valid →
    j0 < h.toNat → i0 < w.toNat →
    (∀ j, j < j0 → ∀ i, i < w.toNat → (s.asset (bitmapAddr src.toNat w.toNat i j)).isSome) →
    (∀ i, i < i0 → (s.asset (bitmapAddr src.toNat w.toNat i j0)).isSome) →
    s.asset (bitmapAddr src.toNat w.toNat i0 j0) = none →
    ∃ t, exec (.drawBitmap x y src w h c) s = .next t ∧
      t.regs = { s.regs with fault := 4, status := 0,
                             faultinfo := BitVec.ofNat 32 (bitmapAddr src.toNat w.toNat i0 j0) } ∧
      t.txlog = s.txlog ∧ t.seq = .idle ∧ t.env = s.env ∧
      (∀ i j, i < w.toNat → (j < j0 ∨ j = j0 ∧ i < i0) → SourceBit s src.toNat w.toNat i j →
        s.regs.InRange (x.toNat + i) (y.toNat + j) → t.pixel (x.toNat + i) (y.toNat + j) = (1 - c == 1)) ∧
      (∀ qx qy, s.regs.InRange qx qy →
        (∀ i j, i < w.toNat → (j < j0 ∨ j = j0 ∧ i < i0) → SourceBit s src.toNat w.toNat i j →
          ¬ (qx = x.toNat + i ∧ qy = y.toNat + j)) → t.pixel qx qy = s.pixel qx qy) ∧
      ∀ a, (∀ i j, i < w.toNat → (j < j0 ∨ j = j0 ∧ i < i0) → SourceBit s src.toNat w.toNat i j →
          s.regs.InRange (x.toNat + i) (y.toNat + j) →
          a ≠ byteIndex s.regs.width.toNat (x.toNat + i) (y.toNat + j)) → t.readFb a = s.readFb a

/-! ### Glyphs (42_glyph_rasterizer) -/

/-- R131: GlyphBit is the test `(byte << j) & 0x80`, whether the shift is done in 8 bits or in a wider word, and is bit
`7 - j`, 0 for `j` of 8 or more. -/
def Obligations.GlyphBitIsTheShiftTest : Prop :=
  ∀ (g : Byte) (j : Nat),
    glyphBit g j = (g <<< j).getLsbD 7 ∧ glyphBit g j = (g.toNat <<< j).testBit 7 ∧
    (j ≤ 7 → glyphBit g j = g.getLsbD (7 - j)) ∧ (8 ≤ j → glyphBit g j = false)

/-- R132, R134, R135, R136: DRAW_CHAR of a character in the font, whose advance fits the cursor and whose glyph bytes can
be read, completes; the cursor ends at `(x + fw, y)`; an in-range cell pixel reads bit `1 - c` where the grid is 1 and
`c` where it is 0; every other pixel and every byte that holds no cell pixel read as before. -/
def Obligations.DrawCharPaintsTheWholeCell : Prop :=
  ∀ (font : Font) (ch : Byte) (x y : Half) (c : Bit) (s : State), s.regs.Valid →
    32 ≤ ch.toNat → ch.toNat < 32 + font.fn.toNat → x.toNat + font.fw.toNat ≤ 65535 → GlyphReadable s font ch →
    ∃ t, exec (.drawChar font ch x y c) s = .next t ∧
      t.regs = { s.regs with curx := t.regs.curx, cury := y, status := 0 } ∧
      t.regs.curx.toNat = x.toNat + font.fw.toNat ∧ t.txlog = s.txlog ∧ t.seq = .idle ∧ t.env = s.env ∧
      (∀ i j g, i < font.fw.toNat → j < font.fh.toNat → GlyphByte s font ch i g →
        s.regs.InRange (x.toNat + i) (y.toNat + font.fh.toNat - j) →
        t.pixel (x.toNat + i) (y.toNat + font.fh.toNat - j) = (if glyphBit g j then 1 - c == 1 else c == 1)) ∧
      (∀ qx qy, s.regs.InRange qx qy →
        ¬ (x.toNat ≤ qx ∧ qx < x.toNat + font.fw.toNat ∧ y.toNat + 1 ≤ qy ∧ qy ≤ y.toNat + font.fh.toNat) →
        t.pixel qx qy = s.pixel qx qy) ∧
      ∀ a, (∀ i j, i < font.fw.toNat → j < font.fh.toNat →
          s.regs.InRange (x.toNat + i) (y.toNat + font.fh.toNat - j) →
          a ≠ byteIndex s.regs.width.toNat (x.toNat + i) (y.toNat + font.fh.toNat - j)) → t.readFb a = s.readFb a

/-- R133: two checks run before a character changes any state, in this order: GLYPH_RANGE with the character, then
CURSOR_OVERFLOW with the sum; so for the glyph routine (which DRAW_CHAR and DRAW_STRING share) and for DRAW_CHAR. With
`fn` = 0 every character is rejected; a sum of 65535 passes; the sum fits 32 bits. -/
def Obligations.DrawCharChecksRunFirstInOrder : Prop :=
  (∀ (font : Font) (ch : Byte) (x y : Half) (c : Bit) (s : State),
    (ch.toNat < 32 ∨ 32 + font.fn.toNat ≤ ch.toNat →
      drawChar font ch x y c s = .raised .glyphRange (ch.setWidth 32) s ∧
      (s.regs.Valid → exec (.drawChar font ch x y c) s =
        .next { s with regs := { s.regs with fault := 2, faultinfo := ch.setWidth 32, status := 0 }, seq := .idle })) ∧
    (32 ≤ ch.toNat → ch.toNat < 32 + font.fn.toNat → 65535 < x.toNat + font.fw.toNat →
      drawChar font ch x y c s = .raised .cursorOverflow (BitVec.ofNat 32 (x.toNat + font.fw.toNat)) s ∧
      (s.regs.Valid → exec (.drawChar font ch x y c) s =
        .next { s with regs := { s.regs with fault := 3, status := 0,
                                             faultinfo := BitVec.ofNat 32 (x.toNat + font.fw.toNat) },
                       seq := .idle })) ∧
    (32 ≤ ch.toNat → ch.toNat < 32 + font.fn.toNat → x.toNat + font.fw.toNat ≤ 65535 →
      ∀ f info t, drawChar font ch x y c s = .raised f info t → f = .assetRange)) ∧
  (∀ (font : Font) (ch : Byte), font.fn = 0 → ch.toNat < 32 ∨ 32 + font.fn.toNat ≤ ch.toNat) ∧
  ∀ (font : Font) (x : Half), (BitVec.ofNat 32 (x.toNat + font.fw.toNat)).toNat = x.toNat + font.fw.toNat

/-- R135, 60_exceptions R185, R186: DRAW_CHAR raises ASSET_RANGE at its first glyph byte that cannot be read: the cursor
is at `(x, y)`, the columns before are drawn, nothing else has changed. -/
def Obligations.DrawCharFaultsAtTheFirstUnreadableColumn : Prop :=
  ∀ (font : Font) (ch : Byte) (x y : Half) (c : Bit) (s : State) (i0 : Nat), s.regs.Valid →
    32 ≤ ch.toNat → ch.toNat < 32 + font.fn.toNat → x.toNat + font.fw.toNat ≤ 65535 → i0 < font.fw.toNat →
    (∀ i, i < i0 → ∃ g, GlyphByte s font ch i g) →
    s.asset (glyphAddr font.fbase.toNat font.fw.toNat ch.toNat i0) = none →
    ∃ t, exec (.drawChar font ch x y c) s = .next t ∧
      t.regs = { s.regs with
        curx := x, cury := y, fault := 4, status := 0,
        faultinfo := BitVec.ofNat 32 (glyphAddr font.fbase.toNat font.fw.toNat ch.toNat i0) } ∧
      t.txlog = s.txlog ∧ t.seq = .idle ∧ t.env = s.env ∧
      (∀ i j g, i < i0 → j < font.fh.toNat → GlyphByte s font ch i g →
        s.regs.InRange (x.toNat + i) (y.toNat + font.fh.toNat - j) →
        t.pixel (x.toNat + i) (y.toNat + font.fh.toNat - j) = (if glyphBit g j then 1 - c == 1 else c == 1)) ∧
      (∀ qx qy, s.regs.InRange qx qy →
        ¬ (x.toNat ≤ qx ∧ qx < x.toNat + i0 ∧ y.toNat + 1 ≤ qy ∧ qy ≤ y.toNat + font.fh.toNat) →
        t.pixel qx qy = s.pixel qx qy) ∧
      ∀ a, (∀ i j, i < i0 → j < font.fh.toNat → s.regs.InRange (x.toNat + i) (y.toNat + font.fh.toNat - j) →
          a ≠ byteIndex s.regs.width.toNat (x.toNat + i) (y.toNat + font.fh.toNat - j)) → t.readFb a = s.readFb a

/-! ### Strings (43_string_layout) -/

/-- R140, R141: DRAW_STRING of a terminated string of `n` characters in the font, whose glyph bytes can be read and whose
advance fits the cursor, completes: the cursor ends at `(x + n*fw, y)`, character `k` is drawn at `(x + k*fw, y)`, pixels
outside the cells and bytes that hold no cell pixel read as before. -/
def Obligations.DrawStringPaintsItsCharactersSideBySide : Prop :=
  ∀ (font : Font) (text : AsAddr) (x y : Half) (c : Bit) (s : State) (chars : List Byte), s.regs.Valid →
    (∀ k ch, chars[k]? = some ch → s.asset (text.toNat + k) = some ch) →
    s.asset (text.toNat + chars.length) = some 0 →
    (∀ ch, ch ∈ chars → 32 ≤ ch.toNat ∧ ch.toNat < 32 + font.fn.toNat ∧ GlyphReadable s font ch) →
    x.toNat + chars.length * font.fw.toNat ≤ 65535 →
    ∃ t, exec (.drawString font text x y c) s = .next t ∧
      t.regs = { s.regs with curx := t.regs.curx, cury := y, status := 0 } ∧
      t.regs.curx.toNat = x.toNat + chars.length * font.fw.toNat ∧ t.txlog = s.txlog ∧ t.seq = .idle ∧ t.env = s.env ∧
      (∀ k ch i j g, chars[k]? = some ch → i < font.fw.toNat → j < font.fh.toNat → GlyphByte s font ch i g →
        s.regs.InRange (x.toNat + k * font.fw.toNat + i) (y.toNat + font.fh.toNat - j) →
        t.pixel (x.toNat + k * font.fw.toNat + i) (y.toNat + font.fh.toNat - j) =
          (if glyphBit g j then 1 - c == 1 else c == 1)) ∧
      (∀ qx qy, s.regs.InRange qx qy →
        ¬ (x.toNat ≤ qx ∧ qx < x.toNat + chars.length * font.fw.toNat ∧
            y.toNat + 1 ≤ qy ∧ qy ≤ y.toNat + font.fh.toNat) → t.pixel qx qy = s.pixel qx qy) ∧
      ∀ a, (∀ d j, d < chars.length * font.fw.toNat → j < font.fh.toNat →
          s.regs.InRange (x.toNat + d) (y.toNat + font.fh.toNat - j) →
          a ≠ byteIndex s.regs.width.toNat (x.toNat + d) (y.toNat + font.fh.toNat - j)) → t.readFb a = s.readFb a

/-- R141 and its testable property: a string whose first character can be drawn is that DRAW_CHAR followed by the
DRAW_STRING of the rest at the advanced cursor, whatever the rest does (it may fault). -/
def Obligations.DrawStringIsDrawCharThenTheRest : Prop :=
  ∀ (font : Font) (text : AsAddr) (x y : Half) (c : Bit) (s : State) (ch : Byte), s.regs.Valid →
    text.toNat + 1 < 4294967296 → s.asset text.toNat = some ch → ch ≠ 0 →
    32 ≤ ch.toNat → ch.toNat < 32 + font.fn.toNat → x.toNat + font.fw.toNat ≤ 65535 → GlyphReadable s font ch →
    ∃ t, exec (.drawChar font ch x y c) s = .next t ∧
      exec (.drawString font text x y c) s = exec (.drawString font (text + 1) t.regs.curx y c) t

/-- R141, R143: how a string ends at its first byte. A terminator: only the cursor is written. An unreadable byte:
ASSET_RANGE with its address, the cursor written. A byte outside the font, or one whose advance does not fit: the fault of
the checks, the cursor written. A byte whose glyph cannot be read: what DRAW_CHAR of it does. -/
def Obligations.DrawStringEndsAtItsFirstByte : Prop :=
  ∀ (font : Font) (text : AsAddr) (x y : Half) (c : Bit) (s : State), s.regs.Valid →
    (s.asset text.toNat = some 0 →
      exec (.drawString font text x y c) s =
        .next { s with regs := { s.regs with curx := x, cury := y, status := 0 }, seq := .idle }) ∧
    (s.asset text.toNat = none →
      exec (.drawString font text x y c) s =
        .next { s with regs := { s.regs with curx := x, cury := y, fault := 4, faultinfo := text, status := 0 },
                       seq := .idle }) ∧
    (∀ ch, s.asset text.toNat = some ch → ch ≠ 0 → ch.toNat < 32 ∨ 32 + font.fn.toNat ≤ ch.toNat →
      exec (.drawString font text x y c) s =
        .next { s with regs := { s.regs with curx := x, cury := y, fault := 2, faultinfo := ch.setWidth 32, status := 0 },
                       seq := .idle }) ∧
    (∀ ch, s.asset text.toNat = some ch → ch ≠ 0 → 32 ≤ ch.toNat → ch.toNat < 32 + font.fn.toNat →
      65535 < x.toNat + font.fw.toNat →
      exec (.drawString font text x y c) s =
        .next { s with regs := { s.regs with curx := x, cury := y, fault := 3, status := 0,
                                             faultinfo := BitVec.ofNat 32 (x.toNat + font.fw.toNat) },
                       seq := .idle }) ∧
    (∀ ch, s.asset text.toNat = some ch → ch ≠ 0 → 32 ≤ ch.toNat → ch.toNat < 32 + font.fn.toNat →
      x.toNat + font.fw.toNat ≤ 65535 → ¬ GlyphReadable s font ch →
      exec (.drawString font text x y c) s = exec (.drawChar font ch x y c) s)

/-- R141, 20_memory R55: the string pointer never wraps. A drawable character at the last asset address is drawn, and the
read at `2^32` then raises ASSET_RANGE with the address's bits 31:0, which are 0. -/
def Obligations.StringPointerFaultsPastTheLastAddress : Prop :=
  ∀ (font : Font) (x y : Half) (c : Bit) (s : State) (ch : Byte), s.regs.Valid →
    s.asset 4294967295 = some ch → ch ≠ 0 → 32 ≤ ch.toNat → ch.toNat < 32 + font.fn.toNat →
    x.toNat + font.fw.toNat ≤ 65535 → GlyphReadable s font ch →
    ∃ t, exec (.drawChar font ch x y c) s = .next t ∧
      exec (.drawString font 0xFFFFFFFF#32 x y c) s =
        .next { t with regs := { t.regs with fault := 4, faultinfo := 0 } }

/-! ### Device Session (44_device_session) -/

/-- R151: CONFIG always completes; it latches the five operands unchecked, clears PHASE and PWR, and touches no other
register, no framebuffer byte, no transaction. -/
def Obligations.ConfigLatchesTheHandle : Prop :=
  ∀ (width height : Half) (bufsize : Size) (devaddr : DevAddr) (bok : Bit) (s : State),
    exec (.config width height bufsize devaddr bok) s =
      .next { s with regs := { s.regs with width := width, height := height, bufsize := bufsize, devaddr := devaddr,
                                           bufok := bok, session := 0, status := 0 },
                     seq := .idle }

/-- R152, R153: WRITE_COMMAND completes when the transport reports its transaction: one CMD transaction of the byte as it
is, whatever the byte; no register, no framebuffer byte changes. How late the transport reports, and its count of reports
to make at once, are the model's (assumption 4). -/
def Obligations.WriteCommandSendsOneByte : Prop :=
  ∀ (cmd : Byte) (s : State), s.regs.Valid → s.env.transport.Reports 1 →
    exec (.writeCommand cmd) s =
      .next { s with regs := { s.regs with status := 0 }, txlog := s.txlog ++ [⟨s.regs.devaddr, .cmd, [cmd]⟩],
                     seq := .idle, env := { s.env with transport := s.env.transport.after 1 } }

/-- R156: INIT completes when the transport reports its 32 transactions: bytes below BUFSIZE become 0x00 and no other
byte changes, INV and the cursor are 0, the commands of InitSeq are sent in order, PHASE and PWR are 1. That the transport
has a count of reports to make at once, which goes down by 32, is the model's (assumption 4). -/
def Obligations.InitClearsTheBufferAndSendsTheSequence : Prop :=
  ∀ s : State, s.regs.Valid → s.env.transport.Reports 32 →
    ∃ t, exec .init s = .next t ∧
      t.regs = { s.regs with inv := 0, curx := 0, cury := 0, session := 3, status := 0 } ∧
      t.regs.phase = 1 ∧ t.regs.pwr = 1 ∧
      t.txlog = s.txlog ++ cmdTxs s.regs.devaddr (initSeq s.env.display s.regs.width.toNat s.regs.height.toNat) ∧
      t.seq = .idle ∧ t.env = { s.env with transport := s.env.transport.after 32 } ∧
      ∀ a, t.readFb a = if a < s.regs.bufsize.toNat then 0 else s.readFb a

/-- R99: for a valid handle the INIT sequence is these 32 bytes, and the three geometry values fit their bytes; this for
every choice of the display constants. The first clause is R99's own example at 128 by 32, with the default constants:
those bytes are PRESUMED (assumption 2; R98 marks them as general knowledge, not in its source). -/
def Obligations.InitSequenceIsTheTable : Prop :=
  initSeq Config.defaultDisplay 128 32 =
    [0xAE, 0x20, 0x00, 0xC8, 0x21, 0x00, 0x7F, 0x22, 0x00, 0x03, 0x81, 0x7F, 0xA1, 0xA8, 0x1F, 0x40] ++
    [0xD3, 0x00, 0xD5, 0x80, 0xD9, 0x22, 0xDB, 0x20, 0xDA, 0x12, 0x8D, 0x14, 0xA4, 0xA6, 0x2E, 0xAF] ∧
  ∀ (d : Config.DisplayCommands) (r : Regs), r.Valid →
    (initSeq d r.width.toNat r.height.toNat).map BitVec.toNat =
      [d.cmdDisplayOff.toNat, d.cmdMemMode.toNat, d.argMemModeHorizontal.toNat, d.cmdComScan.toNat,
        d.cmdColRange.toNat, 0, r.width.toNat - 1, d.cmdPageRange.toNat, 0, r.height.toNat / 8 - 1,
        d.cmdContrast.toNat, d.argContrast.toNat, d.cmdSegRemap.toNat, d.cmdMuxRatio.toNat, r.height.toNat - 1,
        d.cmdStartLine.toNat, d.cmdDisplayOffset.toNat, d.argDisplayOffset.toNat, d.cmdClockDiv.toNat,
        d.argClockDiv.toNat, d.cmdPrecharge.toNat, d.argPrecharge.toNat, d.cmdVcomh.toNat, d.argVcomh.toNat,
        d.cmdComPins.toNat, d.argComPins.toNat, d.cmdChargePump.toNat, d.argChargePumpOn.toNat,
        d.cmdResumeRam.toNat, d.cmdNormal.toNat, d.cmdScrollOff.toNat, d.cmdDisplayOn.toNat] ∧
    r.width.toNat - 1 ≤ 255 ∧ r.height.toNat / 8 - 1 ≤ 31 ∧ 7 ≤ r.height.toNat - 1 ∧ r.height.toNat - 1 ≤ 255

/-- R156, 20_memory R57, 70_reset R229 (the state at a stall): when the transport reports only `n < 32` transactions at
once, INIT answers the state in which it waits in the next one: the buffer and the soft state are reset, the first `n + 1`
transactions are in TXLOG, SESSION and FAULT are unchanged, BUSY is 1, and the other commands and the ending are still to
be done. How the transport and what is still to be done are described is the model's (assumptions 4 and 5). -/
def Obligations.InitWaitsInATransactionHeld : Prop :=
  ∀ (s : State) (n : Nat), s.regs.Valid → s.env.transport = .holdsAfter n → n < 32 →
    let sequence := initSeq s.env.display s.regs.width.toNat s.regs.height.toNat
    ∃ t, exec .init s = .next t ∧
      t.regs = { s.regs with inv := 0, curx := 0, cury := 0, status := 1 } ∧
      t.txlog = s.txlog ++ cmdTxs s.regs.devaddr (sequence.take (n + 1)) ∧
      t.seq = .waiting ⟨sequence.drop (n + 1), .init⟩ ∧
      t.env = { s.env with transport := .holdsAfter 0, owed := true } ∧
      ∀ a, t.readFb a = if a < s.regs.bufsize.toNat then 0 else s.readFb a

/-- R159, R160: DISPLAY_ON and DISPLAY_OFF complete when the transport reports their transaction: the one command byte is
sent whatever PWR was, PWR is written, PHASE and everything else stays, but for the transport's count of reports to make
at once, which is the model's (assumption 4). -/
def Obligations.DisplayOnAndOffSendAndWritePwr : Prop :=
  ∀ s : State, s.regs.Valid → s.env.transport.Reports 1 →
    (∃ t, exec .displayOn s = .next t ∧ t.regs.pwr = 1 ∧ t.regs.phase = s.regs.phase ∧
      t.regs = { s.regs with session := t.regs.session, status := 0 } ∧
      t.txlog = s.txlog ++ [⟨s.regs.devaddr, .cmd, [s.env.display.cmdDisplayOn]⟩] ∧
      t.seq = .idle ∧ t.env = { s.env with transport := s.env.transport.after 1 } ∧ t.fb = s.fb) ∧
    (∃ t, exec .displayOff s = .next t ∧ t.regs.pwr = 0 ∧ t.regs.phase = s.regs.phase ∧
      t.regs = { s.regs with session := t.regs.session, status := 0 } ∧
      t.txlog = s.txlog ++ [⟨s.regs.devaddr, .cmd, [s.env.display.cmdDisplayOff]⟩] ∧
      t.seq = .idle ∧ t.env = { s.env with transport := s.env.transport.after 1 } ∧ t.fb = s.fb)

/-- R161: INVERT completes when the transport reports its transaction: INV is complemented, the command of the new value
is sent, the framebuffer and every other register stay. Nothing else changes but the transport's count of reports to make
at once, which is the model's (assumption 4). -/
def Obligations.InvertSendsTheCommandOfTheNewFlag : Prop :=
  ∀ s : State, s.regs.Valid → s.env.transport.Reports 1 →
    (s.regs.inv = 0 →
      exec .invert s = .next { s with
        regs := { s.regs with inv := 1, status := 0 },
        txlog := s.txlog ++ [⟨s.regs.devaddr, .cmd, [s.env.display.cmdInverse]⟩],
        seq := .idle, env := { s.env with transport := s.env.transport.after 1 } }) ∧
    (s.regs.inv = 1 →
      exec .invert s = .next { s with
        regs := { s.regs with inv := 0, status := 0 },
        txlog := s.txlog ++ [⟨s.regs.devaddr, .cmd, [s.env.display.cmdNormal]⟩],
        seq := .idle, env := { s.env with transport := s.env.transport.after 1 } }) ∧
    (s.regs.inv = 0 ∨ s.regs.inv = 1)

/-- R161, 95_test_vectors S6: two INVERTs return the flag to its value, send exactly two commands, and change no
framebuffer byte. -/
def Obligations.InvertTwiceRestoresTheFlag : Prop :=
  ∀ s : State, s.regs.Valid → s.env.transport.Reports 2 →
    ∃ t u, exec .invert s = .next t ∧ exec .invert t = .next u ∧
      u.regs = { s.regs with status := 0 } ∧ u.fb = s.fb ∧
      u.txlog = s.txlog ++ cmdTxs s.regs.devaddr
        (if s.regs.inv = 0 then [s.env.display.cmdInverse, s.env.display.cmdNormal]
          else [s.env.display.cmdNormal, s.env.display.cmdInverse])

/-- R163, R164: FILL and CLEAR complete; every byte below BUFSIZE reads 0xFF, or 0x00, every other byte as before; no
register, no transaction. -/
def Obligations.FillAndClearSetTheWholeBuffer : Prop :=
  ∀ s : State, s.regs.Valid →
    (∃ t, exec .fill s = .next t ∧ t.regs = { s.regs with status := 0 } ∧
      t.txlog = s.txlog ∧ t.seq = .idle ∧ t.env = s.env ∧
      ∀ a, t.readFb a = if a < s.regs.bufsize.toNat then 0xFF else s.readFb a) ∧
    (∃ t, exec .clear s = .next t ∧ t.regs = { s.regs with status := 0 } ∧
      t.txlog = s.txlog ∧ t.seq = .idle ∧ t.env = s.env ∧
      ∀ a, t.readFb a = if a < s.regs.bufsize.toNat then 0x00 else s.readFb a)

/-- R166, 20_memory R66: FLUSH completes when the transport reports its transaction: one DATA transaction of BUFSIZE
bytes, byte `k` being framebuffer byte `k`, never empty; no register, no framebuffer byte changes. Nothing else changes but
the transport's count of reports to make at once, which is the model's (assumption 4). -/
def Obligations.FlushSendsTheWholeBuffer : Prop :=
  ∀ s : State, s.regs.Valid → s.env.transport.Reports 1 →
    ∃ bs : List Byte, bs.length = s.regs.bufsize.toNat ∧ 1 ≤ bs.length ∧
      (∀ k, k < s.regs.bufsize.toNat → bs[k]? = some (s.readFb k)) ∧
      exec .flush s =
        .next { s with regs := { s.regs with status := 0 }, txlog := s.txlog ++ [⟨s.regs.devaddr, .data, bs⟩],
                       seq := .idle, env := { s.env with transport := s.env.transport.after 1 } }

/-- 20_memory R57, 70_reset R229 (the state at a stall): at a transport that reports nothing at once, an operation of one
transaction answers the state in which it waits in it: the transaction is in TXLOG, what came before it is done (INVERT has
written INV), nothing after it is (PWR is unchanged, and is all that is still to be done), FAULT is unchanged, BUSY is 1.
How the transport and what is still to be done are described is the model's (assumptions 4 and 5). -/
def Obligations.OneTransactionOperationsWaitInATransactionHeld : Prop :=
  ∀ s : State, s.regs.Valid → s.env.transport = .holdsAfter 0 →
    (∀ cmd, exec (.writeCommand cmd) s = .next { s with
      regs := { s.regs with status := 1 }, txlog := s.txlog ++ [⟨s.regs.devaddr, .cmd, [cmd]⟩],
      seq := .waiting ⟨[], .done⟩, env := { s.env with owed := true } }) ∧
    exec .displayOn s = .next { s with
      regs := { s.regs with status := 1 }, txlog := s.txlog ++ [⟨s.regs.devaddr, .cmd, [s.env.display.cmdDisplayOn]⟩],
      seq := .waiting ⟨[], .pwr 1⟩, env := { s.env with owed := true } } ∧
    exec .displayOff s = .next { s with
      regs := { s.regs with status := 1 }, txlog := s.txlog ++ [⟨s.regs.devaddr, .cmd, [s.env.display.cmdDisplayOff]⟩],
      seq := .waiting ⟨[], .pwr 0⟩, env := { s.env with owed := true } } ∧
    exec .invert s = .next { s with
      regs := { s.regs with inv := 1 - s.regs.inv, status := 1 },
      txlog := s.txlog ++ [⟨s.regs.devaddr, .cmd,
        [if s.regs.inv = 0 then s.env.display.cmdInverse else s.env.display.cmdNormal]⟩],
      seq := .waiting ⟨[], .done⟩, env := { s.env with owed := true } } ∧
    ∃ bs : List Byte, bs.length = s.regs.bufsize.toNat ∧
      (∀ k, k < s.regs.bufsize.toNat → bs[k]? = some (s.readFb k)) ∧
      exec .flush s = .next { s with
        regs := { s.regs with status := 1 }, txlog := s.txlog ++ [⟨s.regs.devaddr, .data, bs⟩],
        seq := .waiting ⟨[], .done⟩, env := { s.env with owed := true } }

/-! ### The three agents (00_scope R10) -/

/-- R10: a step of the machine is the step of the agent whose turn it is. The transport's step reaches no register, no
framebuffer byte, no transaction, not the sequencer and nothing of the host. The MFC's step reaches nothing of the host,
and of the transport only its count and whether it owes a report. The host's step, short of hardware reset, changes of the
MFC's registers STATUS at most, no transaction, and the framebuffer only by its own write. R21: the host's index, which
only the host moves, moves by one when the operation of the word at it has completed, and by nothing else. That the turns
are a list in the state, that a turn of the host says what it does, and that the index moves in the host's first turn after
the operation are the model's (assumptions 6 and 21). -/
def Obligations.EachTurnIsAStepOfItsAgent : Prop :=
  (∀ (s : State) (a : Turn) (ts : List Turn), s.env.turns = a :: ts →
    step s = match a with
      | .host e => hostStep e (s.setTurns ts)
      | .mfc => mfcStep (s.setTurns ts)
      | .transport next => transportStep next (s.setTurns ts)) ∧
  (∀ (next : Transport) (s : State), ∃ t, transportStep next s = .next t ∧
    t.regs = s.regs ∧ t.fb = s.fb ∧ t.txlog = s.txlog ∧ t.seq = s.seq ∧
    t.env = { s.env with transport := t.env.transport, owed := false }) ∧
  (∀ s t : State, mfcStep s = .next t →
    t.env = { s.env with transport := t.env.transport, owed := t.env.owed }) ∧
  (∀ (e : HostEvent) (s t : State), (∀ draw tr, e ≠ .hardwareReset draw tr) → hostStep e s = .next t →
    t.regs = { s.regs with status := t.regs.status } ∧ t.txlog = s.txlog ∧
    t.env.transport = s.env.transport ∧ t.env.owed = s.env.owed ∧
    ((∀ a v, e ≠ .writeFb a v) → t.fb = s.fb)) ∧
  ∀ (e : HostEvent) (s t : State), hostStep e s = .next t →
    t.env.program = s.env.program ∧
    t.env.hostPc = if s.env.issued = true ∧ s.regs.status = 0 ∧ s.regs.fault = 0 then s.env.hostPc + 1 else s.env.hostPc

/-- 20_memory R57, 00_scope R10: an operation that waits in `Tx` does nothing until the report is there, and the
transport's turn brings the report and changes nothing of the MFC. The operation then goes on from where it waited: its
other commands are sent in order and its ending is written, nothing else. 70_reset R229: while neither the transport
reports nor the machine is reset, it waits on, busy, however many turns go by. What it still has to do, and when the
transport reports, are data of the model (assumptions 4, 5 and 21). -/
def Obligations.WaitingOperationGoesOnAtItsReport : Prop :=
  ∀ (s : State) (rest : Rest) (ts : List Turn), s.seq = .waiting rest →
    (s.env.owed = true → s.env.turns = .mfc :: ts → step s = .next { s with env := { s.env with turns := ts } }) ∧
    (∀ next, s.env.owed = true → s.env.turns = .transport next :: ts →
      step s = .next { s with env := { s.env with transport := next, owed := false, turns := ts } }) ∧
    (s.env.owed = false → s.regs.fault = 0 → s.env.turns = .mfc :: ts → s.env.transport.Reports rest.bytes.length →
      ∃ t, step s = .next t ∧ t.fb = s.fb ∧ t.txlog = s.txlog ++ cmdTxs s.regs.devaddr rest.bytes ∧ t.seq = .idle ∧
        t.env = { s.env with transport := s.env.transport.after rest.bytes.length, turns := ts } ∧
        t.regs = { s.regs with session := t.regs.session, status := 0 } ∧
        (t.regs.phase, t.regs.pwr) = match rest.ending with
          | .done => (s.regs.phase, s.regs.pwr)
          | .pwr v => (s.regs.phase, v)
          | .init => (1, 1)) ∧
    (s.env.owed = true → s.regs.status = 1 → (∀ a ∈ s.env.turns, a.endsWait = false) →
      ∀ n t, Sys2Proof.core.run n s = .next t →
        t.regs = s.regs ∧ t.fb = s.fb ∧ t.txlog = s.txlog ∧ t.seq = .waiting rest ∧ t.env.owed = true)

/-- 00_scope R10, 20_memory R57: that a report is late changes nothing of the result. An operation whose next transaction
the transport holds, then the transport's report, then the MFC's turn: the state is the one the operation reaches at a
transport that reports everything at once. The turns and the transport's description are the model's (assumptions 4 and
21). -/
def Obligations.LateReportEndsAsAPromptOne : Prop :=
  ∀ (i : Instr) (s : State) (n : Nat), transmits i = true → s.regs.Valid → s.regs.fault = 0 →
    s.env.transport = .holdsAfter n → (n = 0 ∨ i = .init ∧ n < 32) →
    s.env.turns = [.transport .prompt, .mfc] →
    ∃ t u v, exec i s = .next t ∧ t.regs.status = 1 ∧ step t = .next u ∧ u.regs.status = 1 ∧
      step u = .next v ∧ v.regs.status = 0 ∧
      exec i { s with env := { s.env with transport := .prompt, owed := false, turns := [] } } = .next v

/-- 70_reset R229 (the fairness premise), 44_device_session R156: if the transport holds every transaction of INIT and
reports each in a turn of its own, INIT ends after the 32 reports, in the state it reaches when all are reported at once.
The turns and the transport's description are the model's (assumptions 4 and 21). -/
def Obligations.InitEndsWhenEveryReportComes : Prop :=
  ∀ s : State, s.regs.Valid → s.regs.fault = 0 → s.env.transport = .holdsAfter 0 →
    s.env.turns = (List.replicate 32 [Turn.transport (.holdsAfter 0), Turn.mfc]).flatten →
    ∃ t u, exec .init s = .next t ∧
      exec .init { s with env := { s.env with transport := .prompt, owed := false, turns := [] } } = .next u ∧
      Sys2Proof.core.run 64 t = .next { u with env := { u.env with transport := .holdsAfter 0 } }

/-- R150: the session transitions, all of them, and no operation is refused because of the session state: every
operation answers a next state with the PHASE, PWR and INV of the table, whatever they were. An operation that talks to
the display completes in its own step when the transport reports its transactions at once (assumption 4); the event of a
hardware reset and its turn are the model's (assumptions 6, 11 and 21). -/
def Obligations.SessionTransitionsAreTheTable : Prop :=
  (∀ (i : Instr) (s : State), (writesHandle i = true ∨ s.regs.Valid) →
    (transmits i = true → s.env.transport.Reports 32) →
    ∃ t, exec i s = .next t ∧ t.regs.status = 0 ∧ t.seq = .idle ∧
      (t.regs.phase, t.regs.pwr, t.regs.inv) = sessionAfter i s.regs) ∧
  ∀ (s : State) (draw : List Byte) (tr : Transport) (ts : List Turn), s.HostFaces (.hardwareReset draw tr) ts →
    ∃ t, step s = .next t ∧ t.regs.phase = 0 ∧ t.regs.pwr = 0 ∧ t.regs.inv = 0

/-! ### Faults (60_exceptions) -/

/-- R182, 10_state R33: every operation except CONFIG raises HANDLE_INVALID(0) when the handle is invalid, before reading
or writing anything else; the handle is valid when the seven clauses of R33 hold, and is invalid after hardware reset. -/
def Obligations.InvalidHandleFaultsEveryOperationButConfig : Prop :=
  (∀ (i : Instr) (s : State), (∀ width height bufsize devaddr bok, i ≠ .config width height bufsize devaddr bok) →
    ¬ s.regs.Valid →
    exec i s = .next { s with regs := { s.regs with fault := 1, faultinfo := 0, status := 0 }, seq := .idle }) ∧
  (∀ r : Regs, r.Valid ↔
    r.bufok = 1 ∧ r.width ≠ 0 ∧ r.height ≠ 0 ∧ r.bufsize.toNat = r.width.toNat * r.height.toNat / 8 ∧
      r.height.toNat % 8 = 0 ∧ r.width.toNat ≤ 256 ∧ r.height.toNat ≤ 256) ∧
  ¬ State.reset.regs.Valid

/-- 60_exceptions R184: a captured word that selects no row raises ILLEGAL_OP with its bits 31:0, whatever the handle is,
and changes nothing else. The captured word as data, and the turn that goes by, are the model's (assumptions 5 and 21). -/
def Obligations.IllegalWordFaultsBeforeTheHandleIsLookedAt : Prop :=
  ∀ (s : State) (w : OpWord) (ts : List Turn), s.env.turns = .mfc :: ts → s.seq = .captured w → s.regs.fault = 0 →
    wellFormedWord w = false →
    step s = .next { s with regs := { s.regs with fault := 5, faultinfo := w.extractLsb' 0 32, status := 0 },
                            seq := .idle, env := { s.env with turns := ts } }

/-- R181, R186: an operation leaves FAULT and FAULTINFO alone, or it writes one of the four codes an accepted operation
can raise and is then not busy. -/
def Obligations.OperationsWriteOnlyLegalFaultCodes : Prop :=
  ∀ (i : Instr) (s : State), ∃ t, exec i s = .next t ∧
    ((t.regs.fault = s.regs.fault ∧ t.regs.faultinfo = s.regs.faultinfo) ∨
      ((t.regs.fault = 1 ∧ t.regs.faultinfo = 0 ∨ t.regs.fault = 2 ∨ t.regs.fault = 3 ∨ t.regs.fault = 4) ∧
        t.regs.status = 0 ∧ t.seq = .idle))

/-- R187: while FAULT is not 0 a presented word is not captured and nothing results from it, and the MFC's own turn does
nothing; whatever any agent does short of hardware reset, no register and no transaction changes, and no framebuffer byte
but by the host's own write. (The turn goes by, which is the model's: assumption 21.) -/
def Obligations.HaltedMachineAcceptsNothing : Prop :=
  ∀ s : State, s.regs.fault ≠ 0 →
    (∀ ts, s.HostFaces .present ts → step s = .next { s with env := { s.env with turns := ts } }) ∧
    (∀ ts, s.env.turns = .mfc :: ts → step s = .next { s with env := { s.env with turns := ts } }) ∧
    ((∀ draw tr ts, ¬ s.HostFaces (.hardwareReset draw tr) ts) →
      ∀ t, step s = .next t → t.regs = s.regs ∧ t.txlog = s.txlog ∧
        ((∀ a v ts, ¬ s.HostFaces (.writeFb a v) ts) → t.fb = s.fb))

/-! ### The host's ports -/

/-- 10_state R21: the host presents its program in order. Its turn hands a machine that is ready the word at its index, past
the word whose operation has completed: BUSY rises and the word is captured, and the index stays at it. The MFC's turn then
runs the instruction the word decodes to. `withFetchWord` is the state in which a program of one word has been presented:
the very next step runs it, from every state that is not halted, so also from reset. The host's mark of a captured word,
the turns and `withFetchWord` are the model's (assumptions 6, 7 and 21). -/
def Obligations.StepRunsTheDecodedInstruction : Prop :=
  (∀ (s : State) (w : OpWord) (ts : List Turn), s.HostFaces .present ts → s.regs.status = 0 → s.regs.fault = 0 →
    s.env.program[s.nextIndex]? = some w →
    step s = .next { s with regs := { s.regs with status := 1 }, seq := .captured w,
                            env := { s.env with hostPc := s.nextIndex, issued := true, turns := ts } }) ∧
  (∀ (s : State) (w : OpWord) (i : Instr) (ts : List Turn), s.env.turns = .mfc :: ts → s.seq = .captured w →
    s.regs.fault = 0 → decode w = .ok i → step s = exec i { s with env := { s.env with turns := ts } }) ∧
  (∀ (s : State) (w : Nat), s.regs.status = 0 → s.regs.fault = 0 → w < 2 ^ 160 →
    step ((s.load [BitVec.ofNat 160 w]).setTurns [.host .present, .mfc]) = .next (s.withFetchWord 160 w)) ∧
  ∀ (s : State) (w : Nat) (i : Instr), w < 2 ^ 160 → decodeTableWord 160 w = some i → s.regs.fault = 0 →
    step (s.withFetchWord 160 w) =
      exec i { s with regs := { s.regs with status := 1 }, seq := .captured (BitVec.ofNat 160 w),
                      env := { s.env with program := [BitVec.ofNat 160 w], hostPc := 0, issued := true, turns := [] } }

/-- 70_reset R224, 10_state R21 R34, 20_memory R60 R70: while BUSY = 1 a word is neither captured nor queued and the host's
index stays, STATUS can be read, and the model refuses every other access of the host. (The turn, and the field a read
fills, are the model's: assumptions 10 and 21.) -/
def Obligations.BusyMachineTakesNoWordAndNoAccess : Prop :=
  ∀ (s : State) (ts : List Turn), s.regs.status = 1 →
    (s.HostFaces .present ts → step s = .next { s with env := { s.env with turns := ts } }) ∧
    (s.HostFaces (.readReg 11) ts → step s = .next { s with env := { s.env with hostData := 1, turns := ts } }) ∧
    (∀ n, n ≠ 11 → s.HostFaces (.readReg n) ts → step s = .refused .hostAccessWhileBusy) ∧
    (∀ a, s.HostFaces (.readFb a) ts → step s = .refused .hostAccessWhileBusy) ∧
    (∀ a v, s.HostFaces (.writeFb a v) ts → step s = .refused .hostAccessWhileBusy) ∧
    ∀ a v, s.HostFaces (.setAsset a v) ts → step s = .refused .hostAccessWhileBusy

/-- 10_state R22: while the machine is not busy, reading register `n` returns it zero-extended to 32 bits, 0 for 12 to
15, and changes nothing of the machine. (That the host counts a completed operation in this turn, `moveOn`, the field the
read fills and the turn are the model's: assumptions 6, 10 and 21.) -/
def Obligations.RegisterPortReturnsTheRegister : Prop :=
  (∀ (s : State) (n : BitVec 4) (ts : List Turn), s.regs.status = 0 → s.HostFaces (.readReg n) ts →
    step s = .next { s with env := { s.moveOn.env with hostData := s.regs.read n, turns := ts } }) ∧
  ∀ r : Regs,
    ((r.read 0).toNat = r.width.toNat ∧ (r.read 1).toNat = r.height.toNat ∧ r.read 2 = r.bufsize ∧
      (r.read 3).toNat = r.devaddr.toNat ∧ (r.read 4).toNat = r.bufok.toNat ∧ (r.read 5).toNat = r.inv.toNat ∧
      (r.read 6).toNat = r.curx.toNat ∧ (r.read 7).toNat = r.cury.toNat ∧ (r.read 8).toNat = r.session.toNat ∧
      (r.read 9).toNat = r.fault.toNat ∧ r.read 10 = r.faultinfo ∧ (r.read 11).toNat = r.status.toNat) ∧
    ∀ n : BitVec 4, 12 ≤ n.toNat → r.read n = 0

/-- 20_memory R60: while the machine is not busy, a host write sets the one byte and a host read returns it; an address of
`FB_CAP` or more stops with a fault of the model (assumption 9). The field a read fills and the turn are the model's
(assumptions 10 and 21). -/
def Obligations.FramebufferPortReadsAndWritesOneByte : Prop :=
  ∀ (s : State) (a : Nat) (ts : List Turn), s.regs.status = 0 →
    (a < 8192 → s.HostFaces (.readFb a) ts →
      ∃ t, step s = .next t ∧ t.env.hostData.toNat = (s.readFb a).toNat ∧ t.regs = s.regs ∧ t.fb = s.fb ∧
        t.txlog = s.txlog) ∧
    (∀ v, a < 8192 → s.HostFaces (.writeFb a v) ts →
      ∃ t, step s = .next t ∧ t.readFb a = v ∧ (∀ b, b ≠ a → t.readFb b = s.readFb b) ∧ t.regs = s.regs ∧
        t.txlog = s.txlog) ∧
    (8192 ≤ a → s.HostFaces (.readFb a) ts → step s = .fault (.hostFbAddress a)) ∧
    ∀ v, 8192 ≤ a → s.HostFaces (.writeFb a v) ts → step s = .fault (.hostFbAddress a)

/-- 20_memory R54, R55, R70: between operations the host populates or depopulates asset addresses one at a time; the
asset read then gives that byte there, what it gave elsewhere, and nothing at `2^32` and above. The event and
its turn are the model's (assumptions 15 and 21). -/
def Obligations.AssetPortChangesOneAddress : Prop :=
  ∀ (s : State) (a : AsAddr) (v : Option Byte) (ts : List Turn), s.regs.status = 0 → s.HostFaces (.setAsset a v) ts →
    ∃ t, step s = .next t ∧ t.asset a.toNat = v ∧ (∀ b, b ≠ a.toNat → t.asset b = s.asset b) ∧
      (∀ b, 4294967296 ≤ b → t.asset b = none) ∧ t.regs = s.regs ∧ t.fb = s.fb ∧ t.txlog = s.txlog

/-- 70_reset R210: an MFC with no operation waits, a host whose program has ended presents nothing, and a transport with
nothing to report does nothing; with no turn to come the machine stays as it is. (The turns are the model's: assumption
21.) -/
def Obligations.IdleMachineWaits : Prop :=
  (∀ s : State, s.env.turns = [] → step s = .next s) ∧
  ∀ (s : State) (ts : List Turn),
    (s.env.turns = .mfc :: ts → s.seq = .idle → step s = .next { s with env := { s.env with turns := ts } }) ∧
    (s.HostFaces .present ts → s.env.issued = false → s.env.program.length ≤ s.env.hostPc →
      step s = .next { s with env := { s.env with turns := ts } }) ∧
    ∀ next, s.env.turns = .transport next :: ts → s.env.owed = false →
      step s = .next { s with env := { s.env with turns := ts } }

/-! ### Rules about every operation -/

/-- 10_state R22, R35: the "written by" column is complete: an operation writes no register it is not listed for. -/
def Obligations.OperationsWriteOnlyTheirRegisters : Prop :=
  ∀ (i : Instr) (s t : State), exec i s = .next t →
    (writesHandle i = false → t.regs.width = s.regs.width ∧ t.regs.height = s.regs.height ∧
      t.regs.bufsize = s.regs.bufsize ∧ t.regs.devaddr = s.regs.devaddr ∧ t.regs.bufok = s.regs.bufok) ∧
    (writesInv i = false → t.regs.inv = s.regs.inv) ∧
    (writesCursor i = false → t.regs.curx = s.regs.curx ∧ t.regs.cury = s.regs.cury) ∧
    (writesSession i = false → t.regs.session = s.regs.session)

/-- 10_state R40, 20_memory R57: `Tx(tag, bytes)` appends `(DEVADDR, tag, bytes)`; TXLOG only grows: an operation, and
every step but a hardware reset, leaves the earlier transactions as they are, and each new one carries the device address
and is not empty; TXLOG is empty after hardware reset. The wait of `Tx` with what is still to be done after it, the turns,
and the event of a hardware reset are the model's (assumptions 4, 5, 6, 11 and 21). -/
def Obligations.TransmitLogOnlyGrows : Prop :=
  (∀ (s : State) (tag : Tag) (bs : List Byte) (rest : Rest) (k : State → State), ∃ u,
    u.txlog = s.txlog ++ [⟨s.regs.devaddr, tag, bs⟩] ∧ u.regs = s.regs ∧ u.fb = s.fb ∧
    (s.tx tag bs rest k = k u ∨ s.tx tag bs rest k = u.await rest)) ∧
  (∀ (s : State) (draw : List Byte) (tr : Transport) (ts : List Turn), s.HostFaces (.hardwareReset draw tr) ts →
    ∃ t, step s = .next t ∧ t.txlog = []) ∧
  (∀ (i : Instr) (s t : State), exec i s = .next t →
    ∃ new, t.txlog = s.txlog ++ new ∧ ∀ x, x ∈ new → x.addr = s.regs.devaddr ∧ x.bytes ≠ []) ∧
  ∀ s t : State, (∀ draw tr ts, ¬ s.HostFaces (.hardwareReset draw tr) ts) → step s = .next t → s.txlog <+: t.txlog

/-- 20_memory R50, R61: only the six transmitting operations write TXLOG, only the seven listed ones write FB, and none
writes the asset memory or the display constants. -/
def Obligations.OperationsReachOnlyTheirSpaces : Prop :=
  ∀ (i : Instr) (s t : State), exec i s = .next t →
    (transmits i = false → t.txlog = s.txlog) ∧
    (writesFb i = false → t.fb = s.fb) ∧
    t.env.assets = s.env.assets ∧ t.env.display = s.env.display ∧ t.env.program = s.env.program ∧
    t.env.hostPc = s.env.hostPc ∧ t.env.issued = s.env.issued ∧ t.env.hostData = s.env.hostData ∧ t.env.turns = s.env.turns

/-- 20_memory R53, 93 U14: no operation writes a framebuffer byte at BUFSIZE or above, also when it faults or waits, and
neither does any turn of the MFC. Turns and waiting operations as data are the model's (assumptions 5 and 21). -/
def Obligations.BytesAtAndAboveBufsizeAreNeverWritten : Prop :=
  (∀ (i : Instr) (s t : State) (a : Nat), exec i s = .next t → s.regs.bufsize.toNat ≤ a → t.readFb a = s.readFb a) ∧
  ∀ (s t : State) (a : Nat), mfcStep s = .next t → s.regs.bufsize.toNat ≤ a → t.readFb a = s.readFb a

/-- 10_state R31: no operation's behaviour depends on PHASE or PWR: two states that differ only in SESSION give next
states that differ at most in SESSION; so for every operation and for every turn of the MFC, also one in which a waiting
operation goes on. Turns and waiting operations as data are the model's (assumptions 5 and 21). -/
def Obligations.SessionIsNeverRead : Prop :=
  (∀ (i : Instr) (s : State) (v : BitVec 2), ∃ t t',
    exec i s = .next t ∧ exec i { s with regs := { s.regs with session := v } } = .next t' ∧
    t' = { t with regs := { t.regs with session := t'.regs.session } }) ∧
  ∀ (s : State) (v : BitVec 2), ∃ t t',
    mfcStep s = .next t ∧ mfcStep { s with regs := { s.regs with session := v } } = .next t' ∧
    t' = { t with regs := { t.regs with session := t'.regs.session } }

/-- 10_state R37: the cursor an operation leaves behind never influences a later one: two states that differ only in the
cursor give next states that differ at most in the cursor; so for every operation and for every turn of the MFC. Turns and
waiting operations as data are the model's (assumptions 5 and 21). -/
def Obligations.EarlierCursorIsNeverRead : Prop :=
  (∀ (i : Instr) (s : State) (cx cy : Half), ∃ t t',
    exec i s = .next t ∧ exec i { s with regs := { s.regs with curx := cx, cury := cy } } = .next t' ∧
    t' = { t with regs := { t.regs with curx := t'.regs.curx, cury := t'.regs.cury } }) ∧
  ∀ (s : State) (cx cy : Half), ∃ t t',
    mfcStep s = .next t ∧ mfcStep { s with regs := { s.regs with curx := cx, cury := cy } } = .next t' ∧
    t' = { t with regs := { t.regs with curx := t'.regs.curx, cury := t'.regs.cury } }

/-- 10_state R39, 20_memory R66: the framebuffer reaches nothing but the framebuffer, except by FLUSH: two states that
differ only in FB give the same registers, log, sequencer and surroundings after any other operation; after FLUSH too when
their bytes below BUFSIZE read the same. An operation that goes on after waiting does not read it at all: turns and waiting
operations as data are the model's (assumptions 5 and 21). -/
def Obligations.FramebufferLeavesOnlyByFlush : Prop :=
  (∀ (i : Instr) (s : State) (m : List Host.Cell), ∃ t t',
    exec i s = .next t ∧ exec i { s with fb := m } = .next t' ∧
    (i ≠ .flush ∨ (∀ a, a < s.regs.bufsize.toNat → Memory.read m a = s.readFb a) → t' = { t with fb := t'.fb })) ∧
  ∀ (s : State) (rest : Rest) (m : List Host.Cell), s.seq = .waiting rest → ∃ t,
    mfcStep s = .next t ∧ mfcStep { s with fb := m } = .next { t with fb := m }
end

