-- ==== Sys2Proof/Laws/Config.lean ====
section
/-! SUPPORT. The values of the configuration as plain numbers, for arithmetic that must see them. -/

namespace Sys2Proof

@[simp] theorem Config.two_pow_coordW : 2 ^ Config.coordW = 65536 := rfl
theorem Config.cursorMax_eq : Config.cursorMax = 65535 := rfl
theorem Config.asSize_eq : Config.asSize = 4294967296 := rfl
theorem Config.fbCap_eq : Config.fbCap = 8192 := rfl

theorem Half.lt (x : Half) : x.toNat < 65536 := x.isLt
theorem Size.lt (x : Size) : x.toNat < 4294967296 := x.isLt
theorem AsAddr.lt (x : AsAddr) : x.toNat < 4294967296 := x.isLt
theorem DevAddr.lt (x : DevAddr) : x.toNat < 256 := x.isLt

end Sys2Proof
end

