-- ==== Sys2Proof/Laws/State.lean ====
section
/-! SUPPORT. One lemma per field per state update, so that no later proof unfolds a record update, and the small
lemmas of PHASE and PWR. -/

namespace Sys2Proof.Machine

variable (s : State)

@[simp] theorem State.writeFb_regs (a : Nat) (v : Byte) : (s.writeFb a v).regs = s.regs := rfl
@[simp] theorem State.writeFb_fb (a : Nat) (v : Byte) : (s.writeFb a v).fb = Memory.write s.fb a v := rfl
@[simp] theorem State.writeFb_txlog (a : Nat) (v : Byte) : (s.writeFb a v).txlog = s.txlog := rfl
@[simp] theorem State.writeFb_seq (a : Nat) (v : Byte) : (s.writeFb a v).seq = s.seq := rfl
@[simp] theorem State.writeFb_env (a : Nat) (v : Byte) : (s.writeFb a v).env = s.env := rfl

@[simp] theorem State.fillFb_regs (v : Byte) : (s.fillFb v).regs = s.regs := rfl
@[simp] theorem State.fillFb_fb (v : Byte) : (s.fillFb v).fb = Memory.fillFrom v 0 s.regs.bufsize.toNat s.fb := rfl
@[simp] theorem State.fillFb_txlog (v : Byte) : (s.fillFb v).txlog = s.txlog := rfl
@[simp] theorem State.fillFb_seq (v : Byte) : (s.fillFb v).seq = s.seq := rfl
@[simp] theorem State.fillFb_env (v : Byte) : (s.fillFb v).env = s.env := rfl

@[simp] theorem State.setHandle_regs (width height : Half) (bufsize : Size) (devaddr : DevAddr) (bok : Bit) :
    (s.setHandle width height bufsize devaddr bok).regs = { s.regs with width := width, height := height, bufsize := bufsize, devaddr := devaddr, bufok := bok } := rfl
@[simp] theorem State.setHandle_fb (width height : Half) (bufsize : Size) (devaddr : DevAddr) (bok : Bit) :
    (s.setHandle width height bufsize devaddr bok).fb = s.fb := rfl
@[simp] theorem State.setHandle_txlog (width height : Half) (bufsize : Size) (devaddr : DevAddr) (bok : Bit) :
    (s.setHandle width height bufsize devaddr bok).txlog = s.txlog := rfl
@[simp] theorem State.setHandle_seq (width height : Half) (bufsize : Size) (devaddr : DevAddr) (bok : Bit) :
    (s.setHandle width height bufsize devaddr bok).seq = s.seq := rfl
@[simp] theorem State.setHandle_env (width height : Half) (bufsize : Size) (devaddr : DevAddr) (bok : Bit) :
    (s.setHandle width height bufsize devaddr bok).env = s.env := rfl

@[simp] theorem State.setCursor_regs (x y : Half) : (s.setCursor x y).regs = { s.regs with curx := x, cury := y } := rfl
@[simp] theorem State.setCursor_fb (x y : Half) : (s.setCursor x y).fb = s.fb := rfl
@[simp] theorem State.setCursor_txlog (x y : Half) : (s.setCursor x y).txlog = s.txlog := rfl
@[simp] theorem State.setCursor_seq (x y : Half) : (s.setCursor x y).seq = s.seq := rfl
@[simp] theorem State.setCursor_env (x y : Half) : (s.setCursor x y).env = s.env := rfl

@[simp] theorem State.setCurx_regs (x : Half) : (s.setCurx x).regs = { s.regs with curx := x } := rfl
@[simp] theorem State.setCurx_fb (x : Half) : (s.setCurx x).fb = s.fb := rfl
@[simp] theorem State.setCurx_txlog (x : Half) : (s.setCurx x).txlog = s.txlog := rfl
@[simp] theorem State.setCurx_seq (x : Half) : (s.setCurx x).seq = s.seq := rfl
@[simp] theorem State.setCurx_env (x : Half) : (s.setCurx x).env = s.env := rfl

@[simp] theorem State.setInv_regs (v : Bit) : (s.setInv v).regs = { s.regs with inv := v } := rfl
@[simp] theorem State.setInv_fb (v : Bit) : (s.setInv v).fb = s.fb := rfl
@[simp] theorem State.setInv_txlog (v : Bit) : (s.setInv v).txlog = s.txlog := rfl
@[simp] theorem State.setInv_seq (v : Bit) : (s.setInv v).seq = s.seq := rfl
@[simp] theorem State.setInv_env (v : Bit) : (s.setInv v).env = s.env := rfl

@[simp] theorem State.setPhase_regs (v : Bit) : (s.setPhase v).regs = s.regs.setPhase v := rfl
@[simp] theorem State.setPhase_fb (v : Bit) : (s.setPhase v).fb = s.fb := rfl
@[simp] theorem State.setPhase_txlog (v : Bit) : (s.setPhase v).txlog = s.txlog := rfl
@[simp] theorem State.setPhase_seq (v : Bit) : (s.setPhase v).seq = s.seq := rfl
@[simp] theorem State.setPhase_env (v : Bit) : (s.setPhase v).env = s.env := rfl

@[simp] theorem State.setPwr_regs (v : Bit) : (s.setPwr v).regs = s.regs.setPwr v := rfl
@[simp] theorem State.setPwr_fb (v : Bit) : (s.setPwr v).fb = s.fb := rfl
@[simp] theorem State.setPwr_txlog (v : Bit) : (s.setPwr v).txlog = s.txlog := rfl
@[simp] theorem State.setPwr_seq (v : Bit) : (s.setPwr v).seq = s.seq := rfl
@[simp] theorem State.setPwr_env (v : Bit) : (s.setPwr v).env = s.env := rfl

@[simp] theorem State.setBusy_regs (v : Bit) : (s.setBusy v).regs = { s.regs with status := v } := rfl
@[simp] theorem State.setBusy_fb (v : Bit) : (s.setBusy v).fb = s.fb := rfl
@[simp] theorem State.setBusy_txlog (v : Bit) : (s.setBusy v).txlog = s.txlog := rfl
@[simp] theorem State.setBusy_seq (v : Bit) : (s.setBusy v).seq = s.seq := rfl
@[simp] theorem State.setBusy_env (v : Bit) : (s.setBusy v).env = s.env := rfl

@[simp] theorem State.setFault_regs (code : BitVec 4) (info : Word) :
    (s.setFault code info).regs = { s.regs with fault := code, faultinfo := info } := rfl
@[simp] theorem State.setFault_fb (code : BitVec 4) (info : Word) : (s.setFault code info).fb = s.fb := rfl
@[simp] theorem State.setFault_txlog (code : BitVec 4) (info : Word) : (s.setFault code info).txlog = s.txlog := rfl
@[simp] theorem State.setFault_seq (code : BitVec 4) (info : Word) : (s.setFault code info).seq = s.seq := rfl
@[simp] theorem State.setFault_env (code : BitVec 4) (info : Word) : (s.setFault code info).env = s.env := rfl

@[simp] theorem State.log_regs (t : Transaction) : (s.log t).regs = s.regs := rfl
@[simp] theorem State.log_fb (t : Transaction) : (s.log t).fb = s.fb := rfl
@[simp] theorem State.log_txlog (t : Transaction) : (s.log t).txlog = s.txlog ++ [t] := rfl
@[simp] theorem State.log_seq (t : Transaction) : (s.log t).seq = s.seq := rfl
@[simp] theorem State.log_env (t : Transaction) : (s.log t).env = s.env := rfl

@[simp] theorem State.setSeq_regs (q : Sequencer) : (s.setSeq q).regs = s.regs := rfl
@[simp] theorem State.setSeq_fb (q : Sequencer) : (s.setSeq q).fb = s.fb := rfl
@[simp] theorem State.setSeq_txlog (q : Sequencer) : (s.setSeq q).txlog = s.txlog := rfl
@[simp] theorem State.setSeq_seq (q : Sequencer) : (s.setSeq q).seq = q := rfl
@[simp] theorem State.setSeq_env (q : Sequencer) : (s.setSeq q).env = s.env := rfl

@[simp] theorem State.setOwed_regs (v : Bool) : (s.setOwed v).regs = s.regs := rfl
@[simp] theorem State.setOwed_fb (v : Bool) : (s.setOwed v).fb = s.fb := rfl
@[simp] theorem State.setOwed_txlog (v : Bool) : (s.setOwed v).txlog = s.txlog := rfl
@[simp] theorem State.setOwed_seq (v : Bool) : (s.setOwed v).seq = s.seq := rfl
@[simp] theorem State.setOwed_env (v : Bool) : (s.setOwed v).env = { s.env with owed := v } := rfl

@[simp] theorem State.setTurns_regs (ts : List Turn) : (s.setTurns ts).regs = s.regs := rfl
@[simp] theorem State.setTurns_fb (ts : List Turn) : (s.setTurns ts).fb = s.fb := rfl
@[simp] theorem State.setTurns_txlog (ts : List Turn) : (s.setTurns ts).txlog = s.txlog := rfl
@[simp] theorem State.setTurns_seq (ts : List Turn) : (s.setTurns ts).seq = s.seq := rfl
@[simp] theorem State.setTurns_env (ts : List Turn) : (s.setTurns ts).env = { s.env with turns := ts } := rfl

@[simp] theorem State.setTransport_regs (t : Transport) : (s.setTransport t).regs = s.regs := rfl
@[simp] theorem State.setTransport_fb (t : Transport) : (s.setTransport t).fb = s.fb := rfl
@[simp] theorem State.setTransport_txlog (t : Transport) : (s.setTransport t).txlog = s.txlog := rfl
@[simp] theorem State.setTransport_seq (t : Transport) : (s.setTransport t).seq = s.seq := rfl
@[simp] theorem State.setTransport_env (t : Transport) : (s.setTransport t).env = { s.env with transport := t } := rfl

@[simp] theorem State.setAssets_regs (m : List Host.Cell) : (s.setAssets m).regs = s.regs := rfl
@[simp] theorem State.setAssets_fb (m : List Host.Cell) : (s.setAssets m).fb = s.fb := rfl
@[simp] theorem State.setAssets_txlog (m : List Host.Cell) : (s.setAssets m).txlog = s.txlog := rfl
@[simp] theorem State.setAssets_seq (m : List Host.Cell) : (s.setAssets m).seq = s.seq := rfl
@[simp] theorem State.setAssets_env (m : List Host.Cell) : (s.setAssets m).env = { s.env with assets := m } := rfl

@[simp] theorem State.setHostData_regs (v : Word) : (s.setHostData v).regs = s.regs := rfl
@[simp] theorem State.setHostData_fb (v : Word) : (s.setHostData v).fb = s.fb := rfl
@[simp] theorem State.setHostData_txlog (v : Word) : (s.setHostData v).txlog = s.txlog := rfl
@[simp] theorem State.setHostData_seq (v : Word) : (s.setHostData v).seq = s.seq := rfl
@[simp] theorem State.setHostData_env (v : Word) : (s.setHostData v).env = { s.env with hostData := v } := rfl

@[simp] theorem State.setIssued_regs (v : Bool) : (s.setIssued v).regs = s.regs := rfl
@[simp] theorem State.setIssued_fb (v : Bool) : (s.setIssued v).fb = s.fb := rfl
@[simp] theorem State.setIssued_txlog (v : Bool) : (s.setIssued v).txlog = s.txlog := rfl
@[simp] theorem State.setIssued_seq (v : Bool) : (s.setIssued v).seq = s.seq := rfl
@[simp] theorem State.setIssued_env (v : Bool) : (s.setIssued v).env = { s.env with issued := v } := rfl

@[simp] theorem State.advanceHost_regs : s.advanceHost.regs = s.regs := rfl
@[simp] theorem State.advanceHost_fb : s.advanceHost.fb = s.fb := rfl
@[simp] theorem State.advanceHost_txlog : s.advanceHost.txlog = s.txlog := rfl
@[simp] theorem State.advanceHost_seq : s.advanceHost.seq = s.seq := rfl
@[simp] theorem State.advanceHost_env :
    s.advanceHost.env = { s.env with hostPc := s.env.hostPc + 1, issued := false } := rfl

@[simp] theorem State.takeFault_regs (f : Cause) (info : Word) :
    (s.takeFault f info).regs = { s.regs with fault := f.code, faultinfo := info, status := 0 } := rfl
@[simp] theorem State.takeFault_fb (f : Cause) (info : Word) : (s.takeFault f info).fb = s.fb := rfl
@[simp] theorem State.takeFault_txlog (f : Cause) (info : Word) : (s.takeFault f info).txlog = s.txlog := rfl
@[simp] theorem State.takeFault_seq (f : Cause) (info : Word) : (s.takeFault f info).seq = .idle := rfl
@[simp] theorem State.takeFault_env (f : Cause) (info : Word) : (s.takeFault f info).env = s.env := rfl

@[simp] theorem State.hardwareReset_regs (draw : List Byte) (transport : Transport) :
    (s.hardwareReset draw transport).regs = Regs.reset := rfl
@[simp] theorem State.hardwareReset_fb (draw : List Byte) (transport : Transport) :
    (s.hardwareReset draw transport).fb = Memory.ofBytes draw := rfl
@[simp] theorem State.hardwareReset_txlog (draw : List Byte) (transport : Transport) :
    (s.hardwareReset draw transport).txlog = [] := rfl
@[simp] theorem State.hardwareReset_seq (draw : List Byte) (transport : Transport) :
    (s.hardwareReset draw transport).seq = .idle := rfl
@[simp] theorem State.hardwareReset_env (draw : List Byte) (transport : Transport) :
    (s.hardwareReset draw transport).env = { s.env with transport := transport, owed := false, issued := false } := rfl

@[simp] theorem State.accept_regs (w : OpWord) : (s.accept w).regs = { s.regs with status := 1 } := rfl
@[simp] theorem State.accept_fb (w : OpWord) : (s.accept w).fb = s.fb := rfl
@[simp] theorem State.accept_txlog (w : OpWord) : (s.accept w).txlog = s.txlog := rfl
@[simp] theorem State.accept_seq (w : OpWord) : (s.accept w).seq = .captured w := rfl
@[simp] theorem State.accept_env (w : OpWord) : (s.accept w).env = s.env := rfl

@[simp] theorem State.complete_regs : s.complete.regs = { s.regs with status := 0 } := rfl
@[simp] theorem State.complete_fb : s.complete.fb = s.fb := rfl
@[simp] theorem State.complete_txlog : s.complete.txlog = s.txlog := rfl
@[simp] theorem State.complete_seq : s.complete.seq = .idle := rfl
@[simp] theorem State.complete_env : s.complete.env = s.env := rfl

@[simp] theorem State.load_regs (words : List OpWord) : (s.load words).regs = s.regs := rfl
@[simp] theorem State.load_fb (words : List OpWord) : (s.load words).fb = s.fb := rfl
@[simp] theorem State.load_txlog (words : List OpWord) : (s.load words).txlog = s.txlog := rfl
@[simp] theorem State.load_seq (words : List OpWord) : (s.load words).seq = s.seq := rfl
@[simp] theorem State.load_env (words : List OpWord) :
    (s.load words).env = { s.env with program := words, hostPc := 0, issued := false } := rfl

@[simp] theorem State.await_regs (rest : Rest) : (s.await rest).regs = { s.regs with status := 1 } := rfl
@[simp] theorem State.await_fb (rest : Rest) : (s.await rest).fb = s.fb := rfl
@[simp] theorem State.await_txlog (rest : Rest) : (s.await rest).txlog = s.txlog := rfl
@[simp] theorem State.await_seq (rest : Rest) : (s.await rest).seq = .waiting rest := rfl
@[simp] theorem State.await_env (rest : Rest) : (s.await rest).env = { s.env with owed := true } := rfl

variable (r : Regs) (v : Bit)

@[simp] theorem Regs.setPhase_phase : (r.setPhase v).phase = v := by
  simp only [Regs.setPhase, Regs.phase]
  exact BitVec.extractLsb'_append_eq_right

@[simp] theorem Regs.setPwr_pwr : (r.setPwr v).pwr = v := by
  simp only [Regs.setPwr, Regs.pwr]
  exact BitVec.extractLsb'_append_eq_left

@[simp] theorem Regs.setPhase_pwr : (r.setPhase v).pwr = r.pwr := by
  simp only [Regs.setPhase]
  exact BitVec.extractLsb'_append_eq_left

@[simp] theorem Regs.setPwr_phase : (r.setPwr v).phase = r.phase := by
  simp only [Regs.setPwr]
  exact BitVec.extractLsb'_append_eq_right

@[simp] theorem Regs.setPhase_width : (r.setPhase v).width = r.width := rfl
@[simp] theorem Regs.setPhase_height : (r.setPhase v).height = r.height := rfl
@[simp] theorem Regs.setPhase_bufsize : (r.setPhase v).bufsize = r.bufsize := rfl
@[simp] theorem Regs.setPhase_devaddr : (r.setPhase v).devaddr = r.devaddr := rfl
@[simp] theorem Regs.setPhase_bufok : (r.setPhase v).bufok = r.bufok := rfl
@[simp] theorem Regs.setPhase_inv : (r.setPhase v).inv = r.inv := rfl
@[simp] theorem Regs.setPhase_curx : (r.setPhase v).curx = r.curx := rfl
@[simp] theorem Regs.setPhase_cury : (r.setPhase v).cury = r.cury := rfl
@[simp] theorem Regs.setPhase_fault : (r.setPhase v).fault = r.fault := rfl
@[simp] theorem Regs.setPhase_faultinfo : (r.setPhase v).faultinfo = r.faultinfo := rfl
@[simp] theorem Regs.setPhase_status : (r.setPhase v).status = r.status := rfl

@[simp] theorem Regs.setPwr_width : (r.setPwr v).width = r.width := rfl
@[simp] theorem Regs.setPwr_height : (r.setPwr v).height = r.height := rfl
@[simp] theorem Regs.setPwr_bufsize : (r.setPwr v).bufsize = r.bufsize := rfl
@[simp] theorem Regs.setPwr_devaddr : (r.setPwr v).devaddr = r.devaddr := rfl
@[simp] theorem Regs.setPwr_bufok : (r.setPwr v).bufok = r.bufok := rfl
@[simp] theorem Regs.setPwr_inv : (r.setPwr v).inv = r.inv := rfl
@[simp] theorem Regs.setPwr_curx : (r.setPwr v).curx = r.curx := rfl
@[simp] theorem Regs.setPwr_cury : (r.setPwr v).cury = r.cury := rfl
@[simp] theorem Regs.setPwr_fault : (r.setPwr v).fault = r.fault := rfl
@[simp] theorem Regs.setPwr_faultinfo : (r.setPwr v).faultinfo = r.faultinfo := rfl
@[simp] theorem Regs.setPwr_status : (r.setPwr v).status = r.status := rfl

end Sys2Proof.Machine
end

