-- ==== Sys2Proof/Laws/Memory.lean ====
section
/-! SUPPORT. The laws of the cell lists, the framebuffer memory and the asset memory: read after write, and that every
operation keeps the canonical form. -/

namespace Sys2Proof.Machine

/-! ### Cell lists -/

theorem Cells.find_put_same (m : List Host.Cell) (a : Nat) (v : Byte) : Cells.find (Cells.put m a v) a = some v := by
  induction m with
  | nil => simp [Cells.put, Cells.find]
  | cons p m ih =>
    obtain ⟨k, w⟩ := p
    simp only [Cells.put]
    split
    · simp [Cells.find]
    · split
      · simp [Cells.find]
      · simp [Cells.find, *]

theorem Cells.find_put_other (m : List Host.Cell) {a b : Nat} (h : b ≠ a) (v : Byte) :
    Cells.find (Cells.put m a v) b = Cells.find m b := by
  induction m with
  | nil => simp [Cells.put, Cells.find, h]
  | cons p m ih =>
    obtain ⟨k, w⟩ := p
    simp only [Cells.put]
    split
    · simp [Cells.find, h]
    · split
      · rename_i h1 h2
        subst h2
        simp [Cells.find, h]
      · simp [Cells.find, ih]

theorem Cells.find_erase_same (m : List Host.Cell) (a : Nat) : Cells.find (Cells.erase m a) a = none := by
  induction m with
  | nil => rfl
  | cons p m ih =>
    obtain ⟨k, w⟩ := p
    by_cases hk : k = a
    · simpa [Cells.erase, hk] using ih
    · have : a ≠ k := fun h => hk h.symm
      simpa [Cells.erase, hk, Cells.find, this] using ih

theorem Cells.find_erase_other (m : List Host.Cell) {a b : Nat} (h : b ≠ a) :
    Cells.find (Cells.erase m a) b = Cells.find m b := by
  induction m with
  | nil => rfl
  | cons p m ih =>
    obtain ⟨k, w⟩ := p
    by_cases hk : k = a
    · subst hk
      simpa [Cells.erase, Cells.find, h] using ih
    · by_cases hb : b = k
      · simp [Cells.erase, hk, Cells.find, hb]
      · simpa [Cells.erase, hk, Cells.find, hb] using ih

theorem Cells.mem_put {m : List Host.Cell} {a : Nat} {v : Byte} {p : Host.Cell} (h : p ∈ Cells.put m a v) :
    p = (a, v) ∨ p ∈ m := by
  induction m with
  | nil => simpa [Cells.put] using h
  | cons q m ih =>
    obtain ⟨k, w⟩ := q
    simp only [Cells.put] at h
    split at h
    · simpa using h
    · split at h
      · rcases List.mem_cons.1 h with h | h
        · exact .inl h
        · exact .inr (List.mem_cons_of_mem _ h)
      · rcases List.mem_cons.1 h with h | h
        · exact .inr (h ▸ List.mem_cons_self)
        · exact (ih h).imp_right (List.mem_cons_of_mem _)

theorem Cells.rising_put {m : List Host.Cell} (h : Cells.Rising m) (a : Nat) (v : Byte) :
    Cells.Rising (Cells.put m a v) := by
  induction m with
  | nil => simp [Cells.put, Cells.Rising]
  | cons q m ih =>
    obtain ⟨k, w⟩ := q
    have hm := List.pairwise_cons.1 h
    simp only [Cells.put]
    split
    · rename_i hlt
      refine List.pairwise_cons.2 ⟨fun p hp => ?_, h⟩
      rcases List.mem_cons.1 hp with rfl | hp
      · exact hlt
      · exact lt_trans hlt (hm.1 p hp)
    · split
      · rename_i _ he
        subst he
        exact List.pairwise_cons.2 ⟨hm.1, hm.2⟩
      · refine List.pairwise_cons.2 ⟨fun p hp => ?_, ih hm.2⟩
        rcases Cells.mem_put hp with rfl | hp
        · simp only; omega
        · exact hm.1 p hp

theorem Cells.rising_erase {m : List Host.Cell} (h : Cells.Rising m) (a : Nat) : Cells.Rising (Cells.erase m a) :=
  h.filter _

theorem Cells.mem_erase {m : List Host.Cell} {a : Nat} {p : Host.Cell} (h : p ∈ Cells.erase m a) : p ∈ m :=
  (List.mem_filter.1 h).1

/-- In a rising list, an entry is what its address finds. -/
theorem Cells.find_of_mem {m : List Host.Cell} (h : Cells.Rising m) {p : Host.Cell} (hp : p ∈ m) :
    Cells.find m p.1 = some p.2 := by
  induction m with
  | nil => cases hp
  | cons q m ih =>
    obtain ⟨k, w⟩ := q
    have hm := List.pairwise_cons.1 h
    rcases List.mem_cons.1 hp with rfl | hp
    · simp [Cells.find]
    · have := hm.1 p hp
      simp only [Cells.find]
      rw [if_neg (by simp only at this; omega)]
      exact ih hm.2 hp

/-- What is found is an entry. -/
theorem Cells.mem_of_find {m : List Host.Cell} {a : Nat} {v : Byte} (h : Cells.find m a = some v) : (a, v) ∈ m := by
  induction m with
  | nil => simp [Cells.find] at h
  | cons q m ih =>
    obtain ⟨k, w⟩ := q
    simp only [Cells.find] at h
    split at h
    · rename_i he
      simp_all
    · exact List.mem_cons_of_mem _ (ih h)

/-- Two rising lists that find the same at every address are equal. -/
theorem Cells.ext_find {m n : List Host.Cell} (hm : Cells.Rising m) (hn : Cells.Rising n)
    (h : ∀ a, Cells.find m a = Cells.find n a) : m = n := by
  have hperm : m.Perm n := by
    refine (List.perm_ext_iff_of_nodup (hm.imp fun hlt he => ?_) (hn.imp fun hlt he => ?_)).2 fun p => ?_
    · exact absurd (congrArg Prod.fst he) (Nat.ne_of_lt hlt)
    · exact absurd (congrArg Prod.fst he) (Nat.ne_of_lt hlt)
    · constructor
      · intro hp
        exact Cells.mem_of_find (h p.1 ▸ Cells.find_of_mem hm hp)
      · intro hp
        exact Cells.mem_of_find ((h p.1).symm ▸ Cells.find_of_mem hn hp)
  exact hperm.eq_of_pairwise (fun p q _ _ h1 h2 => absurd h2 (Nat.lt_asymm h1)) hm hn

/-! ### The framebuffer memory -/

@[simp] theorem Memory.read_write_same (m : List Host.Cell) (a : Nat) (v : Byte) :
    Memory.read (Memory.write m a v) a = v := by
  unfold Memory.write
  split
  · rename_i h
    simp [Memory.read, Cells.find_erase_same, h]
  · simp [Memory.read, Cells.find_put_same]

theorem Memory.read_write_other (m : List Host.Cell) {a b : Nat} (h : b ≠ a) (v : Byte) :
    Memory.read (Memory.write m a v) b = Memory.read m b := by
  unfold Memory.write
  split
  · simp [Memory.read, Cells.find_erase_other m h]
  · simp [Memory.read, Cells.find_put_other m h]

theorem Memory.read_write (m : List Host.Cell) (a b : Nat) (v : Byte) :
    Memory.read (Memory.write m a v) b = if b = a then v else Memory.read m b := by
  split
  · rename_i h
    subst h
    simp
  · exact Memory.read_write_other m ‹_› v

theorem Memory.wf_write {m : List Host.Cell} (h : Memory.wf m) {a : Nat} (ha : a < Config.fbCap) (v : Byte) :
    Memory.wf (Memory.write m a v) := by
  unfold Memory.write
  split
  · exact ⟨Cells.rising_erase h.1 a, fun p hp => h.2 p (Cells.mem_erase hp)⟩
  · refine ⟨Cells.rising_put h.1 a v, fun p hp => ?_⟩
    rcases Cells.mem_put hp with rfl | hp
    · exact ⟨ha, ‹_›⟩
    · exact h.2 p hp

theorem Memory.wf_nil : Memory.wf [] := ⟨List.Pairwise.nil, fun _ h => by cases h⟩

theorem Memory.read_fillFrom (v : Byte) (a n : Nat) (m : List Host.Cell) (b : Nat) :
    Memory.read (Memory.fillFrom v a n m) b = if a ≤ b ∧ b < a + n then v else Memory.read m b := by
  induction n generalizing a m with
  | zero =>
    rw [if_neg (by omega)]
    rfl
  | succ n ih =>
    simp only [Memory.fillFrom, ih, Memory.read_write]
    by_cases h1 : a + 1 ≤ b ∧ b < a + 1 + n
    · rw [if_pos h1, if_pos (by omega)]
    · by_cases h2 : b = a
      · subst h2
        simp
      · rw [if_neg h1, if_neg h2, if_neg (by omega)]

theorem Memory.wf_fillFrom (v : Byte) {a n : Nat} {m : List Host.Cell} (h : Memory.wf m)
    (hn : a + n ≤ Config.fbCap) : Memory.wf (Memory.fillFrom v a n m) := by
  induction n generalizing a m with
  | zero => exact h
  | succ n ih => exact ih (Memory.wf_write h (by omega) v) (by omega)

theorem Memory.mem_ofBytesAt {a : Nat} {bs : List Byte} {p : Host.Cell} (h : p ∈ Memory.ofBytesAt a bs) :
    a ≤ p.1 ∧ p.1 < a + bs.length ∧ p.2 ≠ Memory.unlisted := by
  induction bs generalizing a with
  | nil => simp [Memory.ofBytesAt] at h
  | cons v vs ih =>
    simp only [Memory.ofBytesAt] at h
    split at h
    · have := ih h
      simp only [List.length_cons]
      exact ⟨by omega, by omega, this.2.2⟩
    · rcases List.mem_cons.1 h with rfl | h
      · simpa using ‹_›
      · have := ih h
        simp only [List.length_cons]
        exact ⟨by omega, by omega, this.2.2⟩

theorem Memory.rising_ofBytesAt (a : Nat) (bs : List Byte) : Cells.Rising (Memory.ofBytesAt a bs) := by
  induction bs generalizing a with
  | nil => exact List.Pairwise.nil
  | cons v vs ih =>
    simp only [Memory.ofBytesAt]
    split
    · exact ih _
    · exact List.pairwise_cons.2 ⟨fun p hp => (Memory.mem_ofBytesAt hp).1, ih _⟩

theorem Memory.wf_ofBytes (bs : List Byte) : Memory.wf (Memory.ofBytes bs) := by
  refine ⟨Memory.rising_ofBytesAt _ _, fun p hp => ?_⟩
  have := Memory.mem_ofBytesAt hp
  have hlen : (bs.take Config.fbCap).length ≤ Config.fbCap := by simp
  exact ⟨by omega, this.2.2⟩

theorem Memory.read_ofBytesAt (a : Nat) (bs : List Byte) (k : Nat) :
    Memory.read (Memory.ofBytesAt a bs) (a + k) = bs.getD k Memory.unlisted := by
  induction bs generalizing a k with
  | nil => simp [Memory.ofBytesAt, Memory.read, Cells.find]
  | cons v vs ih =>
    have below : ∀ n, n ≤ a → Cells.find (Memory.ofBytesAt (a + 1) vs) n = none := by
      intro n hn
      cases hf : Cells.find (Memory.ofBytesAt (a + 1) vs) n with
      | none => rfl
      | some w =>
        have := (Memory.mem_ofBytesAt (Cells.mem_of_find hf)).1
        simp only at this
        omega
    cases k with
    | zero =>
      simp only [Memory.ofBytesAt]
      split
      · rename_i h
        simp [Memory.read, below a le_rfl, h]
      · simp [Memory.read, Cells.find]
    | succ k =>
      have := ih (a + 1) k
      rw [show a + 1 + k = a + (k + 1) by omega] at this
      simp only [Memory.ofBytesAt]
      split
      · simpa using this
      · simp only [Memory.read, Cells.find] at this ⊢
        rw [if_neg (by omega)]
        simpa using this

theorem Memory.read_ofBytes (bs : List Byte) {k : Nat} (hk : k < Config.fbCap) :
    Memory.read (Memory.ofBytes bs) k = bs.getD k Memory.unlisted := by
  have := Memory.read_ofBytesAt 0 (bs.take Config.fbCap) k
  rw [Nat.zero_add] at this
  rw [Memory.ofBytes, this]
  simp [hk]

@[simp] theorem Memory.length_readOut (m : List Host.Cell) (n : Nat) : (Memory.readOut m n).length = n := by
  simp [Memory.readOut]

theorem Memory.getElem_readOut (m : List Host.Cell) {n k : Nat} (h : k < n) :
    (Memory.readOut m n)[k]? = some (Memory.read m k) := by
  simp [Memory.readOut, h]

/-! ### The asset memory -/

theorem Assets.wf_set {m : List Host.Cell} (h : Assets.wf m) (a : Word) (v : Option Byte) :
    Assets.wf (Assets.set m a v) := by
  cases v with
  | none => exact ⟨Cells.rising_erase h.1 _, fun p hp => h.2 p (Cells.mem_erase hp)⟩
  | some v =>
    refine ⟨Cells.rising_put h.1 _ v, fun p hp => ?_⟩
    rcases Cells.mem_put hp with rfl | hp
    · exact a.isLt
    · exact h.2 p hp

theorem Assets.find_set (m : List Host.Cell) (a : Word) (v : Option Byte) (b : Nat) :
    Cells.find (Assets.set m a v) b = if b = a.toNat then v else Cells.find m b := by
  cases v with
  | none =>
    simp only [Assets.set]
    split
    · rename_i h
      rw [h, Cells.find_erase_same]
    · exact Cells.find_erase_other m ‹_›
  | some v =>
    simp only [Assets.set]
    split
    · rename_i h
      rw [h, Cells.find_put_same]
    · exact Cells.find_put_other m ‹_› v

/-- Asset reads depend on the asset memory alone. -/
theorem State.asset_congr {s t : State} (h : t.env.assets = s.env.assets) (a : Nat) : t.asset a = s.asset a := by
  simp [State.asset, h]

end Sys2Proof.Machine
end

