-- ==== Sys2Proof/Laws/Ops.lean ====
section
/-! SUPPORT. What the shared operations can do: runs, loops, validity, the transmit port. -/

namespace Sys2Proof.Machine

/-! ### Runs -/

/-- The state a run has come to, however it ended. -/
def Run.state : Run → State
  | .go s => s
  | .raised _ _ s => s

@[simp] theorem Run.state_go (s : State) : (Run.go s).state = s := rfl
@[simp] theorem Run.state_raised (f : Cause) (info : Word) (s : State) : (Run.raised f info s).state = s := rfl

@[simp] theorem Run.go_andThen (s : State) (k : State → Run) : (Run.go s).andThen k = k s := rfl
@[simp] theorem Run.raised_andThen (f : Cause) (info : Word) (s : State) (k : State → Run) :
    (Run.raised f info s).andThen k = .raised f info s := rfl

theorem Run.andThen_assoc (r : Run) (j k : State → Run) :
    (r.andThen j).andThen k = r.andThen (fun s => (j s).andThen k) := by
  cases r <;> rfl

@[simp] theorem Run.finishWith_go (last : State → State) (s : State) : (Run.go s).finishWith last = .next (last s) := rfl
@[simp] theorem Run.finishWith_raised (last : State → State) (f : Cause) (info : Word) (s : State) :
    (Run.raised f info s).finishWith last = .next (s.takeFault f info) := rfl
@[simp] theorem Run.finish_go (s : State) : (Run.go s).finish = .next s.complete := rfl
@[simp] theorem Run.finish_raised (f : Cause) (info : Word) (s : State) :
    (Run.raised f info s).finish = .next (s.takeFault f info) := rfl

/-- The two ends of an operation. -/
theorem Run.finishWith_cases {last : State → State} {r : Run} {t : State} (h : r.finishWith last = .next t) :
    (∃ s, r = .go s ∧ t = last s) ∨ ∃ f info s, r = .raised f info s ∧ t = s.takeFault f info := by
  cases r with
  | go s => exact .inl ⟨s, rfl, by simpa using h.symm⟩
  | raised f info s => exact .inr ⟨f, info, s, rfl, by simpa using h.symm⟩

/-- A relation that is transitive carries over `andThen`. -/
theorem Run.andThen_rel {R : State → State → Prop} (trans : ∀ {a b c}, R a b → R b c → R a c) {s : State} {r : Run}
    {k : State → Run} (hr : R s r.state) (hk : ∀ t, R t (k t).state) : R s (r.andThen k).state := by
  cases r with
  | go t => exact trans hr (hk t)
  | raised f info t => exact hr

/-- A reflexive and transitive relation that every turn of a loop keeps holds across the loop. -/
theorem Run.loop_rel {R : State → State → Prop} (refl : ∀ a, R a a) (trans : ∀ {a b c}, R a b → R b c → R a c)
    {body : Nat → State → Run} (hb : ∀ i s, R s (body i s).state) (a n : Nat) (s : State) :
    R s (Run.loop body a n s).state := by
  induction n generalizing a s with
  | zero => exact refl s
  | succ n ih => exact Run.andThen_rel (R := R) (k := Run.loop body (a + 1) n) trans (hb a s) (fun t => ih (a + 1) t)

theorem State.loop_rel {R : State → State → Prop} (refl : ∀ a, R a a) (trans : ∀ {a b c}, R a b → R b c → R a c)
    {body : Nat → State → State} (hb : ∀ i s, R s (body i s)) (a n : Nat) (s : State) :
    R s (State.loop body a n s) := by
  induction n generalizing a s with
  | zero => exact refl s
  | succ n ih => exact trans (hb a s) (ih (a + 1) _)

/-- The last turn of a loop, split off. -/
theorem State.loop_succ (body : Nat → State → State) (a n : Nat) (s : State) :
    State.loop body a (n + 1) s = body (a + n) (State.loop body a n s) := by
  induction n generalizing a s with
  | zero => rfl
  | succ n ih =>
    rw [State.loop, ih]
    simp [State.loop, Nat.add_assoc, Nat.add_comm 1 n]

/-- A loop whose turns all go on is a loop that cannot fault. -/
theorem Run.loop_go {body : Nat → State → Run} {f : Nat → State → State} {I : State → Prop}
    (hI : ∀ i s, I s → I (f i s)) (a n : Nat)
    (hb : ∀ i s, a ≤ i → i < a + n → I s → body i s = .go (f i s)) (s : State) (hs : I s) :
    Run.loop body a n s = .go (State.loop f a n s) := by
  induction n generalizing a s with
  | zero => rfl
  | succ n ih =>
    rw [Run.loop, hb a s le_rfl (by omega) hs, Run.go_andThen,
      ih (a + 1) (fun i s h1 h2 => hb i s (by omega) (by omega)) _ (hI a s hs)]
    rfl

/-- A loop can be cut at any turn. -/
theorem Run.loop_add (body : Nat → State → Run) (a m n : Nat) (s : State) :
    Run.loop body a (m + n) s = (Run.loop body a m s).andThen (Run.loop body (a + m) n) := by
  induction m generalizing a s with
  | zero => simp [Run.loop]
  | succ m ih =>
    rw [show m + 1 + n = m + n + 1 by omega, Run.loop, Run.loop, Run.andThen_assoc]
    congr 1
    funext t
    rw [ih, show a + 1 + m = a + (m + 1) by omega]

/-! ### Validity and asset reads -/

theorem State.requireValid_pos {s : State} (h : s.regs.Valid) (k : State → Run) : s.requireValid k = k s :=
  if_pos h

theorem State.requireValid_neg {s : State} (h : ¬ s.regs.Valid) (k : State → Run) :
    s.requireValid k = .raised .handleInvalid 0 s :=
  if_neg h

theorem State.requireValid_rel {R : State → State → Prop} {s : State} (refl : R s s) {k : State → Run}
    (hk : s.regs.Valid → R s (k s).state) : R s (s.requireValid k).state := by
  unfold State.requireValid
  split
  · exact hk ‹_›
  · exact refl

theorem State.withAsset_some {s : State} {a : Nat} {g : Byte} (h : s.asset a = some g) (k : Byte → Run) :
    s.withAsset a k = k g := by
  simp [State.withAsset, h]

theorem State.withAsset_none {s : State} {a : Nat} (h : s.asset a = none) (k : Byte → Run) :
    s.withAsset a k = .raised .assetRange (BitVec.ofNat 32 a) s := by
  simp [State.withAsset, h]

theorem State.withAsset_rel {R : State → State → Prop} {s : State} (refl : R s s) {a : Nat} {k : Byte → Run}
    (hk : ∀ g, s.asset a = some g → R s (k g).state) : R s (s.withAsset a k).state := by
  unfold State.withAsset
  split
  · exact hk _ ‹_›
  · exact refl

/-! ### The transmit port -/

@[simp] theorem Transport.after_zero (t : Transport) : t.after 0 = t := by
  cases t <;> rfl

theorem Transport.after_after (t : Transport) (m n : Nat) : (t.after m).after n = t.after (m + n) := by
  cases t <;> simp [Transport.after, Nat.sub_sub]

theorem Transport.reports_after {t : Transport} {m n : Nat} (h : t.Reports (m + n)) : (t.after m).Reports n := by
  cases t with
  | prompt => trivial
  | holdsAfter k => simp only [Transport.Reports, Transport.after] at h ⊢; omega

theorem Transport.reports_mono {t : Transport} {m n : Nat} (h : t.Reports n) (hmn : m ≤ n) : t.Reports m := by
  cases t with
  | prompt => trivial
  | holdsAfter k => simp only [Transport.Reports] at h ⊢; omega

/-- A transaction the transport reports at once. -/
theorem State.tx_reported {s : State} (h : s.env.transport.Reports 1) (tag : Tag) (bs : List Byte) (rest : Rest)
    (k : State → State) :
    s.tx tag bs rest k = k ((s.log ⟨s.regs.devaddr, tag, bs⟩).setTransport (s.env.transport.after 1)) := by
  obtain ⟨regs, fb, txlog, seq, ⟨assets, display, transport, owed, program, hostPc, issued, hostData, turns⟩⟩ := s
  cases transport with
  | prompt => rfl
  | holdsAfter n =>
    cases n with
    | zero => simp at h
    | succ n => rfl

/-- A transaction the transport holds: it is in TXLOG and the operation waits. -/
theorem State.tx_held {s : State} (h : s.env.transport = .holdsAfter 0) (tag : Tag) (bs : List Byte) (rest : Rest)
    (k : State → State) : s.tx tag bs rest k = (s.log ⟨s.regs.devaddr, tag, bs⟩).await rest := by
  simp only [State.tx, h]

/-- A transport reports the next transaction at once or holds it. -/
theorem Transport.reports_or_holds (t : Transport) : t.Reports 1 ∨ t = .holdsAfter 0 := by
  cases t with
  | prompt => exact .inl trivial
  | holdsAfter n =>
    cases n with
    | zero => exact .inr rfl
    | succ n => exact .inl (by simp)

/-- A relation that holds across a transaction and across waiting, and of what follows, holds across `Tx`. -/
theorem State.tx_rel {R : State → State → Prop} {s : State} {tag : Tag} {bs : List Byte} {rest : Rest}
    {k : State → State}
    (hgo : R s (k ((s.log ⟨s.regs.devaddr, tag, bs⟩).setTransport (s.env.transport.after 1))))
    (hwait : R s ((s.log ⟨s.regs.devaddr, tag, bs⟩).await rest)) : R s (s.tx tag bs rest k) := by
  rcases s.env.transport.reports_or_holds with h | h
  · rw [State.tx_reported h]
    exact hgo
  · rw [State.tx_held h]
    exact hwait

@[simp] theorem cmdTxs_nil (d : DevAddr) : cmdTxs d [] = [] := rfl
@[simp] theorem cmdTxs_cons (d : DevAddr) (b : Byte) (bs : List Byte) :
    cmdTxs d (b :: bs) = ⟨d, .cmd, [b]⟩ :: cmdTxs d bs := rfl

/-- Commands the transport reports at once, all of them: sent, the ending done, the operation complete. -/
theorem State.sendCmds_reported (e : Ending) (bs : List Byte) {s : State} (h : s.env.transport.Reports bs.length) :
    State.sendCmds e bs s =
      (e.run { s with txlog := s.txlog ++ cmdTxs s.regs.devaddr bs,
                      env := { s.env with transport := s.env.transport.after bs.length } }).complete := by
  induction bs generalizing s with
  | nil => simp [State.sendCmds]
  | cons b bs ih =>
    rw [List.length_cons, Nat.add_comm] at h
    rw [State.sendCmds, State.tx_reported (Transport.reports_mono h (by omega)), ih]
    · simp [Transport.after_after, Nat.add_comm, List.append_assoc, State.log, State.setTransport]
    · exact Transport.reports_after h

/-- Commands of which the transport reports only the first `n` at once: the `n+1` first are in TXLOG, and the operation
waits with the others before it. -/
theorem State.sendCmds_held (e : Ending) (bs : List Byte) {s : State} {n : Nat} (h : s.env.transport = .holdsAfter n)
    (hn : n < bs.length) :
    State.sendCmds e bs s =
      State.await { s with txlog := s.txlog ++ cmdTxs s.regs.devaddr (bs.take (n + 1)),
                           env := { s.env with transport := .holdsAfter 0 } } ⟨bs.drop (n + 1), e⟩ := by
  induction bs generalizing s n with
  | nil => simp at hn
  | cons b bs ih =>
    cases n with
    | zero =>
      rw [State.sendCmds, State.tx_held h]
      obtain ⟨regs, fb, txlog, seq, ⟨assets, display, transport, owed, program, hostPc, issued, hostData, turns⟩⟩ := s
      simp only at h
      subst h
      rfl
    | succ n =>
      have h1 : s.env.transport.Reports 1 := by rw [h]; simp
      rw [State.sendCmds, State.tx_reported h1, ih (n := n)]
      · simp [List.append_assoc, State.log, State.setTransport]
      · simp [h, Transport.after]
      · simpa using hn

/-- A relation that holds across one transaction, across waiting, and across the ending with completion, holds across a
list of commands. -/
theorem State.sendCmds_rel {R : State → State → Prop} (trans : ∀ {a b c}, R a b → R b c → R a c) (e : Ending)
    (hsend : ∀ (s : State) (b : Byte) (tr : Transport), R s ((s.log ⟨s.regs.devaddr, .cmd, [b]⟩).setTransport tr))
    (hwait : ∀ (s : State) (b : Byte) (rest : Rest), R s ((s.log ⟨s.regs.devaddr, .cmd, [b]⟩).await rest))
    (hend : ∀ s, R s (e.run s).complete) (bs : List Byte) (s : State) : R s (State.sendCmds e bs s) := by
  induction bs generalizing s with
  | nil => exact hend s
  | cons b bs ih => exact State.tx_rel (trans (hsend s b _) (ih _)) (hwait s b _)

/-! ### Two runs that differ only in the transport -/

/-- What follows a held transaction is what would have followed it at once: with the report delivered and the transport
prompt from then on, the operation ends in the state it would have ended in at a prompt transport. -/
theorem State.sendCmds_late (e : Ending) (bs : List Byte) {s : State} {n : Nat} (h : s.env.transport = .holdsAfter n)
    (hn : n < bs.length) (ts : List Turn) :
    Rest.run ⟨bs.drop (n + 1), e⟩
        ((((State.sendCmds e bs s).setTurns ts).setTransport .prompt).setOwed false) =
      State.sendCmds e bs (((s.setTurns ts).setTransport .prompt).setOwed false) := by
  rw [State.sendCmds_held e bs h hn, Rest.run, State.sendCmds_reported e _ (by trivial),
    State.sendCmds_reported e _ (by trivial)]
  have hcat : cmdTxs s.regs.devaddr (bs.take (n + 1)) ++ cmdTxs s.regs.devaddr (bs.drop (n + 1)) =
      cmdTxs s.regs.devaddr bs := by
    simp only [cmdTxs, ← List.map_append, List.take_append_drop]
  cases e <;>
    simp [Ending.run, State.complete, State.await, State.setTransport, State.setOwed, State.setTurns, State.setBusy,
      State.setSeq, State.setPwr, State.setPhase, Regs.setPwr, Regs.setPhase, Regs.phase, Regs.pwr, Transport.after,
      List.append_assoc, hcat]

end Sys2Proof.Machine
end

