-- ==== Sys2Proof/Laws/Pixel.lean ====
section
/-! SUPPORT. The pixel addressing arithmetic and the pixel primitive: bounds, injectivity, what PutPixel changes. -/

namespace Sys2Proof.Machine

/-! ### Addressing -/

theorem bitIndex_lt (py : Nat) : bitIndex py < 8 := Nat.mod_lt _ (by decide)

/-- A valid handle's buffer is a whole number of pages. -/
theorem Regs.Valid.bufsize_eq {r : Regs} (h : r.Valid) :
    r.bufsize.toNat = (r.height.toNat / 8) * r.width.toNat := by
  obtain ⟨-, -, -, hb, hm, -, -⟩ := h
  obtain ⟨k, hk⟩ := Nat.dvd_of_mod_eq_zero hm
  rw [hb, hk, show r.width.toNat * (Config.pageH * k) = Config.pageH * (k * r.width.toNat) by ring,
    Nat.mul_div_cancel_left _ (by decide)]
  congr 1
  exact (Nat.mul_div_cancel_left k (by decide)).symm

/-- A valid handle's buffer fits the memory that exists (20_memory R52). -/
theorem Regs.Valid.bufsize_le {r : Regs} (h : r.Valid) : r.bufsize.toNat ≤ Config.fbCap := by
  have hb := h.bufsize_eq
  obtain ⟨-, -, -, -, -, hw, hh⟩ := h
  have h1 : r.height.toNat / 8 ≤ 32 := by
    have : r.height.toNat ≤ 256 := hh
    omega
  calc r.bufsize.toNat = (r.height.toNat / 8) * r.width.toNat := hb
    _ ≤ 32 * 256 := Nat.mul_le_mul h1 hw
    _ = Config.fbCap := rfl

/-- A valid handle's buffer is not empty (44_device_session R166). -/
theorem Regs.Valid.bufsize_pos {r : Regs} (h : r.Valid) : 1 ≤ r.bufsize.toNat := by
  have hb := h.bufsize_eq
  obtain ⟨-, hw, hh, -, hm, -, -⟩ := h
  have h1 : 1 ≤ r.height.toNat / 8 := by
    have : r.height.toNat % 8 = 0 := hm
    omega
  rw [hb]
  exact Nat.mul_pos h1 (by omega)

/-- The byte of an in-range pixel lies in the buffer (20_memory R52). -/
theorem Regs.Valid.byteIndex_lt {r : Regs} (h : r.Valid) {px py : Nat} (hp : r.InRange px py) :
    byteIndex r.width.toNat px py < r.bufsize.toNat := by
  rw [h.bufsize_eq]
  obtain ⟨-, -, -, -, hm, -, -⟩ := h
  obtain ⟨hx, hy⟩ := hp
  have hpage : py / 8 + 1 ≤ r.height.toNat / 8 := by
    have : r.height.toNat % 8 = 0 := hm
    omega
  calc px + py / 8 * r.width.toNat < r.width.toNat + py / 8 * r.width.toNat := by omega
    _ = (py / 8 + 1) * r.width.toNat := by ring
    _ ≤ _ := Nat.mul_le_mul_right _ hpage

/-- Two pixels with columns on the display share a bit only when they are the same (20_memory R51). -/
theorem pixel_bits_injective {W px py qx qy : Nat} (hp : px < W) (hq : qx < W)
    (ha : byteIndex W px py = byteIndex W qx qy) (hb : bitIndex py = bitIndex qy) : px = qx ∧ py = qy := by
  have hW : 0 < W := by omega
  have hpage : py / 8 = qy / 8 := by
    have h1 : (px + py / 8 * W) / W = py / 8 := by
      rw [Nat.add_mul_div_right _ _ hW, Nat.div_eq_of_lt hp, Nat.zero_add]
    have h2 : (qx + qy / 8 * W) / W = qy / 8 := by
      rw [Nat.add_mul_div_right _ _ hW, Nat.div_eq_of_lt hq, Nat.zero_add]
    rw [← h1, ← h2]
    exact congrArg (· / W) ha
  have hbit : py % 8 = qy % 8 := hb
  have hcol : px + py / 8 * W = qx + qy / 8 * W := ha
  rw [hpage] at hcol
  omega

/-! ### One bit of a byte -/

theorem getLsbD_colourByte (v : Byte) {b k : Nat} (hb : b < 8) (hk : k < 8) (c : Bit) :
    (colourByte v b c).getLsbD k = if k = b then (c == 0) else v.getLsbD k := by
  have hone : (1#8 <<< b).getLsbD k = decide (k = b) := by
    rw [BitVec.getLsbD_shiftLeft, BitVec.getLsbD_one]
    by_cases h : k = b
    · simp [h, hb]
    · simp only [h, decide_false]
      by_cases h2 : k < b
      · simp [h2]
      · have : k - b ≠ 0 := by omega
        simp [this]
  unfold colourByte setBitOf clearBitOf
  split
  · rename_i hc
    rw [BitVec.getLsbD_or, hone, hc]
    by_cases h : k = b <;> simp [h]
  · rename_i hc
    have hc' : (c == 0) = false := by simpa using hc
    rw [BitVec.getLsbD_and, BitVec.getLsbD_not, hone, hc']
    by_cases h : k = b <;> simp [h, hk]

/-! ### PutPixel -/

@[simp] theorem putPixel_regs (px py : Nat) (c : Bit) (s : State) : (putPixel px py c s).regs = s.regs := by
  unfold putPixel
  split <;> rfl

@[simp] theorem putPixel_txlog (px py : Nat) (c : Bit) (s : State) : (putPixel px py c s).txlog = s.txlog := by
  unfold putPixel
  split <;> rfl

@[simp] theorem putPixel_seq (px py : Nat) (c : Bit) (s : State) : (putPixel px py c s).seq = s.seq := by
  unfold putPixel
  split <;> rfl

@[simp] theorem putPixel_env (px py : Nat) (c : Bit) (s : State) : (putPixel px py c s).env = s.env := by
  unfold putPixel
  split <;> rfl

theorem putPixel_outOfRange {px py : Nat} {c : Bit} {s : State} (h : ¬ s.regs.InRange px py) :
    putPixel px py c s = s :=
  if_neg h

theorem putPixel_inRange {px py : Nat} {c : Bit} {s : State} (h : s.regs.InRange px py) :
    putPixel px py c s =
      s.writeFb (byteIndex s.regs.width.toNat px py)
        (colourByte (s.readFb (byteIndex s.regs.width.toNat px py)) (bitIndex py) c) :=
  if_pos h

/-- PutPixel writes no byte but the one that holds the pixel, and none when it is out of range. -/
theorem putPixel_readFb_other {px py : Nat} (c : Bit) {s : State} {a : Nat}
    (h : s.regs.InRange px py → a ≠ byteIndex s.regs.width.toNat px py) :
    (putPixel px py c s).readFb a = s.readFb a := by
  by_cases hr : s.regs.InRange px py
  · rw [putPixel_inRange hr]
    exact Memory.read_write_other _ (h hr) _
  · rw [putPixel_outOfRange hr]

/-- The pixel PutPixel names reads the colour's bit afterwards; every other pixel with its column on the display reads as
before. -/
theorem putPixel_pixel (px py : Nat) (c : Bit) (s : State) {qx qy : Nat} (hq : qx < s.regs.width.toNat) :
    (putPixel px py c s).pixel qx qy =
      if s.regs.InRange px py ∧ qx = px ∧ qy = py then (c == 0) else s.pixel qx qy := by
  by_cases hr : s.regs.InRange px py
  · rw [putPixel_inRange hr]
    simp only [State.pixel, State.getBit, State.readFb, State.writeFb_fb, State.writeFb_regs, Memory.read_write]
    by_cases ha : byteIndex s.regs.width.toNat qx qy = byteIndex s.regs.width.toNat px py
    · rw [if_pos ha, getLsbD_colourByte _ (bitIndex_lt py) (bitIndex_lt qy)]
      by_cases hb : bitIndex qy = bitIndex py
      · have := pixel_bits_injective hq hr.1 ha hb
        rw [if_pos hb, if_pos ⟨hr, this⟩]
      · rw [if_neg hb, if_neg (by rintro ⟨-, -, rfl⟩; exact hb rfl), ha]
    · rw [if_neg ha, if_neg (by rintro ⟨-, rfl, rfl⟩; exact ha rfl)]
  · rw [putPixel_outOfRange hr, if_neg (fun h => hr h.1)]

theorem putPixel_wf {px py : Nat} (c : Bit) {s : State} (hv : s.regs.Valid) (h : Memory.wf s.fb) :
    Memory.wf (putPixel px py c s).fb := by
  by_cases hr : s.regs.InRange px py
  · rw [putPixel_inRange hr]
    exact Memory.wf_write h (lt_of_lt_of_le (hv.byteIndex_lt hr) hv.bufsize_le) _
  · rwa [putPixel_outOfRange hr]

end Sys2Proof.Machine
end

