-- ==== Sys2Proof/Laws/Draw.lean ====
section
/-! SUPPORT. What the drawing routines can do: their frame on every ending (`Drawn`), and what the bitmap, the glyph
column, the glyph cell and the string leave in the framebuffer when no read faults. -/

namespace Sys2Proof.Machine

/-! ### The frame of every drawing routine -/

/-- `t` is `s` after some drawing: only the cursor and framebuffer bytes below BUFSIZE may differ, and a canonical
framebuffer stays canonical. -/
structure Drawn (s t : State) : Prop where
  regs  : t.regs = { s.regs with curx := t.regs.curx, cury := t.regs.cury }
  txlog : t.txlog = s.txlog
  seq   : t.seq = s.seq
  env   : t.env = s.env
  wf    : s.regs.Valid → Memory.wf s.fb → Memory.wf t.fb
  above : s.regs.Valid → ∀ a, s.regs.bufsize.toNat ≤ a → t.readFb a = s.readFb a

theorem Drawn.refl (s : State) : Drawn s s := ⟨rfl, rfl, rfl, rfl, fun _ h => h, fun _ _ _ => rfl⟩

theorem Drawn.valid {s t : State} (h : Drawn s t) (hv : s.regs.Valid) : t.regs.Valid := by
  rw [h.regs]
  exact hv

theorem Drawn.bufsize {s t : State} (h : Drawn s t) : t.regs.bufsize = s.regs.bufsize := by
  rw [h.regs]

theorem Drawn.trans {s t u : State} (h : Drawn s t) (k : Drawn t u) : Drawn s u where
  regs := by rw [k.regs, h.regs]
  txlog := k.txlog.trans h.txlog
  seq := k.seq.trans h.seq
  env := k.env.trans h.env
  wf := fun hv hw => k.wf (h.valid hv) (h.wf hv hw)
  above := fun hv a ha => (k.above (h.valid hv) a (by rwa [h.bufsize])).trans (h.above hv a ha)

theorem Drawn.putPixel (px py : Nat) (c : Bit) (s : State) : Drawn s (putPixel px py c s) where
  regs := by simp
  txlog := by simp
  seq := by simp
  env := by simp
  wf := fun hv hw => putPixel_wf c hv hw
  above := fun hv a ha => putPixel_readFb_other c fun hr => by
    have := hv.byteIndex_lt hr
    omega

theorem Drawn.setCursor (x y : Half) (s : State) : Drawn s (s.setCursor x y) :=
  ⟨rfl, rfl, rfl, rfl, fun _ h => h, fun _ _ _ => rfl⟩

theorem Drawn.setCurx (x : Half) (s : State) : Drawn s (s.setCurx x) :=
  ⟨rfl, rfl, rfl, rfl, fun _ h => h, fun _ _ _ => rfl⟩

theorem Drawn.blit (x y src w : Nat) (c : Bit) (h : Nat) (s : State) :
    Drawn s (Run.loop (blitRow x y src w c) 0 h s).state :=
  Run.loop_rel Drawn.refl Drawn.trans
    (fun j s => Run.loop_rel Drawn.refl Drawn.trans
      (fun i s => State.withAsset_rel (Drawn.refl s) fun sb _ => by
        simp only [Run.state_go]
        split
        · exact Drawn.putPixel _ _ _ _
        · exact Drawn.refl _) 0 w s) 0 h s

theorem Drawn.paintColumn (px py fh : Nat) (g : Byte) (c : Bit) (s : State) : Drawn s (paintColumn px py fh g c s) :=
  State.loop_rel Drawn.refl Drawn.trans (fun _ _ => Drawn.putPixel _ _ _ _) 0 fh s

theorem Drawn.drawChar (font : Font) (ch : Byte) (px py : Half) (c : Bit) (s : State) :
    Drawn s (drawChar font ch px py c s).state := by
  unfold Machine.drawChar charChecks
  split
  · split
    · exact Drawn.refl s
    · refine Run.andThen_rel (R := Drawn) Drawn.trans ?_ (fun t => Drawn.setCurx _ t)
      exact (Drawn.setCursor px py s).trans
        (Run.loop_rel Drawn.refl Drawn.trans
          (fun i s => State.withAsset_rel (Drawn.refl s) fun g _ => Drawn.paintColumn _ _ _ _ _ _) 0 _ _)
  · exact Drawn.refl s

theorem Drawn.drawText (font : Font) (c : Bit) (left : Nat) (s : State) : Drawn s (drawText font c left s).state := by
  induction left generalizing s with
  | zero => exact Drawn.refl s
  | succ left ih =>
    refine State.withAsset_rel (Drawn.refl s) fun ch _ => ?_
    split
    · exact Drawn.refl s
    · exact Run.andThen_rel (R := Drawn) Drawn.trans (Drawn.drawChar _ _ _ _ _ _) ih

/-! ### Loops that set one thing -/

theorem State.loop_inv {body : Nat → State → State} {J : State → Prop} (a n : Nat)
    (hJ : ∀ i s, a ≤ i → i < a + n → J s → J (body i s)) (s : State) (hs : J s) : J (State.loop body a n s) := by
  induction n generalizing a s with
  | zero => exact hs
  | succ n ih =>
    exact ih (a + 1) (fun i s h1 h2 => hJ i s (by omega) (by omega)) _ (hJ a s le_rfl (by omega) hs)

/-- A loop in which the turns that satisfy `P` set an observation to `v` and the others keep it. -/
theorem State.loop_set {α : Type} {body : Nat → State → State} {J : State → Prop} {val : State → α} {P : Nat → Prop}
    {v : α} (a n : Nat) (hJ : ∀ i s, a ≤ i → i < a + n → J s → J (body i s))
    (hset : ∀ i s, a ≤ i → i < a + n → J s → P i → val (body i s) = v)
    (hkeep : ∀ i s, a ≤ i → i < a + n → J s → ¬ P i → val (body i s) = val s) (s : State) (hs : J s) :
    ((∃ i, a ≤ i ∧ i < a + n ∧ P i) → val (State.loop body a n s) = v) ∧
    ((¬ ∃ i, a ≤ i ∧ i < a + n ∧ P i) → val (State.loop body a n s) = val s) := by
  induction n with
  | zero =>
    refine ⟨fun ⟨i, h1, h2, _⟩ => by omega, fun _ => rfl⟩
  | succ n ih =>
    have ih := ih (fun i s h1 h2 => hJ i s h1 (by omega)) (fun i s h1 h2 => hset i s h1 (by omega))
      (fun i s h1 h2 => hkeep i s h1 (by omega))
    have hl : J (State.loop body a n s) :=
      State.loop_inv a n (fun i s h1 h2 => hJ i s h1 (by omega)) s hs
    rw [State.loop_succ]
    by_cases hp : P (a + n)
    · exact ⟨fun _ => hset _ _ (by omega) (by omega) hl hp, fun h => absurd ⟨a + n, by omega, by omega, hp⟩ h⟩
    · refine ⟨fun ⟨i, h1, h2, h3⟩ => ?_, fun h => ?_⟩
      · have hi : i ≠ a + n := fun he => hp (he ▸ h3)
        rw [hkeep _ _ (by omega) (by omega) hl hp]
        exact ih.1 ⟨i, h1, by omega, h3⟩
      · rw [hkeep _ _ (by omega) (by omega) hl hp]
        exact ih.2 fun ⟨i, h1, h2, h3⟩ => h ⟨i, h1, by omega, h3⟩

/-! ### Bitmaps -/

/-- The state after column `i` of row `j` when its byte can be read. -/
def blitColumnState (x y src w : Nat) (c : Bit) (j i : Nat) (s : State) : State :=
  match s.asset (bitmapAddr src w i j) with
  | some sb => if bitmapBit sb i then putPixel (x + i) (y + j) c s else s
  | none => s

/-- The state after row `j` when its bytes can be read. -/
def blitRowState (x y src w : Nat) (c : Bit) (j : Nat) (s : State) : State :=
  State.loop (blitColumnState x y src w c j) 0 w s

/-- Same registers and same surroundings: what the bitmap loops keep. -/
def SameSetting (s t : State) : Prop := t.regs = s.regs ∧ t.env = s.env ∧ t.txlog = s.txlog

theorem SameSetting.asset {s t : State} (h : SameSetting s t) (a : Nat) : t.asset a = s.asset a :=
  State.asset_congr (by rw [h.2.1]) a

theorem blitColumnState_setting {s t : State} (h : SameSetting s t) (x y src w : Nat) (c : Bit) (j i : Nat) :
    SameSetting s (blitColumnState x y src w c j i t) := by
  unfold blitColumnState
  split
  · split
    · exact ⟨by simp [h.1], by simp [h.2.1], by simp [h.2.2]⟩
    · exact h
  · exact h

theorem blitRowState_setting {s t : State} (h : SameSetting s t) (x y src w : Nat) (c : Bit) (j : Nat) :
    SameSetting s (blitRowState x y src w c j t) :=
  State.loop_inv (J := SameSetting s) 0 w (fun i _ _ _ hs => blitColumnState_setting hs x y src w c j i) t h

theorem blitColumnState_of_bit {s t : State} (h : SameSetting s t) {x y src w : Nat} {c : Bit} {j i : Nat}
    (hb : SourceBit s src w i j) : blitColumnState x y src w c j i t = putPixel (x + i) (y + j) c t := by
  obtain ⟨sb, h1, h2⟩ := hb
  rw [← h.asset] at h1
  simp [blitColumnState, h1, h2]

theorem blitColumnState_of_no_bit {s t : State} (h : SameSetting s t) {x y src w : Nat} {c : Bit} {j i : Nat}
    (hb : ¬ SourceBit s src w i j) : blitColumnState x y src w c j i t = t := by
  unfold blitColumnState
  split
  · rename_i sb h1
    rw [if_neg]
    intro h2
    exact hb ⟨sb, by rw [← h.asset]; exact h1, h2⟩
  · rfl

/-- The pixels a run of columns of one row sets, and those it keeps. -/
theorem blitColumns_pixel {s t : State} (h : SameSetting s t) (x y src w : Nat) (c : Bit) (j n : Nat) {qx qy : Nat}
    (hq : s.regs.InRange qx qy) :
    ((∃ i, i < n ∧ SourceBit s src w i j ∧ qx = x + i ∧ qy = y + j) →
      (State.loop (blitColumnState x y src w c j) 0 n t).pixel qx qy = (c == 0)) ∧
    ((¬ ∃ i, i < n ∧ SourceBit s src w i j ∧ qx = x + i ∧ qy = y + j) →
      (State.loop (blitColumnState x y src w c j) 0 n t).pixel qx qy = t.pixel qx qy) := by
  have key := State.loop_set (body := blitColumnState x y src w c j) (J := SameSetting s)
    (val := fun u => u.pixel qx qy) (P := fun i => SourceBit s src w i j ∧ qx = x + i ∧ qy = y + j) (v := (c == 0))
    0 n (fun i u _ _ hu => blitColumnState_setting hu x y src w c j i)
    (fun i u _ _ hu hp => by
      obtain ⟨hbit, rfl, rfl⟩ := hp
      simp only [blitColumnState_of_bit hu hbit]
      rw [putPixel_pixel _ _ _ _ (by rw [hu.1]; exact hq.1), if_pos ⟨by rw [hu.1]; exact hq, rfl, rfl⟩])
    (fun i u _ _ hu hp => by
      by_cases hbit : SourceBit s src w i j
      · simp only [blitColumnState_of_bit hu hbit]
        rw [putPixel_pixel _ _ _ _ (by rw [hu.1]; exact hq.1), if_neg (fun hh => hp ⟨hbit, hh.2⟩)]
      · simp only [blitColumnState_of_no_bit hu hbit])
    t h
  simpa using key

/-- The pixels a run of rows sets, and those it keeps. -/
theorem blitRows_pixel {s t : State} (h : SameSetting s t) (x y src w : Nat) (c : Bit) (n : Nat) {qx qy : Nat}
    (hq : s.regs.InRange qx qy) :
    ((∃ j, j < n ∧ ∃ i, i < w ∧ SourceBit s src w i j ∧ qx = x + i ∧ qy = y + j) →
      (State.loop (blitRowState x y src w c) 0 n t).pixel qx qy = (c == 0)) ∧
    ((¬ ∃ j, j < n ∧ ∃ i, i < w ∧ SourceBit s src w i j ∧ qx = x + i ∧ qy = y + j) →
      (State.loop (blitRowState x y src w c) 0 n t).pixel qx qy = t.pixel qx qy) := by
  have key := State.loop_set (body := blitRowState x y src w c) (J := SameSetting s)
    (val := fun u => u.pixel qx qy) (P := fun j => ∃ i, i < w ∧ SourceBit s src w i j ∧ qx = x + i ∧ qy = y + j)
    (v := (c == 0)) 0 n (fun j u _ _ hu => blitRowState_setting hu x y src w c j)
    (fun j u _ _ hu hp => (blitColumns_pixel hu x y src w c j w hq).1 hp)
    (fun j u _ _ hu hp => (blitColumns_pixel hu x y src w c j w hq).2 hp)
    t h
  simpa using key

/-- The bytes a run of columns of one row leaves alone. -/
theorem blitColumns_readFb {s t : State} (h : SameSetting s t) (x y src w : Nat) (c : Bit) (j n : Nat) {a : Nat}
    (ha : ∀ i, i < n → SourceBit s src w i j → s.regs.InRange (x + i) (y + j) →
      a ≠ byteIndex s.regs.width.toNat (x + i) (y + j)) :
    (State.loop (blitColumnState x y src w c j) 0 n t).readFb a = t.readFb a := by
  have key := State.loop_inv (body := blitColumnState x y src w c j)
    (J := fun u => SameSetting s u ∧ u.readFb a = t.readFb a) 0 n
    (fun i u _ hi hu => ⟨blitColumnState_setting hu.1 x y src w c j i, by
      by_cases hbit : SourceBit s src w i j
      · rw [blitColumnState_of_bit hu.1 hbit, putPixel_readFb_other, hu.2]
        rw [hu.1.1]
        exact ha i (by omega) hbit
      · rw [blitColumnState_of_no_bit hu.1 hbit, hu.2]⟩) t ⟨h, rfl⟩
  exact key.2

/-- The bytes a run of rows leaves alone. -/
theorem blitRows_readFb {s t : State} (h : SameSetting s t) (x y src w : Nat) (c : Bit) (n : Nat) {a : Nat}
    (ha : ∀ j, j < n → ∀ i, i < w → SourceBit s src w i j → s.regs.InRange (x + i) (y + j) →
      a ≠ byteIndex s.regs.width.toNat (x + i) (y + j)) :
    (State.loop (blitRowState x y src w c) 0 n t).readFb a = t.readFb a := by
  have key := State.loop_inv (body := blitRowState x y src w c)
    (J := fun u => SameSetting s u ∧ u.readFb a = t.readFb a) 0 n
    (fun j u _ hj hu => ⟨blitRowState_setting hu.1 x y src w c j,
      (blitColumns_readFb hu.1 x y src w c j w (ha j (by omega))).trans hu.2⟩) t ⟨h, rfl⟩
  exact key.2

/-- Columns whose bytes can be read all go on. -/
theorem blitColumns_go {s t : State} (h : SameSetting s t) (x y src w : Nat) (c : Bit) (j n : Nat)
    (hr : ∀ i, i < n → (s.asset (bitmapAddr src w i j)).isSome) :
    Run.loop (blitColumn x y src w c j) 0 n t = .go (State.loop (blitColumnState x y src w c j) 0 n t) :=
  Run.loop_go (I := SameSetting s) (fun i _ hu => blitColumnState_setting hu x y src w c j i) 0 n
    (fun i u _ hi hu => by
      obtain ⟨sb, hsb⟩ := Option.isSome_iff_exists.1 (hr i (by omega))
      rw [← hu.asset] at hsb
      simp [blitColumn, State.withAsset, hsb, blitColumnState]) t h

/-- Rows whose bytes can be read all go on. -/
theorem blitRows_go {s t : State} (h : SameSetting s t) (x y src w : Nat) (c : Bit) (n : Nat)
    (hr : ∀ j, j < n → ∀ i, i < w → (s.asset (bitmapAddr src w i j)).isSome) :
    Run.loop (blitRow x y src w c) 0 n t = .go (State.loop (blitRowState x y src w c) 0 n t) :=
  Run.loop_go (I := SameSetting s) (fun j _ hu => blitRowState_setting hu x y src w c j) 0 n
    (fun j _ _ hj hu => blitColumns_go hu x y src w c j w (hr j (by omega))) t h

/-- The first unreadable byte: every row before `j0` and every column before `i0` of row `j0` can be read, and the byte of
column `i0` cannot. -/
theorem blitRows_raised {s t : State} (h : SameSetting s t) (x y src w : Nat) (c : Bit) {n j0 i0 : Nat} (hj0 : j0 < n)
    (hi0 : i0 < w) (hrows : ∀ j, j < j0 → ∀ i, i < w → (s.asset (bitmapAddr src w i j)).isSome)
    (hcols : ∀ i, i < i0 → (s.asset (bitmapAddr src w i j0)).isSome)
    (hbad : s.asset (bitmapAddr src w i0 j0) = none) :
    Run.loop (blitRow x y src w c) 0 n t =
      .raised .assetRange (BitVec.ofNat 32 (bitmapAddr src w i0 j0))
        (State.loop (blitColumnState x y src w c j0) 0 i0 (State.loop (blitRowState x y src w c) 0 j0 t)) := by
  have h1 : SameSetting s (State.loop (blitRowState x y src w c) 0 j0 t) :=
    State.loop_inv (J := SameSetting s) 0 j0 (fun j _ _ _ hu => blitRowState_setting hu x y src w c j) t h
  have h2 : SameSetting s (State.loop (blitColumnState x y src w c j0) 0 i0
      (State.loop (blitRowState x y src w c) 0 j0 t)) :=
    State.loop_inv (J := SameSetting s) 0 i0 (fun i _ _ _ hu => blitColumnState_setting hu x y src w c j0 i) _ h1
  obtain ⟨m, rfl⟩ : ∃ m, n = j0 + (m + 1) := ⟨n - j0 - 1, by omega⟩
  obtain ⟨k, hk⟩ : ∃ k, w = i0 + (k + 1) := ⟨w - i0 - 1, by omega⟩
  have hrow : blitRow x y src w c j0 (State.loop (blitRowState x y src w c) 0 j0 t) =
      .raised .assetRange (BitVec.ofNat 32 (bitmapAddr src w i0 j0))
        (State.loop (blitColumnState x y src w c j0) 0 i0 (State.loop (blitRowState x y src w c) 0 j0 t)) := by
    have hcut := Run.loop_add (blitColumn x y src w c j0) 0 i0 (k + 1) (State.loop (blitRowState x y src w c) 0 j0 t)
    rw [← hk] at hcut
    rw [blitRow, hcut, blitColumns_go h1 x y src w c j0 i0 hcols, Run.go_andThen, Run.loop, Nat.zero_add, blitColumn,
      State.withAsset_none (by rw [h2.asset]; exact hbad), Run.raised_andThen]
  rw [Run.loop_add, blitRows_go h x y src w c j0 hrows, Run.go_andThen, Run.loop, Nat.zero_add, hrow,
    Run.raised_andThen]

/-! ### Glyphs -/

@[simp] theorem paintColumn_regs (px py fh : Nat) (g : Byte) (c : Bit) (s : State) :
    (paintColumn px py fh g c s).regs = s.regs :=
  State.loop_inv (J := fun u => u.regs = s.regs) 0 fh (fun _ _ _ _ h => by simpa [paintGlyphRow] using h) s rfl

@[simp] theorem paintColumn_env (px py fh : Nat) (g : Byte) (c : Bit) (s : State) :
    (paintColumn px py fh g c s).env = s.env :=
  State.loop_inv (J := fun u => u.env = s.env) 0 fh (fun _ _ _ _ h => by simpa [paintGlyphRow] using h) s rfl

@[simp] theorem paintColumn_txlog (px py fh : Nat) (g : Byte) (c : Bit) (s : State) :
    (paintColumn px py fh g c s).txlog = s.txlog :=
  State.loop_inv (J := fun u => u.txlog = s.txlog) 0 fh (fun _ _ _ _ h => by simpa [paintGlyphRow] using h) s rfl

/-- A pixel of the cell column reads the colour of its glyph row (42_glyph_rasterizer R132). -/
theorem paintColumn_pixel_in {px py fh : Nat} (g : Byte) (c : Bit) {s : State} {qy : Nat}
    (hq : s.regs.InRange px qy) (h1 : py + 1 ≤ qy) (h2 : qy ≤ py + fh) :
    (paintColumn px py fh g c s).pixel px qy = (glyphColour g (py + fh - qy) c == 0) := by
  have key := State.loop_set (body := paintGlyphRow px py fh g c) (J := fun u => u.regs = s.regs)
    (val := fun u => u.pixel px qy) (P := fun j => j = py + fh - qy) (v := (glyphColour g (py + fh - qy) c == 0))
    0 fh (fun _ _ _ _ h => by simpa [paintGlyphRow] using h)
    (fun j u _ _ hu hp => by
      subst hp
      rw [show paintGlyphRow px py fh g c (py + fh - qy) u = putPixel px qy (glyphColour g (py + fh - qy) c) u by
        simp only [paintGlyphRow, glyphRow]; congr 1; omega]
      rw [putPixel_pixel _ _ _ _ (by rw [hu]; exact hq.1), if_pos ⟨by rw [hu]; exact hq, rfl, rfl⟩])
    (fun j u _ hj hu hp => by
      simp only [paintGlyphRow]
      rw [putPixel_pixel _ _ _ _ (by rw [hu]; exact hq.1), if_neg]
      rintro ⟨-, -, h⟩
      simp only [glyphRow] at h
      omega)
    s rfl
  exact key.1 ⟨py + fh - qy, by omega, by omega, rfl⟩

/-- A pixel outside the cell column reads as before. -/
theorem paintColumn_pixel_out {px py fh : Nat} (g : Byte) (c : Bit) {s : State} {qx qy : Nat}
    (hq : qx < s.regs.width.toNat) (h : ¬ (qx = px ∧ py + 1 ≤ qy ∧ qy ≤ py + fh)) :
    (paintColumn px py fh g c s).pixel qx qy = s.pixel qx qy := by
  have key := State.loop_inv (body := paintGlyphRow px py fh g c)
    (J := fun u => u.regs = s.regs ∧ u.pixel qx qy = s.pixel qx qy) 0 fh
    (fun j u _ hj hu => ⟨by simpa [paintGlyphRow] using hu.1, by
      rw [paintGlyphRow, putPixel_pixel _ _ _ _ (by rw [hu.1]; exact hq), if_neg, hu.2]
      rintro ⟨-, h1, h2⟩
      simp only [glyphRow] at h2
      exact h ⟨h1, by omega, by omega⟩⟩) s ⟨rfl, rfl⟩
  exact key.2

/-- The bytes a cell column leaves alone. -/
theorem paintColumn_readFb {px py fh : Nat} (g : Byte) (c : Bit) {s : State} {a : Nat}
    (ha : ∀ qy, py + 1 ≤ qy → qy ≤ py + fh → s.regs.InRange px qy → a ≠ byteIndex s.regs.width.toNat px qy) :
    (paintColumn px py fh g c s).readFb a = s.readFb a := by
  have key := State.loop_inv (body := paintGlyphRow px py fh g c)
    (J := fun u => u.regs = s.regs ∧ u.readFb a = s.readFb a) 0 fh
    (fun j u _ hj hu => ⟨by simpa [paintGlyphRow] using hu.1, by
      rw [paintGlyphRow, putPixel_readFb_other, hu.2]
      rw [hu.1]
      exact ha _ (by simp only [glyphRow]; omega) (by simp only [glyphRow]; omega)⟩) s ⟨rfl, rfl⟩
  exact key.2

/-- The state after column `i` of a character when its glyph byte can be read. -/
def drawColumnState (font : Font) (ch : Byte) (px py : Nat) (c : Bit) (i : Nat) (s : State) : State :=
  match s.asset (glyphAddr font.fbase.toNat font.fw.toNat ch.toNat i) with
  | some g => paintColumn (px + i) py font.fh.toNat g c s
  | none => s

theorem drawColumnState_setting {s t : State} (h : SameSetting s t) (font : Font) (ch : Byte) (px py : Nat) (c : Bit)
    (i : Nat) : SameSetting s (drawColumnState font ch px py c i t) := by
  unfold drawColumnState
  split
  · exact ⟨by simp [h.1], by simp [h.2.1], by simp [h.2.2]⟩
  · exact h

theorem drawColumnState_of_byte {s t : State} (h : SameSetting s t) {font : Font} {ch : Byte} {px py : Nat} {c : Bit}
    {i : Nat} {g : Byte} (hg : s.asset (glyphAddr font.fbase.toNat font.fw.toNat ch.toNat i) = some g) :
    drawColumnState font ch px py c i t = paintColumn (px + i) py font.fh.toNat g c t := by
  rw [← h.asset] at hg
  simp [drawColumnState, hg]

/-- A pixel in column `i` of the part of the cell that is drawn reads its glyph's colour. -/
theorem drawColumns_pixel_in {s t : State} (h : SameSetting s t) (font : Font) (ch : Byte) (px py : Nat) (c : Bit)
    {n i qy : Nat} (hi : i < n) {g : Byte}
    (hg : s.asset (glyphAddr font.fbase.toNat font.fw.toNat ch.toNat i) = some g)
    (hq : s.regs.InRange (px + i) qy) (h1 : py + 1 ≤ qy) (h2 : qy ≤ py + font.fh.toNat) :
    (State.loop (drawColumnState font ch px py c) 0 n t).pixel (px + i) qy =
      (glyphColour g (py + font.fh.toNat - qy) c == 0) := by
  have key := State.loop_set (body := drawColumnState font ch px py c) (J := SameSetting s)
    (val := fun u => u.pixel (px + i) qy) (P := fun k => k = i)
    (v := (glyphColour g (py + font.fh.toNat - qy) c == 0)) 0 n
    (fun k _ _ _ hu => drawColumnState_setting hu font ch px py c k)
    (fun k u _ _ hu hp => by
      subst hp
      simp only [drawColumnState_of_byte hu hg]
      exact paintColumn_pixel_in g c (by rw [hu.1]; exact hq) h1 h2)
    (fun k u _ _ hu hp => by
      simp only [drawColumnState]
      split
      · exact paintColumn_pixel_out _ c (by rw [hu.1]; exact hq.1) (fun hh => hp (by omega))
      · rfl)
    t h
  exact key.1 ⟨i, by omega, by omega, rfl⟩

/-- A pixel outside the cell reads as before. -/
theorem drawColumns_pixel_out {s t : State} (h : SameSetting s t) (font : Font) (ch : Byte) (px py : Nat) (c : Bit)
    {n qx qy : Nat} (hq : qx < s.regs.width.toNat)
    (hout : ¬ (px ≤ qx ∧ qx < px + n ∧ py + 1 ≤ qy ∧ qy ≤ py + font.fh.toNat)) :
    (State.loop (drawColumnState font ch px py c) 0 n t).pixel qx qy = t.pixel qx qy := by
  have key := State.loop_inv (body := drawColumnState font ch px py c)
    (J := fun u => SameSetting s u ∧ u.pixel qx qy = t.pixel qx qy) 0 n
    (fun i u _ hi hu => ⟨drawColumnState_setting hu.1 font ch px py c i, by
      unfold drawColumnState
      split
      · rw [paintColumn_pixel_out _ c (by rw [hu.1.1]; exact hq) (fun hh => hout ⟨by omega, by omega, hh.2⟩), hu.2]
      · exact hu.2⟩) t ⟨h, rfl⟩
  exact key.2

/-- The bytes a cell leaves alone. -/
theorem drawColumns_readFb {s t : State} (h : SameSetting s t) (font : Font) (ch : Byte) (px py : Nat) (c : Bit)
    {n a : Nat} (ha : ∀ i, i < n → ∀ qy, py + 1 ≤ qy → qy ≤ py + font.fh.toNat → s.regs.InRange (px + i) qy →
      a ≠ byteIndex s.regs.width.toNat (px + i) qy) :
    (State.loop (drawColumnState font ch px py c) 0 n t).readFb a = t.readFb a := by
  have key := State.loop_inv (body := drawColumnState font ch px py c)
    (J := fun u => SameSetting s u ∧ u.readFb a = t.readFb a) 0 n
    (fun i u _ hi hu => ⟨drawColumnState_setting hu.1 font ch px py c i, by
      unfold drawColumnState
      split
      · rw [paintColumn_readFb, hu.2]
        intro qy h1 h2
        rw [hu.1.1]
        exact ha i (by omega) qy h1 h2
      · exact hu.2⟩) t ⟨h, rfl⟩
  exact key.2

/-- Columns whose glyph bytes can be read all go on. -/
theorem drawColumns_go {s t : State} (h : SameSetting s t) (font : Font) (ch : Byte) (px py : Nat) (c : Bit) (n : Nat)
    (hr : ∀ i, i < n → (s.asset (glyphAddr font.fbase.toNat font.fw.toNat ch.toNat i)).isSome) :
    Run.loop (drawColumn font ch px py c) 0 n t = .go (State.loop (drawColumnState font ch px py c) 0 n t) :=
  Run.loop_go (I := SameSetting s) (fun i _ hu => drawColumnState_setting hu font ch px py c i) 0 n
    (fun i u _ hi hu => by
      obtain ⟨g, hg⟩ := Option.isSome_iff_exists.1 (hr i (by omega))
      rw [← hu.asset] at hg
      simp [drawColumn, State.withAsset, hg, drawColumnState]) t h

/-- The first glyph byte that cannot be read. -/
theorem drawColumns_raised {s t : State} (h : SameSetting s t) (font : Font) (ch : Byte) (px py : Nat) (c : Bit)
    {n i0 : Nat} (hi0 : i0 < n)
    (hr : ∀ i, i < i0 → (s.asset (glyphAddr font.fbase.toNat font.fw.toNat ch.toNat i)).isSome)
    (hbad : s.asset (glyphAddr font.fbase.toNat font.fw.toNat ch.toNat i0) = none) :
    Run.loop (drawColumn font ch px py c) 0 n t =
      .raised .assetRange (BitVec.ofNat 32 (glyphAddr font.fbase.toNat font.fw.toNat ch.toNat i0))
        (State.loop (drawColumnState font ch px py c) 0 i0 t) := by
  have h1 : SameSetting s (State.loop (drawColumnState font ch px py c) 0 i0 t) :=
    State.loop_inv (J := SameSetting s) 0 i0 (fun i _ _ _ hu => drawColumnState_setting hu font ch px py c i) t h
  obtain ⟨m, rfl⟩ : ∃ m, n = i0 + (m + 1) := ⟨n - i0 - 1, by omega⟩
  rw [Run.loop_add, drawColumns_go h font ch px py c i0 hr, Run.go_andThen, Run.loop, Nat.zero_add, drawColumn,
    State.withAsset_none (by rw [h1.asset]; exact hbad), Run.raised_andThen]

/-- The state after a whole character. -/
def drawCharState (font : Font) (ch : Byte) (px py : Half) (c : Bit) (s : State) : State :=
  (State.loop (drawColumnState font ch px.toNat py.toNat c) 0 font.fw.toNat (s.setCursor px py)).setCurx
    (BitVec.ofNat Config.coordW (px.toNat + font.fw.toNat))

/-- A character in the font, that fits the cursor and whose glyph bytes can be read, is drawn. -/
theorem drawChar_go {font : Font} {ch : Byte} {px : Half} (py : Half) (c : Bit) {s : State} (hch : InFont font ch)
    (hpx : px.toNat + font.fw.toNat ≤ Config.cursorMax)
    (hr : ∀ i, i < font.fw.toNat → (s.asset (glyphAddr font.fbase.toNat font.fw.toNat ch.toNat i)).isSome) :
    drawChar font ch px py c s = .go (drawCharState font ch px py c s) := by
  have h : SameSetting (s.setCursor px py) (s.setCursor px py) := ⟨rfl, rfl, rfl⟩
  rw [drawChar, charChecks, if_pos hch, if_neg (by omega), drawColumns_go h font ch _ _ c _ (by exact hr)]
  rfl

/-- A character outside the font changes nothing. -/
theorem drawChar_glyphRange {font : Font} {ch : Byte} (px py : Half) (c : Bit) (s : State) (hch : ¬ InFont font ch) :
    drawChar font ch px py c s = .raised .glyphRange (ch.setWidth 32) s := by
  rw [drawChar, charChecks, if_neg hch]

/-- A character in the font that does not fit the cursor changes nothing. -/
theorem drawChar_cursorOverflow {font : Font} {ch : Byte} {px : Half} (py : Half) (c : Bit) (s : State)
    (hch : InFont font ch) (hpx : px.toNat + font.fw.toNat > Config.cursorMax) :
    drawChar font ch px py c s = .raised .cursorOverflow (BitVec.ofNat 32 (px.toNat + font.fw.toNat)) s := by
  rw [drawChar, charChecks, if_pos hch, if_pos hpx]

/-- A character whose glyph byte `i0` is the first that cannot be read: cursor at its start, columns before `i0` drawn. -/
theorem drawChar_assetRange {font : Font} {ch : Byte} {px : Half} (py : Half) (c : Bit) {s : State}
    (hch : InFont font ch) (hpx : px.toNat + font.fw.toNat ≤ Config.cursorMax) {i0 : Nat} (hi0 : i0 < font.fw.toNat)
    (hr : ∀ i, i < i0 → (s.asset (glyphAddr font.fbase.toNat font.fw.toNat ch.toNat i)).isSome)
    (hbad : s.asset (glyphAddr font.fbase.toNat font.fw.toNat ch.toNat i0) = none) :
    drawChar font ch px py c s =
      .raised .assetRange (BitVec.ofNat 32 (glyphAddr font.fbase.toNat font.fw.toNat ch.toNat i0))
        (State.loop (drawColumnState font ch px.toNat py.toNat c) 0 i0 (s.setCursor px py)) := by
  have h : SameSetting (s.setCursor px py) (s.setCursor px py) := ⟨rfl, rfl, rfl⟩
  rw [drawChar, charChecks, if_pos hch, if_neg (by omega),
    drawColumns_raised h font ch _ _ c hi0 (by exact hr) (by exact hbad), Run.raised_andThen]

/-! ### Strings -/

/-- The string loop at a text address. -/
theorem drawText_at (font : Font) (c : Bit) {a : Nat} (ha : a < Config.asSize) (s : State) :
    drawText font c (Config.asSize - a) s =
      s.withAsset a fun ch =>
        if ch = Config.strTerm then .go s
        else (drawChar font ch s.regs.curx s.regs.cury c s).andThen (drawText font c (Config.asSize - (a + 1))) := by
  obtain ⟨n, hn⟩ : ∃ n, Config.asSize - a = n + 1 := ⟨Config.asSize - a - 1, by omega⟩
  rw [hn, drawText, show Config.asSize - (n + 1) = a by omega, show Config.asSize - (a + 1) = n by omega]

end Sys2Proof.Machine
end

