-- ==== Sys2Proof/Laws/Exec.lean ====
section
/-! SUPPORT. Every operation is a run that sends nothing, followed by its last part: proofs about `exec` work on the two
and never unfold the dispatch. (Rewrite with these before splitting DRAW_STRING: its recursion counts from 2^32.) -/

namespace Sys2Proof.Machine

/-- The run of an operation up to its first transaction. -/
def opRun (i : Instr) (s : State) : Run :=
  match i with
  | .config width height bufsize devaddr bok =>
      .go (((s.setHandle width height bufsize devaddr bok).setPhase 0).setPwr 0)
  | .putPixel x y c => s.requireValid fun s => .go (putPixel x.toNat y.toNat c s)
  | .drawBitmap x y src w h c =>
      s.requireValid fun s => Run.loop (blitRow x.toNat y.toNat src.toNat w.toNat c) 0 h.toNat s
  | .drawChar font ch x y c => s.requireValid (drawChar font ch x y c)
  | .drawString font text x y c =>
      s.requireValid fun s => drawText font c (Config.asSize - text.toNat) (s.setCursor x y)
  | .writeCommand _ => s.checked
  | .init => s.checked
  | .displayOn => s.checked
  | .displayOff => s.checked
  | .invert => s.checked
  | .fill => s.requireValid fun s => .go (s.fillFb 0xFF#8)
  | .clear => s.requireValid fun s => .go (s.fillFb 0x00#8)
  | .flush => s.checked

/-- The last part of an operation: what it sends, and its completion. -/
def opLast (i : Instr) (s : State) : State :=
  match i with
  | .config _ _ _ _ _ => s.complete
  | .putPixel _ _ _ => s.complete
  | .drawBitmap _ _ _ _ _ _ => s.complete
  | .drawChar _ _ _ _ _ => s.complete
  | .drawString _ _ _ _ _ => s.complete
  | .writeCommand cmd => State.sendCmds .done [cmd] s
  | .init => State.sendCmds .init (initSeq s.env.display s.regs.width.toNat s.regs.height.toNat) (initSoft s)
  | .displayOn => State.sendCmds (.pwr 1) [s.env.display.cmdDisplayOn] s
  | .displayOff => State.sendCmds (.pwr 0) [s.env.display.cmdDisplayOff] s
  | .invert => State.sendCmds .done [polarityCommand s.env.display (1 - s.regs.inv)] (s.setInv (1 - s.regs.inv))
  | .fill => s.complete
  | .clear => s.complete
  | .flush => s.tx .data (Memory.readOut s.fb s.regs.bufsize.toNat) ⟨[], .done⟩ State.complete

theorem exec_opRun (i : Instr) (s : State) : exec i s = (opRun i s).finishWith (opLast i) := by
  cases i <;> rfl

/-- An operation always ends in a next state. -/
theorem Run.finishWith_next (r : Run) (last : State → State) : ∃ t, r.finishWith last = .next t := by
  cases r <;> exact ⟨_, rfl⟩

theorem State.checked_pos {s : State} (h : s.regs.Valid) : s.checked = .go s := State.requireValid_pos h _

theorem State.checked_neg {s : State} (h : ¬ s.regs.Valid) : s.checked = .raised .handleInvalid 0 s :=
  State.requireValid_neg h _

/-- An operation that sends, on a valid handle, is its last part. -/
theorem exec_of_transmits {i : Instr} {s : State} (h : transmits i = true) (hv : s.regs.Valid) :
    exec i s = .next (opLast i s) := by
  cases i <;> first | exact absurd h Bool.false_ne_true | (rw [exec_opRun]; simp only [opRun, State.checked_pos hv, Run.finishWith_go])

/-- An operation on an invalid handle, unless it is CONFIG. -/
theorem opRun_of_not_valid {i : Instr} {s : State} (h : writesHandle i = false) (hv : ¬ s.regs.Valid) :
    opRun i s = .raised .handleInvalid 0 s := by
  cases i with
  | config => cases h
  | _ => simp only [opRun, State.checked_neg hv, State.requireValid_neg hv]

/-- Reading a filled buffer. -/
theorem State.readFb_fillFb (s : State) (v : Byte) (a : Nat) :
    (s.fillFb v).readFb a = if a < s.regs.bufsize.toNat then v else s.readFb a := by
  simp only [State.readFb, State.fillFb, Memory.read_fillFrom]
  simp

end Sys2Proof.Machine
end

