-- ==== Sys2Proof/Laws/Agents.lean ====
section
/-! SUPPORT. What a turn of each agent can do. -/

namespace Sys2Proof.Machine

/-- No turn to come. -/
theorem step_of_no_turn {s : State} (h : s.env.turns = []) : step s = .next s := by
  simp only [step, nextTurn, h]

/-- The next turn. -/
theorem step_of_turn {s : State} {a : Turn} {ts : List Turn} (h : s.env.turns = a :: ts) :
    step s = takeTurn a (s.setTurns ts) := by
  simp only [step, nextTurn, h]

/-- Runs of several steps, one step at a time. -/
theorem coreRun_succ (M : Host.Core) {k : Nat} {s t : M.State} (h : M.step s = .next t) : M.run (k + 1) s = M.run k t := by
  rw [Host.Core.run, h]

/-- A run that answers a next state took its first step to one. -/
theorem coreRun_next (M : Host.Core) {k : Nat} {s t : M.State} (h : M.run (k + 1) s = .next t) :
    ∃ u, M.step s = .next u ∧ M.run k u = .next t := by
  rw [Host.Core.run] at h
  split at h
  · exact ⟨_, ‹_›, h⟩
  · cases h
  · cases h

theorem run_next {k : Nat} {s t : State} (h : Sys2Proof.core.run (k + 1) s = .next t) :
    ∃ u, step s = .next u ∧ Sys2Proof.core.run k u = .next t :=
  coreRun_next Sys2Proof.core h

theorem run_zero (s : State) : Sys2Proof.core.run 0 s = .next s := rfl

theorem run_succ {k : Nat} {s t : State} (h : step s = .next t) :
    Sys2Proof.core.run (k + 1) s = Sys2Proof.core.run k t :=
  coreRun_succ Sys2Proof.core h

theorem State.moveOn_of_completed {s : State} (hi : s.env.issued = true) (h : s.Ready) : s.moveOn = s.advanceHost :=
  if_pos ⟨hi, h⟩

theorem State.moveOn_of_not_issued {s : State} (h : s.env.issued = false) : s.moveOn = s := if_neg (by simp [h])

theorem State.moveOn_of_not_ready {s : State} (h : ¬ s.Ready) : s.moveOn = s := if_neg fun hc => h hc.2

@[simp] theorem State.moveOn_regs (s : State) : s.moveOn.regs = s.regs := by
  unfold State.moveOn; split <;> rfl

@[simp] theorem State.moveOn_fb (s : State) : s.moveOn.fb = s.fb := by
  unfold State.moveOn; split <;> rfl

@[simp] theorem State.moveOn_txlog (s : State) : s.moveOn.txlog = s.txlog := by
  unfold State.moveOn; split <;> rfl

@[simp] theorem State.moveOn_seq (s : State) : s.moveOn.seq = s.seq := by
  unfold State.moveOn; split <;> rfl

/-- Counting a completed operation touches the host's index and nothing else. -/
theorem State.moveOn_env (s : State) :
    s.moveOn.env = { s.env with hostPc := s.moveOn.env.hostPc, issued := s.moveOn.env.issued } := by
  unfold State.moveOn; split <;> rfl

@[simp] theorem State.moveOn_assets (s : State) : s.moveOn.env.assets = s.env.assets := by
  unfold State.moveOn; split <;> rfl

@[simp] theorem State.moveOn_display (s : State) : s.moveOn.env.display = s.env.display := by
  unfold State.moveOn; split <;> rfl

@[simp] theorem State.moveOn_transport (s : State) : s.moveOn.env.transport = s.env.transport := by
  unfold State.moveOn; split <;> rfl

@[simp] theorem State.moveOn_owed (s : State) : s.moveOn.env.owed = s.env.owed := by
  unfold State.moveOn; split <;> rfl

@[simp] theorem State.moveOn_program (s : State) : s.moveOn.env.program = s.env.program := by
  unfold State.moveOn; split <;> rfl

@[simp] theorem State.moveOn_hostData (s : State) : s.moveOn.env.hostData = s.env.hostData := by
  unfold State.moveOn; split <;> rfl

@[simp] theorem State.moveOn_turns (s : State) : s.moveOn.env.turns = s.env.turns := by
  unfold State.moveOn; split <;> rfl

/-- A ready machine's host is past every completed operation. -/
theorem State.moveOn_of_ready {s : State} (h : s.Ready) :
    s.moveOn = { s with env := { s.env with hostPc := s.nextIndex, issued := false } } := by
  cases hi : s.env.issued with
  | true => rw [moveOn_of_completed hi h]; simp [State.advanceHost, State.nextIndex, hi]
  | false =>
    rw [moveOn_of_not_issued hi]
    simp only [State.nextIndex, hi, if_neg (by decide : ¬ false = true)]
    rw [← hi]

theorem presentWord_of_none {s : State} (h : s.nextWord = none) : presentWord s = .next s := by
  simp only [presentWord, h]

theorem presentWord_of_some {s : State} {w : OpWord} (h : s.nextWord = some w) : presentWord s = issueWord w s := by
  simp only [presentWord, h]

/-- A presented word is not captured while the machine is busy or halted. -/
theorem presentWord_of_not_ready {s : State} (h : ¬ s.Ready) : presentWord s = .next s := by
  unfold presentWord issueWord
  split
  · rfl
  · rw [if_neg h]

/-- The host's turn. -/
theorem step_of_host {s : State} {e : HostEvent} {ts : List Turn} (h : s.HostFaces e ts) :
    step s = serve e (s.setTurns ts).moveOn := step_of_turn h

@[simp] theorem State.setTurns_moveOn (s : State) (ts : List Turn) : (s.setTurns ts).moveOn = s.moveOn.setTurns ts := by
  unfold State.moveOn; split <;> split <;> first | rfl | contradiction

/-- Everything an event of the host can do. -/
theorem serve_cases {e : HostEvent} {s t : State} (h : serve e s = .next t) :
    (∃ draw tr, e = .hardwareReset draw tr ∧ t = s.hardwareReset draw tr) ∨
    (∃ a v, e = .writeFb a v ∧ s.regs.status = 0 ∧ a < Config.fbCap ∧ t = s.writeFb a v) ∨
    (∃ a v, e = .setAsset a v ∧ s.regs.status = 0 ∧ t = s.setAssets (Assets.set s.env.assets a v)) ∨
    (e = .present ∧ ∃ w, s.nextWord = some w ∧ s.Ready ∧ t = (s.accept w).setIssued true) ∨
    (e = .present ∧ t = s) ∨ (∃ v, t = s.setHostData v) := by
  cases e with
  | hardwareReset draw tr => exact .inl ⟨draw, tr, rfl, by simpa [serve] using h.symm⟩
  | present =>
    simp only [serve] at h
    cases hw : s.nextWord with
    | none => rw [presentWord_of_none hw] at h; cases h; simp
    | some w =>
      rw [presentWord_of_some hw, issueWord] at h
      cases h
      split
      · exact .inr (.inr (.inr (.inl ⟨rfl, w, rfl, ‹_›, rfl⟩)))
      · simp
  | readReg n =>
    simp only [serve, readRegPort, whileIdle] at h
    split_ifs at h <;> cases h <;> simp
  | readFb a =>
    simp only [serve, readFbPort, whileIdle, atFb] at h
    split_ifs at h; cases h; simp
  | writeFb a v =>
    simp only [serve, writeFbPort, whileIdle, atFb] at h
    split_ifs at h with hs ha
    cases h; simp [hs, ha]
  | setAsset a v =>
    simp only [serve, setAssetPort, whileIdle] at h
    split_ifs at h with hs
    cases h; simp [hs]

theorem mfcStep_of_halted {s : State} (h : s.regs.fault ≠ 0) : mfcStep s = .next s := if_pos h

theorem mfcStep_of_idle {s : State} (h : s.seq = .idle) : mfcStep s = .next s := by
  simp only [mfcStep, h]
  split <;> rfl

theorem mfcStep_of_captured {s : State} {w : OpWord} (hf : s.regs.fault = 0) (h : s.seq = .captured w) :
    mfcStep s = runWord w s := by
  rw [mfcStep, if_neg (by simp [hf]), h]

theorem mfcStep_of_owed {s : State} {rest : Rest} (h : s.seq = .waiting rest) (ho : s.env.owed = true) :
    mfcStep s = .next s := by
  simp only [mfcStep, h, ho]
  split <;> rfl

theorem mfcStep_of_report {s : State} {rest : Rest} (hf : s.regs.fault = 0) (h : s.seq = .waiting rest)
    (ho : s.env.owed = false) : mfcStep s = .next (rest.run s) := by
  rw [mfcStep, if_neg (by simp [hf]), h]
  simp [ho]

/-- Everything the MFC's turn can do. -/
theorem mfcStep_cases {s t : State} (h : mfcStep s = .next t) :
    t = s ∨ (s.regs.fault = 0 ∧ ∃ w, s.seq = .captured w ∧ runWord w s = .next t) ∨
      (s.regs.fault = 0 ∧ ∃ rest, s.seq = .waiting rest ∧ s.env.owed = false ∧ t = rest.run s) := by
  by_cases hf : s.regs.fault = 0
  · cases hq : s.seq with
    | idle =>
      rw [mfcStep_of_idle hq] at h
      exact .inl (by simpa using h.symm)
    | captured w => exact .inr (.inl ⟨hf, w, rfl, by rw [← mfcStep_of_captured hf hq]; exact h⟩)
    | waiting rest =>
      cases ho : s.env.owed with
      | true =>
        rw [mfcStep_of_owed hq ho] at h
        exact .inl (by simpa using h.symm)
      | false =>
        rw [mfcStep_of_report hf hq ho] at h
        exact .inr (.inr ⟨hf, rest, rfl, rfl, by simpa using h.symm⟩)
  · rw [mfcStep_of_halted hf] at h
    exact .inl (by simpa using h.symm)

theorem runWord_ok {w : OpWord} {i : Instr} (h : decode w = .ok i) (s : State) : runWord w s = exec i s := by
  simp only [runWord, h]

theorem runWord_error {w : OpWord} {r : Illegal} (h : decode w = .error r) (s : State) :
    runWord w s = .next (s.takeFault .illegalOp (w.extractLsb' 0 32)) := by
  simp only [runWord, h]

end Sys2Proof.Machine
end

