-- ==== Sys2Proof/Laws/Encoding.lean ====
section
/-! SUPPORT. Fields placed in and cut out of words: each slot of R81 comes back from the packed word. -/

namespace Sys2Proof

theorem getLsbD_place (w lo : Nat) {n : Nat} (v : BitVec n) (k : Nat) :
    (place w lo v).getLsbD k = (decide (k < w) && decide (lo ≤ k) && v.getLsbD (k - lo)) := by
  rw [place, BitVec.getLsbD_shiftLeft, BitVec.getLsbD_setWidth]
  by_cases h1 : k < w <;> by_cases h2 : lo ≤ k
  · simp [h1, h2, show k - lo < w by omega, show ¬ k < lo by omega]
  · simp [h1, h2, show k < lo by omega]
  · simp [h1]
  · simp [h1]

/-- A field cut out at its own place. -/
theorem extract_place_same {w lo n : Nat} (v : BitVec n) (h : lo + n ≤ w) : (place w lo v).extractLsb' lo n = v := by
  apply BitVec.eq_of_getLsbD_eq
  intro k hk
  rw [BitVec.getLsbD_extractLsb', getLsbD_place]
  simp [hk, show lo + k < w by omega]

/-- A field cut out at a place it does not reach. -/
theorem extract_place_disjoint {w lo n : Nat} (v : BitVec n) {lo' len : Nat} (h : lo' + len ≤ lo ∨ lo + n ≤ lo') :
    (place w lo v).extractLsb' lo' len = 0 := by
  apply BitVec.eq_of_getLsbD_eq
  intro k hk
  rw [BitVec.getLsbD_extractLsb', getLsbD_place]
  rcases h with h | h
  · simp [show ¬ lo ≤ lo' + k by omega]
  · simp [BitVec.getLsbD_of_ge v (lo' + k - lo) (by omega)]

/-- Packing loses no slot (R81). -/
@[simp] theorem Slots.unpack_pack (s : Slots) : Slots.unpack s.pack = s := by
  obtain ⟨op, c, z0, x, y, a, b, p, q, z1⟩ := s
  simp (disch := decide) [Slots.unpack, Slots.pack, BitVec.extractLsb'_or, extract_place_same, extract_place_disjoint]

/-- A bit of a field put back where it was cut out. -/
theorem getLsbD_place_extract (w : OpWord) (lo len k : Nat) :
    (place Config.opwordW lo (w.extractLsb' lo len)).getLsbD k = (decide (lo ≤ k ∧ k < lo + len) && w.getLsbD k) := by
  rw [getLsbD_place, BitVec.getLsbD_extractLsb']
  by_cases h1 : lo ≤ k
  · rw [show lo + (k - lo) = k by omega]
    by_cases h2 : k < Config.opwordW
    · simp [h1, h2, show (k - lo < len) = (k < lo + len) from propext (by omega)]
    · simp [BitVec.getLsbD_of_ge w k (by omega)]
  · simp [h1]

/-- The slots cover the whole word (R81). -/
@[simp] theorem Slots.pack_unpack (w : OpWord) : (Slots.unpack w).pack = w := by
  apply BitVec.eq_of_getLsbD_eq
  intro k hk
  simp only [Slots.unpack, Slots.pack, BitVec.getLsbD_or, getLsbD_place_extract]
  cases w.getLsbD k with
  | false => simp
  | true =>
    simp only [Bool.and_true, Bool.or_eq_true, decide_eq_true_eq]
    have hk' : k < 160 := hk
    omega

end Sys2Proof
end

