-- ==== Sys2Proof/Laws/PerInstr.lean ====
section
/-! SUPPORT. One lemma per instruction: the opcode slot of its word is the opcode of 30_encoding R84. -/

namespace Sys2Proof.Laws.OpcodeField

/-- Bits 3:0 of the instruction's word are its opcode (30_encoding R81, R84). -/
def Statement (i : Instr) : Prop := (encode i).extractLsb' 0 4 = i.opcode

theorem of_slots {i : Instr} (h : (encodeSlots i).op = i.opcode) : Statement i :=
  (congrArg Slots.op (Slots.unpack_pack (encodeSlots i))).trans h

theorem config (width height : Half) (bufsize : Size) (devaddr : DevAddr) (bok : Bit) :
    Statement (.config width height bufsize devaddr bok) := of_slots rfl

theorem putPixel (x y : Half) (c : Bit) : Statement (.putPixel x y c) := of_slots rfl

theorem drawBitmap (x y : Half) (src : AsAddr) (w h : Half) (c : Bit) : Statement (.drawBitmap x y src w h c) :=
  of_slots rfl

theorem drawChar (font : Font) (ch : Byte) (x y : Half) (c : Bit) : Statement (.drawChar font ch x y c) := of_slots rfl

theorem drawString (font : Font) (text : AsAddr) (x y : Half) (c : Bit) : Statement (.drawString font text x y c) :=
  of_slots rfl

theorem writeCommand (cmd : Byte) : Statement (.writeCommand cmd) := of_slots rfl

theorem init : Statement .init := of_slots rfl

theorem displayOn : Statement .displayOn := of_slots rfl

theorem displayOff : Statement .displayOff := of_slots rfl

theorem invert : Statement .invert := of_slots rfl

theorem fill : Statement .fill := of_slots rfl

theorem clear : Statement .clear := of_slots rfl

theorem flush : Statement .flush := of_slots rfl

end Sys2Proof.Laws.OpcodeField
end

