-- ==== Sys2Proof/Tests/Slice0.lean ====
section
/-! SUPPORT. Tests. Every expected value is a vector of spec/95_test_vectors.md or an example of the rule named; each
`witness_<Name>` shows a concrete state and operands that meet the hypotheses of `Obligations.<Name>`. -/

namespace Sys2Proof.Tests

open Sys2Proof.Machine

/-! ### Decoding and encoding: one word of each row (30_encoding R81, R82, R84; words of 95_test_vectors) -/

theorem test_decode_config :
    decode 0x0000000000013c00000020001000100000000001#160 = .ok (.config 16 16 32 0x3C 1) := by decide

theorem test_decode_putPixel :
    decode 0x0000000000000000000000000000000009000312#160 = .ok (.putPixel 3 9 1) := by decide

theorem test_decode_drawBitmap :
    decode 0x00000000000000000020000003000a0003000203#160 = .ok (.drawBitmap 2 3 0x2000 10 3 0) := by decide

theorem test_decode_drawChar :
    decode 0x000000000000000000400020010a020002000104#160 = .ok (.drawChar ⟨2, 10, 1, 0x4000⟩ 0x20 1 2 0) := by decide

theorem test_decode_drawString :
    decode 0x0000000000301000001000004005030000000e05#160 =
      .ok (.drawString ⟨3, 5, 64, 0x1000⟩ 0x3010 14 0 0) := by decide

theorem test_decode_writeCommand :
    decode 0x0000000000000000000000af0000000000000006#160 = .ok (.writeCommand 0xAF) := by decide

theorem test_decode_init : decode 0x7#160 = .ok .init := by decide

theorem test_decode_displayOn : decode 0x8#160 = .ok .displayOn := by decide

theorem test_decode_displayOff : decode 0x9#160 = .ok .displayOff := by decide

theorem test_decode_invert : decode 0xa#160 = .ok .invert := by decide

theorem test_decode_fill : decode 0xb#160 = .ok .fill := by decide

theorem test_decode_clear : decode 0xc#160 = .ok .clear := by decide

theorem test_decode_flush : decode 0xd#160 = .ok .flush := by decide

theorem test_encode_config :
    encode (.config 128 64 1024 0x3D 1) = 0x0000000000013d00000400004000800000000001#160 := by decide

theorem test_encode_drawString :
    encode (.drawString ⟨3, 5, 64, 0x1000⟩ 0x3000 65530 0 0) = 0x0000000000300000001000004005030000fffa05#160 := by
  decide

theorem test_decodeTableWord : decodeTableWord 160 0x0000000000000000000000810000000000000006 =
    some (.writeCommand 0x81) := by decide

theorem test_assemble_character :
    assemble .drawChar [.font 3 5 64 0x1000, .chr 'A', .num 0, .num 9, .white] =
      some (.drawChar ⟨3, 5, 64, 0x1000⟩ 0x41 0 9 1) := by decide

theorem test_assemble_refuses_oversized : assemble .putPixel [.num 65536, .num 0, .black] = none := by decide

/-! ### Ill-formed words (V120 to V133): the table check and the decoder refuse each -/

theorem test_illformed_reserved_opcodes :
    [0x0#160, 0xe#160, 0xf#160].map (fun w => (wellFormedWord w, decode w)) =
      List.replicate 3 (false, .error .reservedOpcode) := by decide

theorem test_illformed_must_be_zero :
    [0x0000000000000000000000000000000000000027#160, 0x000001000000000000000000000000000000000d#160,
      0x0000000000000000000000000000010001000102#160, 0x0000000000000000000000000000000000000107#160,
      0x0000000000000000000000000000000000000017#160, 0x0000000000033c00000020001000100000000001#160,
      0x0000000000000000000000810100000000000006#160, 0x0000000000300000001000014005030000000005#160,
      0x0000000000000100002100000800080000000003#160, 0x8000000000000000000000000000000000000001#160].map
        (fun w => (wellFormedWord w, decode w)) = List.replicate 10 (false, .error .mustBeZero) := by decide

theorem test_wellformed_colour_bit :
    wellFormedWord 0x12#160 = true ∧ decode 0x12#160 = .ok (.putPixel 0 0 1) := by decide

/-! ### The standard start of 95_test_vectors -/

/-- The next state of an outcome, if it is one. -/
def nextOf : Host.Outcome State Fault Refusal → Option State
  | .next t => some t
  | .fault _ => none
  | .refused _ => none

/-- The font T35. -/
def t35 : Font := ⟨3, 5, 64, 0x1000⟩

/-- The part of the test assets the tests read: the glyphs 'A' and 'B' of T35, the bitmap BM10x3, the strings, and a
character at the last address. -/
def testAssets : List Host.Cell :=
  [(0x1063, 0xF0), (0x1064, 0x28), (0x1065, 0xF0), (0x1066, 0xF8), (0x1067, 0xA8), (0x1068, 0x50),
    (0x2000, 0xFF), (0x2001, 0xC0), (0x2002, 0x81), (0x2003, 0x7F), (0x2004, 0xAA), (0x2005, 0x80)] ++
  [(0x3000, 0x41), (0x3001, 0x42), (0x3002, 0x00), (0x3010, 0x41), (0x3011, 0x1F), (0x3012, 0x42), (0x3013, 0x00),
    (0x3020, 0x41), (0x3030, 0x00), (0x3040, 0x5F), (4294967295, 0x41)]

/-- The standard start over CLEAR. Only `FB[32]` above BUFSIZE is listed, as a sentinel. -/
def std : State :=
  { State.reset with
    regs := { Regs.reset with width := 16, height := 16, bufsize := 32, devaddr := 0x3C, bufok := 1 }
    fb := [(32, 0xAA)]
    env := { Env.reset with assets := testAssets } }

/-- The standard start over FILL. -/
def stdFill : State := { std with fb := Memory.fillFrom 0xFF 0 32 std.fb }

/-- The host's turn, in which it does `e`. -/
def facing (s : State) (e : HostEvent) : State := s.setTurns [.host e]

/-- The host is about to present the word at its index, the only one of its program. -/
def presenting (s : State) (w : OpWord) : State := (s.load [w]).setTurns [.host .present]

/-- `s` with a transport that reports `n` more transactions at once. -/
def holding (s : State) (n : Nat) : State := { s with env := { s.env with transport := .holdsAfter n } }

/-- `s` busy with an operation that waits for its report, in a turn of `a`. -/
def waitingFor (s : State) (a : Turn) (rest : Rest) : State := (s.await rest).setTurns [a]

theorem std_valid : std.regs.Valid := by decide

/-! ### Effects (95_test_vectors part 2) -/

/-- V95, V151: CONFIG latches, also an invalid handle, and clears SESSION. -/
theorem test_config_latches :
    (nextOf (exec (.config 128 64 1024 0x3D 1) { std with regs := { std.regs with session := 3 } })).map (·.regs) =
      some { Regs.reset with width := 128, height := 64, bufsize := 1024, devaddr := 0x3D, bufok := 1 } := by decide

/-- V8. -/
theorem test_putPixel_black : (nextOf (exec (.putPixel 3 9 0) std)).map (·.fb) = some [(19, 0x02), (32, 0xAA)] := by
  decide

/-- V9, V4: white clears one bit; the boundary is a no-op. -/
theorem test_putPixel_white_and_boundary :
    (nextOf (exec (.putPixel 3 9 1) stdFill)).map (fun t => t.readFb 19) = some 0xFD ∧
    (nextOf (exec (.putPixel 0 16 0) std)).map (·.fb) = some [(32, 0xAA)] := by decide

/-- V20. -/
theorem test_drawBitmap_pattern :
    (nextOf (exec (.drawBitmap 2 3 0x2000 10 3 0) std)).map (fun t => (List.range 10).map (fun k => t.readFb (2 + k))) =
      some [0x38, 0x08, 0x28, 0x08, 0x28, 0x08, 0x28, 0x18, 0x28, 0x18] := by decide +kernel

/-- V28. -/
theorem test_drawBitmap_faults_in_row_one :
    (nextOf (exec (.drawBitmap 0 0 0x2004 10 2 0) std)).map (fun t => (t.fb, t.regs.fault, t.regs.faultinfo)) =
      some ([(0, 1), (2, 1), (4, 1), (6, 1), (8, 1), (32, 0xAA)], 4, 0x2006) := by decide

/-- V42: the whole cell is opaque, rows 1 to 5. -/
theorem test_drawChar_opaque_cell :
    (nextOf (exec (.drawChar t35 0x41 0 0 0) stdFill)).map
        (fun t => ((List.range 4).map t.readFb, t.regs.curx, t.regs.cury)) =
      some ([0xFD, 0xCB, 0xFD, 0xFF], 3, 0) := by decide +kernel

/-- V44: glyph row 0 falls off the display. -/
theorem test_drawChar_bottom_edge :
    (nextOf (exec (.drawChar t35 0x42 13 11 0) std)).map (fun t => (t.fb, t.regs.curx, t.regs.cury, t.regs.fault)) =
      some ([(29, 0xF0), (30, 0x50), (31, 0xA0), (32, 0xAA)], 16, 11, 0) := by decide

/-- V71. -/
theorem test_drawString_two_characters :
    (nextOf (exec (.drawString t35 0x3000 0 0 0) std)).map
        (fun t => ((List.range 7).map t.readFb, t.regs.curx, t.regs.fault)) =
      some ([0x3C, 0x0A, 0x3C, 0x3E, 0x2A, 0x14, 0x00], 6, 0) := by decide +kernel

/-- V74. -/
theorem test_drawString_control_code :
    (nextOf (exec (.drawString t35 0x3010 0 0 0) std)).map
        (fun t => ((List.range 4).map t.readFb, t.regs.curx, t.regs.fault, t.regs.faultinfo)) =
      some ([0x3C, 0x0A, 0x3C, 0x00], 3, 2, 0x1F) := by decide +kernel

/-- V94. -/
theorem test_writeCommand_raw :
    (nextOf (exec (.writeCommand 0x81) std)).map (fun t => (t.txlog, t.regs)) =
      some ([⟨0x3C, .cmd, [0x81]⟩], std.regs) := by decide

/-- An 8 by 8 display with soft state to reset. -/
def small : State := { std with regs := { std.regs with width := 8, height := 8, bufsize := 8, curx := 5, inv := 1 } }

/-- V97: index 6, 9 and 14 of the 32 commands for an 8 by 8 display. -/
theorem test_init_geometry :
    (nextOf (exec .init small)).map (fun t => [t.txlog[6]?, t.txlog[9]?, t.txlog[14]?, t.txlog[32]?]) =
      some [some ⟨0x3C, .cmd, [0x07]⟩, some ⟨0x3C, .cmd, [0x00]⟩, some ⟨0x3C, .cmd, [0x07]⟩, none] := by decide

/-- V98: the soft state after INIT. -/
theorem test_init_soft_state :
    (nextOf (exec .init small)).map (fun t => (t.regs.inv, t.regs.curx, t.regs.session)) = some (0, 0, 3) := by
  decide

/-- V90. -/
theorem test_displayOn : (nextOf (exec .displayOn std)).map (fun t => (t.txlog, t.regs.pwr, t.regs.phase)) =
    some ([⟨0x3C, .cmd, [0xAF]⟩], 1, 0) := by decide

/-- V90. -/
theorem test_displayOff :
    (nextOf (exec .displayOff { std with regs := { std.regs with session := 3 } })).map
        (fun t => (t.txlog, t.regs.pwr, t.regs.phase)) = some ([⟨0x3C, .cmd, [0xAE]⟩], 0, 1) := by decide

/-- V91, V92. -/
theorem test_invert :
    (nextOf (exec .invert std)).map (fun t => (t.txlog, t.regs.inv)) = some ([⟨0x3C, .cmd, [0xA7]⟩], 1) ∧
    (nextOf (exec .invert { std with regs := { std.regs with inv := 1 } })).map (fun t => (t.txlog, t.regs.inv)) =
      some ([⟨0x3C, .cmd, [0xA6]⟩], 0) := by decide

/-- S2: FILL writes below BUFSIZE only. -/
theorem test_fill_stops_at_bufsize :
    (nextOf (exec .fill std)).map (fun t => (t.readFb 0, t.readFb 31, t.readFb 32)) = some (0xFF, 0xFF, 0xAA) := by
  decide

/-- S2: CLEAR. -/
theorem test_clear : (nextOf (exec .clear stdFill)).map (·.fb) = some [(32, 0xAA)] := by decide

/-- P2, its last step: one DATA transaction of 32 bytes. -/
theorem test_flush :
    (nextOf (exec .flush { std with fb := [(0, 0x01), (19, 0x04), (31, 0x80), (32, 0xAA)] })).map (·.txlog) =
      some [⟨0x3C, .data, [0x01] ++ List.replicate 18 0 ++ [0x04] ++ List.replicate 11 0 ++ [0x80]⟩] := by decide

/-! ### Steps -/

/-- V112: after hardware reset an operation other than CONFIG raises HANDLE_INVALID. -/
theorem test_step_invalid_handle :
    (nextOf (step (State.reset.withFetchWord 160 0x7))).map (·.regs) = some { Regs.reset with fault := 1 } := by decide

/-- V123 after hardware reset: decoding comes first. -/
theorem test_step_illegal_word :
    (nextOf (step (State.reset.withFetchWord 160 0x27))).map (·.regs) =
      some { Regs.reset with fault := 5, faultinfo := 0x27 } := by decide

/-- V90 with a late report (R57, R34, R224) in a program of two words: DISPLAY_ON emits its command, which the transport
holds; the host presents a word, which is not captured, and reads STATUS; then the report comes and PWR is written; only
then the index moves on and DISPLAY_OFF is captured (R21). -/
def late : State :=
  ((holding std 0).load [0x8#160, 0x9#160]).setTurns
    [.host .present, .mfc, .host .present, .mfc, .host (.readReg 11), .transport .prompt, .mfc, .host .present, .mfc]

theorem test_late_report_host_reads_busy :
    (nextOf (Sys2Proof.core.run 5 late)).map (fun t => (t.regs.status, t.regs.pwr, t.env.hostData, t.env.hostPc, t.txlog)) =
      some (1, 0, 1, 0, [⟨0x3C, .cmd, [0xAF]⟩]) := by decide

theorem test_late_report_completes :
    (nextOf (Sys2Proof.core.run 7 late)).map (fun t => (t.regs.status, t.regs.pwr, t.regs.fault, t.txlog)) =
      some (0, 1, 0, [⟨0x3C, .cmd, [0xAF]⟩]) := by decide

theorem test_index_moves_after_completion :
    (nextOf (Sys2Proof.core.run 9 late)).map (fun t => (t.env.hostPc, t.regs.pwr, t.txlog)) =
      some (1, 0, [⟨0x3C, .cmd, [0xAF]⟩, ⟨0x3C, .cmd, [0xAE]⟩]) := by decide

/-- P4: a halted machine accepts nothing. -/
theorem test_step_halted :
    (nextOf (step (presenting { std with regs := { std.regs with fault := 2 } } 0xb#160))).map (·.fb) =
      some std.fb := by decide

/-- V103, V104, V106 invalid; V109, V110 valid. -/
theorem test_valid_handles :
    ([(16, 12, 24), (16, 16, 33), (264, 8, 264), (256, 256, 8192), (1, 8, 1)].map fun (w, h, b) =>
      decide { Regs.reset with width := BitVec.ofNat 16 w, height := BitVec.ofNat 16 h,
                               bufsize := BitVec.ofNat 32 b, bufok := 1 }.Valid) =
      [false, false, false, true, true] := by decide

/-- A1 to A13, those of width 128 and 256. -/
theorem test_pixel_addresses :
    [(0, 8), (5, 8), (127, 31), (64, 33), (1, 63)].map (fun (x, y) => (byteIndex 128 x y, bitIndex y)) =
      [(128, 0), (133, 0), (511, 7), (576, 1), (897, 7)] ∧ (byteIndex 256 255 255, bitIndex 255) = (8191, 7) := by
  decide

/-! ### Witnesses of the obligations' hypotheses -/

/-- The largest handle. -/
def largest : Regs := { Regs.reset with width := 256, height := 256, bufsize := 8192, bufok := 1 }

/-- The smallest handle. -/
def smallest : Regs := { Regs.reset with width := 1, height := 8, bufsize := 1, bufok := 1 }

theorem witness_EncodeOfDecodeIsTheWord : decode 0xd#160 = .ok .flush := by decide

theorem witness_NoWordSelectsTwoRows :
    ∃ r ∈ opTable, r.selects 0x0000000000000000000000810000000000000006#160 = true := by decide

theorem witness_HardwareResetClearsRegistersAndLog :
    (facing std (.hardwareReset [0xAA] .prompt)).HostFaces (.hardwareReset [0xAA] .prompt) [] := by decide

theorem std_inv : State.Inv (presenting std 0xb#160) :=
  ⟨by decide, by decide, by decide, fun _ h => (nomatch h), by decide, by decide⟩

theorem witness_EveryStepKeepsTheInvariant :
    State.Inv (presenting std 0xb#160) ∧ ∃ t, step (presenting std 0xb#160) = .next t := ⟨std_inv, _, rfl⟩

theorem waiting_inv : State.Inv (waitingFor ((std.load [0x7#160]).setIssued true) .mfc ⟨[0xAF], .init⟩) :=
  ⟨by decide, by decide, by decide, fun _ h => (nomatch h), by decide, by decide⟩

theorem witness_CanonicalFramebuffersWithEqualReadsAreEqual :
    Memory.wf [(0, 0x01), (8191, 0x80)] ∧ Memory.wf (Memory.write [(0, 0x01)] 8191 0x80) ∧
    Memory.write [(0, 0x01)] 8191 0x80 = [(0, 0x01), (8191, 0x80)] := by decide

theorem witness_PixelMapIsABijectionOntoTheBuffer :
    largest.Valid ∧ largest.InRange 0 0 ∧ largest.InRange 255 255 ∧ 8191 < largest.bufsize.toNat ∧
    smallest.Valid ∧ smallest.InRange 0 7 ∧ 0 < smallest.bufsize.toNat := by decide

theorem witness_ValidBufferIsWholePagesAndFits : largest.Valid ∧ smallest.Valid := by decide

theorem witness_BitAccessorChangesOneBit : (7 < 8 ∧ 0 < 8 ∧ (0 : Nat) ≠ 7) ∧ (1 : Nat) ≠ 0 := by decide

theorem witness_PutPixelSetsOneBit :
    std.regs.Valid ∧ std.regs.InRange 15 15 ∧ std.regs.InRange 0 0 ∧ ¬ ((0 : Nat) = 15 ∧ (0 : Nat) = 15) ∧
    ¬ std.regs.InRange 16 0 := by decide

theorem witness_OutOfRangePixelIsANoOp :
    std.regs.Valid ∧ std.regs.width.toNat ≤ 16 ∧ std.regs.height.toNat ≤ 16 ∧ ¬ std.regs.height.toNat ≤ 15 := by decide

theorem witness_PutPixelIsIdempotentAndCommutes :
    std.regs.Valid ∧ Memory.wf std.fb ∧ ¬ ((0 : Nat) = 0 ∧ (0 : Nat) = 1) := by decide

theorem std_bitmap_readable :
    ∀ j, j < (3 : Half).toNat → ∀ i, i < (10 : Half).toNat →
      (std.asset (bitmapAddr (0x2000 : AsAddr).toNat (10 : Half).toNat i j)).isSome = true := by decide

theorem witness_DrawBitmapPaintsTheSetBits :
    std.regs.Valid ∧
    (∀ j, j < (3 : Half).toNat → ∀ i, i < (10 : Half).toNat →
      (std.asset (bitmapAddr (0x2000 : AsAddr).toNat (10 : Half).toNat i j)).isSome = true) ∧
    SourceBit std (0x2000 : AsAddr).toNat (10 : Half).toNat 9 0 ∧
    std.regs.InRange ((2 : Half).toNat + 9) ((3 : Half).toNat + 0) :=
  ⟨by decide, std_bitmap_readable, ⟨0xC0, by decide, by decide⟩, by decide⟩

theorem witness_DrawBitmapFaultsAtTheFirstUnreadableByte :
    std.regs.Valid ∧ 1 < (2 : Half).toNat ∧ 0 < (10 : Half).toNat ∧
    (∀ j, j < 1 → ∀ i, i < (10 : Half).toNat →
      (std.asset (bitmapAddr (0x2004 : AsAddr).toNat (10 : Half).toNat i j)).isSome = true) ∧
    (∀ i, i < 0 → (std.asset (bitmapAddr (0x2004 : AsAddr).toNat (10 : Half).toNat i 1)).isSome = true) ∧
    std.asset (bitmapAddr (0x2004 : AsAddr).toNat (10 : Half).toNat 0 1) = none ∧
    SourceBit std (0x2004 : AsAddr).toNat (10 : Half).toNat 0 0 :=
  ⟨by decide, by decide, by decide, by decide, fun _ h => absurd h (Nat.not_lt_zero _), by decide,
    ⟨0xAA, by decide, by decide⟩⟩

theorem witness_GlyphBitIsTheShiftTest : (7 : Nat) ≤ 7 ∧ (8 : Nat) ≤ 8 := by decide

theorem readable_A : GlyphReadable std t35 0x41 := by
  intro i hi
  have h : i = 0 ∨ i = 1 ∨ i = 2 := by
    have : i < 3 := hi
    omega
  obtain rfl | rfl | rfl := h
  · exact ⟨0xF0, by decide⟩
  · exact ⟨0x28, by decide⟩
  · exact ⟨0xF0, by decide⟩

theorem readable_B : GlyphReadable std t35 0x42 := by
  intro i hi
  have h : i = 0 ∨ i = 1 ∨ i = 2 := by
    have : i < 3 := hi
    omega
  obtain rfl | rfl | rfl := h
  · exact ⟨0xF8, by decide⟩
  · exact ⟨0xA8, by decide⟩
  · exact ⟨0x50, by decide⟩

/-- 65532 + 3 = 65535 is the largest sum that passes (V52). -/
theorem witness_DrawCharPaintsTheWholeCell :
    std.regs.Valid ∧ 32 ≤ (0x41 : Byte).toNat ∧ (0x41 : Byte).toNat < 32 + t35.fn.toNat ∧
    (65532 : Half).toNat + t35.fw.toNat ≤ 65535 ∧ GlyphReadable std t35 0x41 ∧ GlyphByte std t35 0x41 2 0xF0 ∧
    std.regs.InRange ((13 : Half).toNat + 2) ((10 : Half).toNat + t35.fh.toNat - 0) :=
  ⟨by decide, by decide, by decide, by decide, readable_A, by decide, by decide⟩

/-- V48, V49, V52, V53, V54: one value for each clause, at its boundary. -/
theorem witness_DrawCharChecksRunFirstInOrder :
    std.regs.Valid ∧ (0x1F : Byte).toNat < 32 ∧ 32 + t35.fn.toNat ≤ (0x60 : Byte).toNat ∧
    (32 ≤ (0x5F : Byte).toNat ∧ (0x5F : Byte).toNat < 32 + t35.fn.toNat ∧ 65535 < (65533 : Half).toNat + t35.fw.toNat) ∧
    (32 ≤ (0x20 : Byte).toNat ∧ (65532 : Half).toNat + t35.fw.toNat ≤ 65535) ∧
    ({ t35 with fn := 0 } : Font).fn = 0 := by decide

/-- V57. -/
theorem witness_DrawCharFaultsAtTheFirstUnreadableColumn :
    std.regs.Valid ∧ 32 ≤ (0x41 : Byte).toNat ∧ (0x41 : Byte).toNat < 32 + t35.fn.toNat ∧
    (0 : Half).toNat + t35.fw.toNat ≤ 65535 ∧ 1 < t35.fw.toNat ∧
    (∀ i, i < 1 → ∃ g, GlyphByte std { t35 with fbase := 0x1005 } 0x40 i g) ∧
    std.asset (glyphAddr (0x1005 : AsAddr).toNat t35.fw.toNat (0x40 : Byte).toNat 1) = some 0xF8 ∧
    (∀ i, i < 1 → ∃ g, GlyphByte std { t35 with fbase := 0x1005 } 0x41 i g) ∧
    std.asset (glyphAddr (0x1005 : AsAddr).toNat t35.fw.toNat (0x41 : Byte).toNat 1) = none := by
  refine ⟨by decide, by decide, by decide, by decide, by decide, fun i hi => ?_, by decide, fun i hi => ?_, by decide⟩
  · obtain rfl : i = 0 := by omega
    exact ⟨0xF0, by decide⟩
  · obtain rfl : i = 0 := by omega
    exact ⟨0x50, by decide⟩

theorem std_string : ∀ k ch, ([0x41, 0x42] : List Byte)[k]? = some ch →
    std.asset ((0x3000 : AsAddr).toNat + k) = some ch := by
  intro k ch h
  match k with
  | 0 => cases h; decide
  | 1 => cases h; decide
  | k + 2 => cases h

theorem witness_DrawStringPaintsItsCharactersSideBySide :
    std.regs.Valid ∧
    (∀ k ch, ([0x41, 0x42] : List Byte)[k]? = some ch → std.asset ((0x3000 : AsAddr).toNat + k) = some ch) ∧
    std.asset ((0x3000 : AsAddr).toNat + ([0x41, 0x42] : List Byte).length) = some 0 ∧
    (∀ ch, ch ∈ ([0x41, 0x42] : List Byte) → 32 ≤ ch.toNat ∧ ch.toNat < 32 + t35.fn.toNat ∧ GlyphReadable std t35 ch) ∧
    (65529 : Half).toNat + ([0x41, 0x42] : List Byte).length * t35.fw.toNat ≤ 65535 := by
  refine ⟨by decide, std_string, by decide, fun ch h => ?_, by decide⟩
  obtain rfl | rfl : ch = 0x41 ∨ ch = 0x42 := by simpa using h
  · exact ⟨by decide, by decide, readable_A⟩
  · exact ⟨by decide, by decide, readable_B⟩

theorem witness_DrawStringIsDrawCharThenTheRest :
    std.regs.Valid ∧ (0x3000 : AsAddr).toNat + 1 < 4294967296 ∧ std.asset (0x3000 : AsAddr).toNat = some 0x41 ∧
    (0x41 : Byte) ≠ 0 ∧ 32 ≤ (0x41 : Byte).toNat ∧ (0x41 : Byte).toNat < 32 + t35.fn.toNat ∧
    (65532 : Half).toNat + t35.fw.toNat ≤ 65535 ∧ GlyphReadable std t35 0x41 :=
  ⟨by decide, by decide, by decide, by decide, by decide, by decide, by decide, readable_A⟩

/-- One string for each ending: V73, V79, V74 at its second byte, V77 at 'A', and 0x5F whose glyph is not populated here. -/
theorem witness_DrawStringEndsAtItsFirstByte :
    std.regs.Valid ∧ std.asset (0x3030 : AsAddr).toNat = some 0 ∧ std.asset (0x5000 : AsAddr).toNat = none ∧
    (std.asset (0x3011 : AsAddr).toNat = some 0x1F ∧ (0x1F : Byte).toNat < 32) ∧
    (std.asset (0x3000 : AsAddr).toNat = some 0x41 ∧ 65535 < (65533 : Half).toNat + t35.fw.toNat) ∧
    std.asset (0x3040 : AsAddr).toNat = some 0x5F ∧ (0x5F : Byte).toNat < 32 + t35.fn.toNat ∧
    ¬ GlyphReadable std t35 0x5F := by
  refine ⟨by decide, by decide, by decide, by decide, by decide, by decide, by decide, fun h => ?_⟩
  obtain ⟨g, hg⟩ := h 0 (by decide)
  have hn : std.asset (glyphAddr t35.fbase.toNat t35.fw.toNat (0x5F : Byte).toNat 0) = none := by decide
  exact absurd (hn.symm.trans hg) (by simp)

theorem witness_StringPointerFaultsPastTheLastAddress :
    std.regs.Valid ∧ std.asset 4294967295 = some 0x41 ∧ (0x41 : Byte) ≠ 0 ∧ 32 ≤ (0x41 : Byte).toNat ∧
    (0x41 : Byte).toNat < 32 + t35.fn.toNat ∧ (65532 : Half).toNat + t35.fw.toNat ≤ 65535 ∧
    GlyphReadable std t35 0x41 :=
  ⟨by decide, by decide, by decide, by decide, by decide, by decide, readable_A⟩

/-- A transport that reports everything and one that reports exactly one more: also for DISPLAY_ON, DISPLAY_OFF and
FLUSH. -/
theorem witness_WriteCommandSendsOneByte :
    std.regs.Valid ∧ std.env.transport.Reports 1 ∧ (holding std 1).env.transport.Reports 1 :=
  ⟨by decide, trivial, le_refl 1⟩

theorem witness_DisplayOnAndOffSendAndWritePwr : std.regs.Valid ∧ (holding std 1).env.transport.Reports 1 :=
  ⟨by decide, le_refl 1⟩

theorem witness_FlushSendsTheWholeBuffer : std.regs.Valid ∧ (holding std 1).env.transport.Reports 1 :=
  ⟨by decide, le_refl 1⟩

theorem witness_InitClearsTheBufferAndSendsTheSequence :
    std.regs.Valid ∧ std.env.transport.Reports 32 ∧ (holding std 32).env.transport.Reports 32 :=
  ⟨by decide, trivial, le_refl 32⟩

theorem witness_InitSequenceIsTheTable : largest.Valid ∧ smallest.Valid := by decide

theorem witness_InitWaitsInATransactionHeld :
    std.regs.Valid ∧ (holding std 31).env.transport = .holdsAfter 31 ∧ 31 < 32 ∧
    (holding std 0).env.transport = .holdsAfter 0 ∧ 0 < 32 := by decide

theorem witness_InvertSendsTheCommandOfTheNewFlag :
    std.regs.Valid ∧ std.env.transport.Reports 1 ∧ std.regs.inv = 0 ∧
    ({ std.regs with inv := 1 } : Regs).Valid ∧ ({ std.regs with inv := 1 } : Regs).inv = 1 :=
  ⟨by decide, trivial, by decide, by decide, by decide⟩

theorem witness_InvertTwiceRestoresTheFlag : std.regs.Valid ∧ (holding std 2).env.transport.Reports 2 :=
  ⟨by decide, le_refl 2⟩

theorem witness_FillAndClearSetTheWholeBuffer : std.regs.Valid ∧ 31 < std.regs.bufsize.toNat := by decide

theorem witness_OneTransactionOperationsWaitInATransactionHeld :
    std.regs.Valid ∧ (holding std 0).env.transport = .holdsAfter 0 := by decide

theorem witness_SessionTransitionsAreTheTable :
    (writesHandle (.config 0 0 0 0 0) = true ∧ transmits (.config 0 0 0 0 0) = false) ∧
    (std.regs.Valid ∧ transmits .init = true ∧ std.env.transport.Reports 32) ∧
    (facing std (.hardwareReset [] .prompt)).HostFaces (.hardwareReset [] .prompt) [] :=
  ⟨by decide, ⟨by decide, by decide, trivial⟩, by decide⟩

/-- One state in a turn of each agent, and a next state of each. -/
theorem witness_EachTurnIsAStepOfItsAgent :
    (∀ a ∈ [Turn.host .present, .mfc, .transport .prompt], (std.setTurns [a]).env.turns = a :: []) ∧
    (nextOf (mfcStep (waitingFor std .mfc ⟨[], .done⟩))).isSome = true ∧
    (nextOf (hostStep .present (presenting std 0xb#160))).isSome = true ∧
    (∀ draw tr, HostEvent.present ≠ .hardwareReset draw tr) ∧ (∀ a v, HostEvent.present ≠ .writeFb a v) ∧
    ((presenting std 0xb#160).setIssued true).env.issued = true ∧ std.regs.status = 0 ∧ std.regs.fault = 0 :=
  ⟨by decide, by decide, by decide, fun _ _ h => (nomatch h), fun _ _ h => (nomatch h), by decide, by decide, by decide⟩

/-- Before the report, at the report, and after it with two commands still to send. -/
theorem witness_WaitingOperationGoesOnAtItsReport :
    let rest : Rest := ⟨[0xA4, 0xAF], .init⟩
    (waitingFor std .mfc rest).seq = .waiting rest ∧ (waitingFor std .mfc rest).env.owed = true ∧
    (waitingFor std .mfc rest).env.turns = .mfc :: [] ∧
    (waitingFor std (.transport .prompt) rest).env.turns = .transport .prompt :: [] ∧
    ((waitingFor std .mfc rest).setOwed false).env.owed = false ∧ std.regs.fault = 0 ∧
    ((waitingFor (holding std 2) .mfc rest).setOwed false).env.transport.Reports rest.bytes.length ∧
    (waitingFor std .mfc rest).regs.status = 1 ∧
    (∀ a ∈ [Turn.mfc, .host .present, .host (.readReg 11)], a.endsWait = false) ∧
    (nextOf (Sys2Proof.core.run 3 ((waitingFor std .mfc rest).setTurns
      [Turn.mfc, .host .present, .host (.readReg 11)]))).isSome = true :=
  ⟨by decide, by decide, by decide, by decide, by decide, by decide, le_refl 2, by decide, by decide, by decide⟩

theorem witness_LateReportEndsAsAPromptOne :
    let s := (holding std 0).setTurns [.transport .prompt, .mfc]
    let s' := (holding std 31).setTurns [.transport .prompt, .mfc]
    transmits .flush = true ∧ s.regs.Valid ∧ s.regs.fault = 0 ∧ s.env.transport = .holdsAfter 0 ∧
    s.env.turns = [.transport .prompt, .mfc] ∧ transmits .init = true ∧ s'.env.transport = .holdsAfter 31 ∧ 31 < 32 := by
  decide

theorem witness_InitEndsWhenEveryReportComes :
    let s := (holding std 0).setTurns (List.replicate 32 [Turn.transport (.holdsAfter 0), Turn.mfc]).flatten
    s.regs.Valid ∧ s.regs.fault = 0 ∧ s.env.transport = .holdsAfter 0 ∧
    s.env.turns = (List.replicate 32 [Turn.transport (.holdsAfter 0), Turn.mfc]).flatten := by decide

theorem witness_InvalidHandleFaultsEveryOperationButConfig :
    (∀ width height bufsize devaddr bok, Instr.flush ≠ .config width height bufsize devaddr bok) ∧
    ¬ State.reset.regs.Valid := ⟨fun _ _ _ _ _ h => (nomatch h), by decide⟩

theorem witness_IllegalWordFaultsBeforeTheHandleIsLookedAt :
    let s := (State.reset.accept 0x27#160).setTurns [.mfc]
    s.env.turns = .mfc :: [] ∧ s.seq = .captured 0x27#160 ∧ s.regs.fault = 0 ∧ wellFormedWord 0x27#160 = false := by
  decide

/-- A halted machine, facing each kind of event but hardware reset, and in the MFC's turn; each of these steps answers a
next state. -/
theorem witness_HaltedMachineAcceptsNothing :
    let halted : State := { std with regs := { std.regs with fault := 2 } }
    halted.regs.fault ≠ 0 ∧ (halted.setTurns [.mfc]).env.turns = .mfc :: [] ∧
    ∀ e ∈ [HostEvent.present, .readReg 9, .readFb 0, .writeFb 0 1, .setAsset 0 none],
      (facing halted e).HostFaces e [] ∧ (nextOf (step (facing halted e))).isSome = true := by decide

theorem witness_StepRunsTheDecodedInstruction :
    (presenting std 0xb#160).HostFaces .present [] ∧ std.regs.status = 0 ∧ std.regs.fault = 0 ∧
    (presenting std 0xb#160).env.program[(presenting std 0xb#160).nextIndex]? = some 0xb#160 ∧
    (facing ((std.load [0xb#160, 0xc#160]).setIssued true) .present).env.program[
      (facing ((std.load [0xb#160, 0xc#160]).setIssued true) .present).nextIndex]? = some 0xc#160 ∧
    decode 0xb#160 = .ok .fill ∧ ((std.accept 0xb#160).setTurns [.mfc]).env.turns = .mfc :: [] ∧
    ((std.accept 0xb#160).setTurns [.mfc]).seq = .captured 0xb#160 ∧
    0xb < 2 ^ 160 ∧ decodeTableWord 160 0xb = some .fill ∧ State.reset.regs.fault = 0 := by decide

theorem witness_BusyMachineTakesNoWordAndNoAccess :
    ({ std.regs with status := 1 } : Regs).status = 1 ∧ (10 : BitVec 4) ≠ 11 ∧
    ∀ e ∈ [HostEvent.present, .readReg 11, .readReg 10, .readFb 0, .writeFb 0 1, .setAsset 0 none],
      (facing { std with regs := { std.regs with status := 1 } } e).HostFaces e [] := by decide

theorem witness_RegisterPortReturnsTheRegister :
    std.regs.status = 0 ∧ (facing std (.readReg 15)).HostFaces (.readReg 15) [] ∧ 12 ≤ (12 : BitVec 4).toNat ∧
    12 ≤ (15 : BitVec 4).toNat := by decide

theorem witness_FramebufferPortReadsAndWritesOneByte :
    std.regs.status = 0 ∧ 8191 < 8192 ∧ (facing std (.readFb 8191)).HostFaces (.readFb 8191) [] ∧
    (facing std (.writeFb 8191 7)).HostFaces (.writeFb 8191 7) [] ∧ 8192 ≤ 8192 ∧
    (facing std (.readFb 8192)).HostFaces (.readFb 8192) [] ∧
    (facing std (.writeFb 8192 7)).HostFaces (.writeFb 8192 7) [] := by decide

theorem witness_AssetPortChangesOneAddress :
    std.regs.status = 0 ∧
    (facing std (.setAsset 0xFFFFFFFF#32 (some 5))).HostFaces (.setAsset 0xFFFFFFFF#32 (some 5)) [] ∧
    (facing std (.setAsset 0 none)).HostFaces (.setAsset 0 none) [] := by decide

theorem witness_IdleMachineWaits :
    State.reset.env.turns = [] ∧ State.reset.seq = .idle ∧ State.reset.env.owed = false ∧
    State.reset.env.issued = false ∧ State.reset.env.program.length ≤ State.reset.env.hostPc ∧
    ∀ a ∈ [Turn.host .present, .mfc, .transport .prompt], (State.reset.setTurns [a]).env.turns = a :: [] := by decide

/-- Also for the register, space and BUFSIZE frames: an operation that answers a next state, of each kind they name. -/
theorem witness_OperationsWriteOnlyTheirRegisters :
    (nextOf (exec .fill std)).isSome = true ∧ writesHandle .fill = false ∧ writesInv .fill = false ∧
    writesCursor .fill = false ∧ writesSession .fill = false := by decide

theorem witness_TransmitLogOnlyGrows :
    (nextOf (exec (.writeCommand 1) std)).isSome = true ∧
    (facing std (.hardwareReset [] .prompt)).HostFaces (.hardwareReset [] .prompt) [] ∧
    (nextOf (step ((std.accept 0x8#160).setTurns [.mfc]))).isSome = true ∧
    ∀ draw tr ts, ¬ ((std.accept 0x8#160).setTurns [.mfc]).HostFaces (.hardwareReset draw tr) ts :=
  ⟨by decide, by decide, by decide, fun _ _ _ h => (nomatch h)⟩

theorem witness_OperationsReachOnlyTheirSpaces :
    (nextOf (exec .fill std)).isSome = true ∧ transmits .fill = false ∧
    (nextOf (exec .displayOn std)).isSome = true ∧ writesFb .displayOn = false := by decide

theorem witness_BytesAtAndAboveBufsizeAreNeverWritten :
    (nextOf (exec .fill std)).isSome = true ∧ std.regs.bufsize.toNat ≤ 32 ∧
    (nextOf (mfcStep (std.accept 0xb#160))).isSome = true := by decide

theorem witness_FramebufferLeavesOnlyByFlush :
    Instr.fill ≠ .flush ∧ (∀ a, a < std.regs.bufsize.toNat → Memory.read [(32, 0x55)] a = std.readFb a) ∧
    (waitingFor std .mfc ⟨[], .done⟩).seq = .waiting ⟨[], .done⟩ := by decide

end Sys2Proof.Tests
end

section
/-! The frames of the three agents' steps (00_scope R10), and where the host's index moves (10_state R21). Settles O39. -/

namespace Sys2Proof.Machine

/-! ### The MFC's step and the surroundings -/

/-- `t` has the surroundings of `s` but for the transport's count and whether a report is owed (20_memory R57). -/
def SameSurroundings (s t : State) : Prop :=
  t.env = { s.env with transport := t.env.transport, owed := t.env.owed }

theorem SameSurroundings.of_env_eq {s t : State} (h : t.env = s.env) : SameSurroundings s t := by
  rw [SameSurroundings, h]

theorem SameSurroundings.trans {s t u : State} (hst : SameSurroundings s t) (htu : SameSurroundings t u) :
    SameSurroundings s u := by
  unfold SameSurroundings at *
  rw [htu, hst]

@[simp] theorem Ending.run_env (e : Ending) (s : State) : (e.run s).env = s.env := by
  cases e <;> rfl

theorem SameSurroundings.sendCmds (e : Ending) (bs : List Byte) (s : State) :
    SameSurroundings s (State.sendCmds e bs s) :=
  State.sendCmds_rel (R := SameSurroundings) SameSurroundings.trans e (fun _ _ _ => rfl) (fun _ _ _ => rfl)
    (fun s => .of_env_eq (Ending.run_env e s)) bs s

/-- Up to its first transaction an operation keeps the surroundings whole, whether it goes on or raises a fault. -/
theorem opRun_env (i : Instr) (s : State) : (opRun i s).state.env = s.env := by
  have hvalid : ∀ k : State → Run, (k s).state.env = s.env → (s.requireValid k).state.env = s.env :=
    fun k hk => State.requireValid_rel (R := fun s t => t.env = s.env) rfl fun _ => hk
  cases i with
  | config width height bufsize devaddr bok => rfl
  | putPixel x y c => exact hvalid (fun s => .go (putPixel x.toNat y.toNat c s)) (putPixel_env _ _ _ _)
  | drawBitmap x y src w h c => exact hvalid _ (Drawn.blit _ _ _ _ _ _ _).env
  | drawChar font ch x y c => exact hvalid _ (Drawn.drawChar _ _ _ _ _ _).env
  | drawString font text x y c =>
    exact hvalid (fun s => drawText font c (Config.asSize - text.toNat) (s.setCursor x y))
      (Drawn.drawText _ _ _ (s.setCursor x y)).env
  | fill => exact hvalid (fun s => .go (s.fillFb 0xFF#8)) rfl
  | clear => exact hvalid (fun s => .go (s.fillFb 0x00#8)) rfl
  | _ => exact hvalid .go rfl

theorem SameSurroundings.opLast (i : Instr) (s : State) : SameSurroundings s (opLast i s) := by
  cases i with
  | writeCommand cmd => exact .sendCmds _ _ _
  | init => exact (SameSurroundings.of_env_eq rfl).trans (.sendCmds _ _ (initSoft s))
  | displayOn => exact .sendCmds _ _ _
  | displayOff => exact .sendCmds _ _ _
  | invert => exact (SameSurroundings.of_env_eq rfl).trans (.sendCmds _ _ (s.setInv (1 - s.regs.inv)))
  | flush => exact State.tx_rel (R := SameSurroundings) rfl rfl
  | _ => exact .of_env_eq rfl

theorem SameSurroundings.exec {i : Instr} {s t : State} (h : exec i s = .next t) : SameSurroundings s t := by
  rw [exec_opRun] at h
  have henv := opRun_env i s
  rcases Run.finishWith_cases h with ⟨u, hu, rfl⟩ | ⟨f, info, u, hu, rfl⟩
  · rw [hu] at henv
    exact (SameSurroundings.of_env_eq henv).trans (.opLast i u)
  · rw [hu] at henv
    exact .of_env_eq henv

theorem SameSurroundings.runWord {w : OpWord} {s t : State} (h : runWord w s = .next t) : SameSurroundings s t := by
  cases hd : decode w with
  | ok i =>
    rw [runWord_ok hd] at h
    exact .exec h
  | error r =>
    rw [runWord_error hd] at h
    cases h
    exact .of_env_eq rfl

theorem SameSurroundings.mfcStep {s t : State} (h : mfcStep s = .next t) : SameSurroundings s t := by
  rcases mfcStep_cases h with rfl | ⟨-, w, -, hw⟩ | ⟨-, rest, -, -, rfl⟩
  · exact .of_env_eq rfl
  · exact .runWord hw
  · exact .sendCmds rest.ending rest.bytes s

/-! ### The transport's step -/

theorem transportStep_of_owed {s : State} (h : s.env.owed = true) (next : Transport) :
    transportStep next s = .next ((s.setTransport next).setOwed false) := by
  simp only [transportStep, h, if_true]

theorem transportStep_of_not_owed {s : State} (h : s.env.owed = false) (next : Transport) :
    transportStep next s = .next s := by
  simp [transportStep, h]

/-! ### The host's step -/

/-- Counting a completed operation is the one move of the host's index (10_state R21). -/
theorem State.moveOn_hostPc (s : State) :
    s.moveOn.env.hostPc =
      if s.env.issued = true ∧ s.regs.status = 0 ∧ s.regs.fault = 0 then s.env.hostPc + 1 else s.env.hostPc := by
  unfold State.moveOn
  split <;> rfl

/-- What the host does in its turn moves neither its program nor its index. -/
theorem serve_program_hostPc {e : HostEvent} {s t : State} (h : serve e s = .next t) :
    t.env.program = s.env.program ∧ t.env.hostPc = s.env.hostPc := by
  rcases serve_cases h with ⟨draw, tr, -, rfl⟩ | ⟨a, v, -, -, -, rfl⟩ | ⟨a, v, -, -, rfl⟩ | ⟨-, w, -, -, rfl⟩ |
    ⟨-, rfl⟩ | ⟨v, rfl⟩ <;> exact ⟨rfl, rfl⟩

/-- Short of hardware reset the host reaches of the MFC STATUS at most, and the framebuffer only by its own write. -/
theorem serve_frame {e : HostEvent} {s t : State} (hreset : ∀ draw tr, e ≠ .hardwareReset draw tr)
    (h : serve e s = .next t) :
    t.regs = { s.regs with status := t.regs.status } ∧ t.txlog = s.txlog ∧
      t.env.transport = s.env.transport ∧ t.env.owed = s.env.owed ∧ ((∀ a v, e ≠ .writeFb a v) → t.fb = s.fb) := by
  rcases serve_cases h with ⟨draw, tr, he, -⟩ | ⟨a, v, he, -, -, rfl⟩ | ⟨a, v, -, -, rfl⟩ | ⟨-, w, -, -, rfl⟩ |
    ⟨-, rfl⟩ | ⟨v, rfl⟩
  · exact absurd he (hreset draw tr)
  · exact ⟨rfl, rfl, rfl, rfl, fun hwrite => absurd he (hwrite a v)⟩
  all_goals exact ⟨rfl, rfl, rfl, rfl, fun _ => rfl⟩

/-- Settles O39: the next turn is its agent's step, and each agent's step has a frame lemma above. -/
theorem eachTurnIsAStepOfItsAgent : Obligations.EachTurnIsAStepOfItsAgent := by
  unfold Obligations.EachTurnIsAStepOfItsAgent
  refine ⟨fun s a ts hturns => ?_, fun next s => ?_, fun s t h => SameSurroundings.mfcStep h,
    fun e s t hreset h => ?_, fun e s t h => ?_⟩
  · rw [step_of_turn hturns]
    cases a <;> rfl
  · cases howed : s.env.owed with
    | true => exact ⟨_, transportStep_of_owed howed next, rfl, rfl, rfl, rfl, rfl⟩
    | false => exact ⟨s, transportStep_of_not_owed howed next, rfl, rfl, rfl, rfl, by rw [← howed]⟩
  · simpa using serve_frame hreset (s := s.moveOn) h
  · obtain ⟨hprogram, hindex⟩ := serve_program_hostPc (s := s.moveOn) h
    exact ⟨hprogram.trans s.moveOn_program, hindex.trans s.moveOn_hostPc⟩

end Sys2Proof.Machine
end

section
/-! A late report changes nothing of an operation's result (00_scope R10, 20_memory R57). Settles O41. -/

namespace Sys2Proof.Machine

/-- `s` with any report there, a transport that reports everything at once from then on, and no turn to come. -/
def State.promptly (s : State) : State := ((s.setTurns []).setTransport .prompt).setOwed false

/-- `t` is `s` come to a transaction that the transport holds, and once the report is there what `t` still has to do ends
in `v`. -/
structure EndsLate (s t v : State) : Prop where
  busy  : t.regs.status = 1
  fault : t.regs.fault = s.regs.fault
  owed  : t.env.owed = true
  turns : t.env.turns = s.env.turns
  rest  : ∃ rest, t.seq = .waiting rest ∧ rest.run t.promptly = v
  ended : v.regs.status = 0

/-- What an operation does before its transaction keeps FAULT and the turns, so the start may be taken earlier. -/
theorem EndsLate.from_earlier {s s' t v : State} (h : EndsLate s' t v) (hfault : s'.regs.fault = s.regs.fault)
    (hturns : s'.env.turns = s.env.turns) : EndsLate s t v :=
  { h with fault := h.fault.trans hfault, turns := h.turns.trans hturns }

/-- The two turns after the wait: the transport reports, then the MFC goes on to the end. -/
theorem EndsLate.twoTurns {s t v : State} (h : EndsLate s t v) (hfault : s.regs.fault = 0)
    (hturns : s.env.turns = [.transport .prompt, .mfc]) :
    ∃ u, step t = .next u ∧ u.regs.status = 1 ∧ step u = .next v := by
  obtain ⟨rest, hseq, hrun⟩ := h.rest
  refine ⟨((t.setTurns [.mfc]).setTransport .prompt).setOwed false, ?_, h.busy, ?_⟩
  · rw [step_of_turn (h.turns.trans hturns)]
    exact transportStep_of_owed (s := t.setTurns [.mfc]) h.owed .prompt
  · rw [step_of_turn rfl, ← hrun]
    exact mfcStep_of_report (s := t.promptly) (h.fault.trans hfault) hseq rfl

/-- Commands of which the transport holds one end as they do when all are reported at once. -/
theorem State.sendCmds_endsLate (e : Ending) (bs : List Byte) {s : State} {n : Nat}
    (htransport : s.env.transport = .holdsAfter n) (hn : n < bs.length) :
    EndsLate s (State.sendCmds e bs s) (State.sendCmds e bs s.promptly) where
  busy := by rw [State.sendCmds_held e bs htransport hn]; rfl
  fault := by rw [State.sendCmds_held e bs htransport hn]; rfl
  owed := by rw [State.sendCmds_held e bs htransport hn]; rfl
  turns := by rw [State.sendCmds_held e bs htransport hn]; rfl
  rest := ⟨⟨bs.drop (n + 1), e⟩, by rw [State.sendCmds_held e bs htransport hn]; rfl,
    State.sendCmds_late e bs htransport hn []⟩
  ended := by rw [State.sendCmds_reported e bs (by trivial)]; rfl

/-- A held transaction with nothing left to do after it ends as it does when it is reported at once. -/
theorem State.tx_endsLate (tag : Tag) (bs : List Byte) {s : State} (htransport : s.env.transport = .holdsAfter 0) :
    EndsLate s (s.tx tag bs ⟨[], .done⟩ State.complete) (s.promptly.tx tag bs ⟨[], .done⟩ State.complete) := by
  rw [State.tx_held htransport]
  exact ⟨rfl, rfl, rfl, rfl, ⟨⟨[], .done⟩, rfl, rfl⟩, rfl⟩

theorem initSeq_length (d : Config.DisplayCommands) (W H : Nat) : (initSeq d W H).length = 32 := rfl

/-- The last part of an operation that transmits, when its transaction (any of INIT's 32) is held. -/
theorem opLast_endsLate {i : Instr} {s : State} {n : Nat} (hi : transmits i = true)
    (htransport : s.env.transport = .holdsAfter n) (hn : n = 0 ∨ i = .init ∧ n < 32) :
    EndsLate s (opLast i s) (opLast i s.promptly) := by
  have hone : i ≠ .init → n = 0 := fun hne => hn.resolve_right fun h => hne h.1
  have hlt : i ≠ .init → n < 1 := fun hne => Nat.lt_one_iff.2 (hone hne)
  cases i with
  | writeCommand cmd => exact State.sendCmds_endsLate .done [cmd] htransport (hlt nofun)
  | init =>
    have h32 : n < 32 := by omega
    have h := State.sendCmds_endsLate (s := initSoft s) .init
      (initSeq s.env.display s.regs.width.toNat s.regs.height.toNat) htransport (by rwa [initSeq_length])
    exact h.from_earlier rfl rfl
  | displayOn => exact State.sendCmds_endsLate (.pwr 1) [s.env.display.cmdDisplayOn] htransport (hlt nofun)
  | displayOff => exact State.sendCmds_endsLate (.pwr 0) [s.env.display.cmdDisplayOff] htransport (hlt nofun)
  | invert =>
    have h := State.sendCmds_endsLate (s := s.setInv (1 - s.regs.inv)) .done
      [polarityCommand s.env.display (1 - s.regs.inv)] htransport (hlt nofun)
    exact h.from_earlier rfl rfl
  | flush =>
    rw [hone nofun] at htransport
    exact State.tx_endsLate .data (Memory.readOut s.fb s.regs.bufsize.toNat) htransport
  | _ => cases hi

/-- Settles O41: the held operation and the prompt one are the same last part, and `EndsLate` relates the two. -/
theorem lateReportEndsAsAPromptOne : Obligations.LateReportEndsAsAPromptOne := by
  unfold Obligations.LateReportEndsAsAPromptOne
  intro i s n hi hvalid hfault htransport hn hturns
  have hlate := opLast_endsLate hi htransport hn
  obtain ⟨u, hreport, hbusy, hend⟩ := hlate.twoTurns hfault hturns
  exact ⟨opLast i s, u, opLast i s.promptly, exec_of_transmits hi hvalid, hlate.busy, hreport, hbusy, hend, hlate.ended,
    exec_of_transmits (s := s.promptly) hi hvalid⟩

end Sys2Proof.Machine
end

section
/-! The part of `opRun` that transmitting operations share, used by the sections below. -/

namespace Sys2Proof.Machine

/-- An operation that sends does nothing before its last part but check the handle. -/
theorem opRun_of_transmits {i : Instr} (hi : transmits i = true) (s : State) : opRun i s = s.checked := by
  cases i with
  | config | putPixel | drawBitmap | drawChar | drawString | fill | clear => cases hi
  | _ => rfl

/-- It goes on to that part only from a valid handle, with nothing done yet. -/
theorem opRun_go_of_transmits {i : Instr} {s u : State} (hi : transmits i = true) (hu : opRun i s = .go u) :
    s.regs.Valid ∧ u = s := by
  rw [opRun_of_transmits hi] at hu
  by_cases hv : s.regs.Valid
  · rw [State.checked_pos hv] at hu
    exact ⟨hv, (Run.go.inj hu).symm⟩
  · rw [State.checked_neg hv] at hu
    cases hu

end Sys2Proof.Machine
end

section
/-! Two runs from states that are equal but for one part of the state which no operation reads: SESSION (10_state R31),
the cursor (R37), and, FLUSH apart, the framebuffer (R39, 20_memory R66). `SameBut` is the relation, and every operation
and every turn of the MFC keeps it. Settles O58, O59 and O60. -/

namespace Sys2Proof.Machine

/-- The parts of the state whose value stays hidden from operations. -/
inductive Hidden where
  | session
  | cursor
  | framebuffer

/-- The second state is the first but for the hidden part. -/
inductive SameBut : Hidden → State → State → Prop where
  | session (s : State) (v : BitVec 2) : SameBut .session s { s with regs := { s.regs with session := v } }
  | cursor (s : State) (x y : Half) : SameBut .cursor s (s.setCursor x y)
  | framebuffer (s : State) (m : List Host.Cell) : SameBut .framebuffer s { s with fb := m }

variable {part : Hidden} {s t : State}

theorem SameBut.refl (part : Hidden) (s : State) : SameBut part s s := by
  cases part <;> constructor

theorem SameBut.eq_but_session (hst : SameBut .session s t) :
    t = { s with regs := { s.regs with session := t.regs.session } } := by
  cases hst; rfl

theorem SameBut.eq_but_cursor (hst : SameBut .cursor s t) :
    t = { s with regs := { s.regs with curx := t.regs.curx, cury := t.regs.cury } } := by
  cases hst; rfl

theorem SameBut.eq_but_fb (hst : SameBut .framebuffer s t) : t = { s with fb := t.fb } := by
  cases hst; rfl

/-! ### What the two states share -/

theorem SameBut.valid_iff (hst : SameBut part s t) : t.regs.Valid ↔ s.regs.Valid := by cases hst <;> rfl
theorem SameBut.width_eq (hst : SameBut part s t) : t.regs.width = s.regs.width := by cases hst <;> rfl
theorem SameBut.height_eq (hst : SameBut part s t) : t.regs.height = s.regs.height := by cases hst <;> rfl
theorem SameBut.bufsize_eq (hst : SameBut part s t) : t.regs.bufsize = s.regs.bufsize := by cases hst <;> rfl
theorem SameBut.devaddr_eq (hst : SameBut part s t) : t.regs.devaddr = s.regs.devaddr := by cases hst <;> rfl
theorem SameBut.inv_eq (hst : SameBut part s t) : t.regs.inv = s.regs.inv := by cases hst <;> rfl
theorem SameBut.fault_eq (hst : SameBut part s t) : t.regs.fault = s.regs.fault := by cases hst <;> rfl
theorem SameBut.seq_eq (hst : SameBut part s t) : t.seq = s.seq := by cases hst <;> rfl
theorem SameBut.env_eq (hst : SameBut part s t) : t.env = s.env := by cases hst <;> rfl

theorem SameBut.curx_eq (hst : SameBut part s t) (hpart : part ≠ .cursor) : t.regs.curx = s.regs.curx := by
  cases hst with
  | cursor => exact absurd rfl hpart
  | _ => rfl

theorem SameBut.cury_eq (hst : SameBut part s t) (hpart : part ≠ .cursor) : t.regs.cury = s.regs.cury := by
  cases hst with
  | cursor => exact absurd rfl hpart
  | _ => rfl

theorem SameBut.fb_eq (hst : SameBut part s t) (hpart : part ≠ .framebuffer) : t.fb = s.fb := by
  cases hst with
  | framebuffer => exact absurd rfl hpart
  | _ => rfl

theorem SameBut.asset_eq (hst : SameBut part s t) (a : Nat) : t.asset a = s.asset a :=
  State.asset_congr (congrArg Env.assets hst.env_eq) a

/-! ### Every update of the state keeps the relation -/

theorem SameBut.setHandle (hst : SameBut part s t) (width height : Half) (bufsize : Size) (devaddr : DevAddr)
    (bok : Bit) : SameBut part (s.setHandle width height bufsize devaddr bok)
      (t.setHandle width height bufsize devaddr bok) := by
  cases hst <;> constructor

theorem SameBut.setPhase (hst : SameBut part s t) (v : Bit) : SameBut part (s.setPhase v) (t.setPhase v) := by
  cases hst <;> constructor

theorem SameBut.setPwr (hst : SameBut part s t) (v : Bit) : SameBut part (s.setPwr v) (t.setPwr v) := by
  cases hst <;> constructor

theorem SameBut.setInv (hst : SameBut part s t) (v : Bit) : SameBut part (s.setInv v) (t.setInv v) := by
  cases hst <;> constructor

theorem SameBut.setCursor (hst : SameBut part s t) (x y : Half) : SameBut part (s.setCursor x y) (t.setCursor x y) := by
  cases hst <;> constructor

theorem SameBut.setCurx (hst : SameBut part s t) (x : Half) : SameBut part (s.setCurx x) (t.setCurx x) := by
  cases hst <;> constructor

theorem SameBut.log (hst : SameBut part s t) (x : Transaction) : SameBut part (s.log x) (t.log x) := by
  cases hst <;> constructor

theorem SameBut.setTransport (hst : SameBut part s t) (tr : Transport) :
    SameBut part (s.setTransport tr) (t.setTransport tr) := by
  cases hst <;> constructor

theorem SameBut.await (hst : SameBut part s t) (rest : Rest) : SameBut part (s.await rest) (t.await rest) := by
  cases hst <;> constructor

theorem SameBut.complete (hst : SameBut part s t) : SameBut part s.complete t.complete := by
  cases hst <;> constructor

theorem SameBut.takeFault (hst : SameBut part s t) (f : Cause) (info : Word) :
    SameBut part (s.takeFault f info) (t.takeFault f info) := by
  cases hst <;> constructor

/-- A framebuffer computed from the framebuffer before. -/
theorem SameBut.mapFb (hst : SameBut part s t) (f : List Host.Cell → List Host.Cell) :
    SameBut part { s with fb := f s.fb } { t with fb := f t.fb } := by
  cases hst <;> constructor

theorem SameBut.fillFb (hst : SameBut part s t) (v : Byte) : SameBut part (s.fillFb v) (t.fillFb v) := by
  unfold State.fillFb
  rw [hst.bufsize_eq]
  exact hst.mapFb _

/-- One bit is read and written back, so the framebuffer goes into the framebuffer alone. -/
theorem SameBut.putPixel (hst : SameBut part s t) (px py : Nat) (c : Bit) :
    SameBut part (putPixel px py c s) (putPixel px py c t) := by
  by_cases hr : s.regs.InRange px py
  · have hr' : t.regs.InRange px py := by rwa [Regs.InRange, hst.width_eq, hst.height_eq]
    rw [putPixel_inRange hr, putPixel_inRange hr', hst.width_eq]
    exact hst.mapFb fun m => Memory.write m (byteIndex s.regs.width.toNat px py)
      (colourByte (Memory.read m (byteIndex s.regs.width.toNat px py)) (bitIndex py) c)
  · have hr' : ¬ t.regs.InRange px py := by rwa [Regs.InRange, hst.width_eq, hst.height_eq]
    rwa [putPixel_outOfRange hr, putPixel_outOfRange hr']

/-! ### Two runs that come to related states -/

/-- The runs end in the same way, and the states they have come to are related. -/
inductive Run.Related (R : State → State → Prop) : Run → Run → Prop where
  | go {s t : State} (hst : R s t) : Related R (.go s) (.go t)
  | raised {s t : State} (f : Cause) (info : Word) (hst : R s t) : Related R (.raised f info s) (.raised f info t)

theorem Run.Related.of_eq {R : State → State → Prop} (refl : ∀ s, R s s) (r : Run) : Run.Related R r r := by
  cases r with
  | go s => exact .go (refl s)
  | raised f info s => exact .raised f info (refl s)

theorem Run.Related.andThen {R : State → State → Prop} {r r' : Run} {k k' : State → Run} (hr : Run.Related R r r')
    (hk : ∀ s t, R s t → Run.Related R (k s) (k' t)) : Run.Related R (r.andThen k) (r'.andThen k') := by
  cases hr with
  | go hst => exact hk _ _ hst
  | raised f info hst => exact .raised f info hst

theorem Run.Related.loop {R : State → State → Prop} {body : Nat → State → Run}
    (hbody : ∀ i s t, R s t → Run.Related R (body i s) (body i t)) (a n : Nat) {s t : State} (hst : R s t) :
    Run.Related R (Run.loop body a n s) (Run.loop body a n t) := by
  induction n generalizing a s t with
  | zero => exact .go hst
  | succ n ih => exact (hbody a s t hst).andThen fun _ _ => ih (a + 1)

theorem State.loop_related {R : State → State → Prop} {body : Nat → State → State}
    (hbody : ∀ i s t, R s t → R (body i s) (body i t)) (a n : Nat) {s t : State} (hst : R s t) :
    R (State.loop body a n s) (State.loop body a n t) := by
  induction n generalizing a s t with
  | zero => exact hst
  | succ n ih => exact ih (a + 1) (hbody a s t hst)

theorem SameBut.requireValid (hst : SameBut part s t) {k : State → Run}
    (hk : ∀ u u', SameBut part u u' → Run.Related (SameBut part) (k u) (k u')) :
    Run.Related (SameBut part) (s.requireValid k) (t.requireValid k) := by
  by_cases hv : s.regs.Valid
  · rw [State.requireValid_pos hv, State.requireValid_pos (hst.valid_iff.2 hv)]
    exact hk s t hst
  · rw [State.requireValid_neg hv, State.requireValid_neg fun hv' => hv (hst.valid_iff.1 hv')]
    exact .raised _ _ hst

theorem SameBut.withAsset (hst : SameBut part s t) (a : Nat) {k k' : Byte → Run}
    (hk : ∀ g, Run.Related (SameBut part) (k g) (k' g)) :
    Run.Related (SameBut part) (s.withAsset a k) (t.withAsset a k') := by
  cases ha : s.asset a with
  | some g =>
    rw [State.withAsset_some ha, State.withAsset_some ((hst.asset_eq a).trans ha)]
    exact hk g
  | none =>
    rw [State.withAsset_none ha, State.withAsset_none ((hst.asset_eq a).trans ha)]
    exact .raised _ _ hst

/-- What two related runs answer. -/
theorem Run.Related.finishWith {r r' : Run} {last : State → State} (hr : Run.Related (SameBut part) r r')
    (hlast : ∀ u u', r = .go u → r' = .go u' → SameBut part u u' → SameBut part (last u) (last u')) :
    ∃ u u', r.finishWith last = .next u ∧ r'.finishWith last = .next u' ∧ SameBut part u u' := by
  cases hr with
  | go hst => exact ⟨_, _, rfl, rfl, hlast _ _ rfl rfl hst⟩
  | raised f info hst => exact ⟨_, _, rfl, rfl, hst.takeFault f info⟩

/-! ### Drawing -/

theorem SameBut.blit (hst : SameBut part s t) (x y src w : Nat) (c : Bit) (n : Nat) :
    Run.Related (SameBut part) (Run.loop (blitRow x y src w c) 0 n s) (Run.loop (blitRow x y src w c) 0 n t) := by
  refine .loop (fun j s t hst => .loop (body := blitColumn x y src w c j) (fun i s t hst => ?_) 0 w hst) 0 n hst
  refine hst.withAsset _ fun sb => .go ?_
  split
  · exact hst.putPixel _ _ _
  · exact hst

theorem SameBut.paintColumn (hst : SameBut part s t) (px py fh : Nat) (g : Byte) (c : Bit) :
    SameBut part (paintColumn px py fh g c s) (paintColumn px py fh g c t) :=
  State.loop_related (fun _ _ _ hst => hst.putPixel _ _ _) 0 fh hst

theorem SameBut.drawChar (hst : SameBut part s t) (font : Font) (ch : Byte) (px py : Half) (c : Bit) :
    Run.Related (SameBut part) (drawChar font ch px py c s) (drawChar font ch px py c t) := by
  unfold Machine.drawChar charChecks
  split_ifs
  · exact .raised _ _ hst
  · exact (Run.Related.loop (fun i _ _ hst => hst.withAsset _ fun g => .go (hst.paintColumn _ _ _ g c)) 0 _
      (hst.setCursor px py)).andThen fun _ _ hst => .go (hst.setCurx _)
  · exact .raised _ _ hst

/-- The string loop draws each character at the cursor, so it must find the same one. -/
theorem SameBut.drawText (hst : SameBut part s t) (hpart : part ≠ .cursor) (font : Font) (c : Bit) (left : Nat) :
    Run.Related (SameBut part) (drawText font c left s) (drawText font c left t) := by
  induction left generalizing s t with
  | zero => exact .raised _ _ hst
  | succ left ih =>
    refine hst.withAsset _ fun ch => ?_
    split
    · exact .go hst
    · rw [hst.curx_eq hpart, hst.cury_eq hpart]
      exact (hst.drawChar _ _ _ _ _).andThen fun _ _ => ih

/-- DRAW_STRING writes the cursor before its loop reads it, so the loop starts from one state when only the cursors
differed. -/
theorem SameBut.drawText_setCursor (hst : SameBut part s t) (font : Font) (c : Bit) (left : Nat) (x y : Half) :
    Run.Related (SameBut part) (Machine.drawText font c left (s.setCursor x y))
      (Machine.drawText font c left (t.setCursor x y)) := by
  cases hst with
  | session s v => exact ((SameBut.session s v).setCursor x y).drawText nofun font c left
  | cursor s x' y' => exact .of_eq (SameBut.refl _) _
  | framebuffer s m => exact ((SameBut.framebuffer s m).setCursor x y).drawText nofun font c left

/-! ### Sending -/

theorem SameBut.tx (hst : SameBut part s t) (tag : Tag) (bs : List Byte) (rest : Rest) {k : State → State}
    (hk : ∀ s t, SameBut part s t → SameBut part (k s) (k t)) :
    SameBut part (s.tx tag bs rest k) (t.tx tag bs rest k) := by
  have hlog : SameBut part (s.log ⟨s.regs.devaddr, tag, bs⟩) (t.log ⟨t.regs.devaddr, tag, bs⟩) := by
    rw [hst.devaddr_eq]
    exact hst.log _
  rcases s.env.transport.reports_or_holds with htr | htr
  · rw [State.tx_reported htr, State.tx_reported (by rwa [hst.env_eq]), hst.env_eq]
    exact hk _ _ (hlog.setTransport _)
  · rw [State.tx_held htr, State.tx_held (by rwa [hst.env_eq])]
    exact hlog.await rest

theorem SameBut.endingRun (hst : SameBut part s t) (e : Ending) : SameBut part (e.run s) (e.run t) := by
  cases e with
  | done => exact hst
  | pwr v => exact hst.setPwr v
  | init => exact (hst.setPhase 1).setPwr 1

theorem SameBut.sendCmds (hst : SameBut part s t) (e : Ending) (bs : List Byte) :
    SameBut part (State.sendCmds e bs s) (State.sendCmds e bs t) := by
  induction bs generalizing s t with
  | nil => exact (hst.endingRun e).complete
  | cons b bs ih => exact hst.tx .cmd [b] ⟨bs, e⟩ fun _ _ => ih

/-! ### Every operation -/

theorem SameBut.opRun (hst : SameBut part s t) (i : Instr) : Run.Related (SameBut part) (opRun i s) (opRun i t) := by
  cases i with
  | config width height bufsize devaddr bok =>
    exact .go (((hst.setHandle width height bufsize devaddr bok).setPhase 0).setPwr 0)
  | putPixel x y c => exact hst.requireValid fun _ _ hst => .go (hst.putPixel _ _ _)
  | drawBitmap x y src w n c => exact hst.requireValid fun _ _ hst => (hst.blit _ _ _ _ _ _)
  | drawChar font ch x y c => exact hst.requireValid fun _ _ hst => (hst.drawChar _ _ _ _ _)
  | drawString font text x y c => exact hst.requireValid fun _ _ hst => (hst.drawText_setCursor _ _ _ _ _)
  | fill => exact hst.requireValid fun _ _ hst => .go (hst.fillFb _)
  | clear => exact hst.requireValid fun _ _ hst => .go (hst.fillFb _)
  | _ => exact hst.requireValid fun _ _ hst => .go hst

/-- The bytes FLUSH would send are the same in both states. -/
def SameReadOut (s t : State) : Prop :=
  Memory.readOut t.fb t.regs.bufsize.toNat = Memory.readOut s.fb s.regs.bufsize.toNat

theorem SameBut.sameReadOut (hst : SameBut part s t) (hpart : part ≠ .framebuffer) : SameReadOut s t := by
  rw [SameReadOut, hst.fb_eq hpart, hst.bufsize_eq]

theorem SameReadOut.of_reads {m : List Host.Cell}
    (hread : ∀ a, a < s.regs.bufsize.toNat → Memory.read m a = s.readFb a) : SameReadOut s { s with fb := m } :=
  List.map_congr_left fun a ha => hread a (List.mem_range.1 ha)

theorem SameBut.opLast (hst : SameBut part s t) (i : Instr) (hflush : i = .flush → SameReadOut s t) :
    SameBut part (opLast i s) (opLast i t) := by
  cases i with
  | writeCommand cmd => exact hst.sendCmds _ _
  | init =>
    simp only [Machine.opLast, hst.env_eq, hst.width_eq, hst.height_eq]
    exact (((hst.fillFb 0x00#8).setInv 0).setCursor 0 0).sendCmds _ _
  | displayOn =>
    simp only [Machine.opLast, hst.env_eq]
    exact hst.sendCmds _ _
  | displayOff =>
    simp only [Machine.opLast, hst.env_eq]
    exact hst.sendCmds _ _
  | invert =>
    simp only [Machine.opLast, hst.env_eq, hst.inv_eq]
    exact (hst.setInv _).sendCmds _ _
  | flush =>
    simp only [Machine.opLast]
    rw [hflush rfl]
    exact hst.tx _ _ _ fun _ _ hst => hst.complete
  | _ => exact hst.complete

theorem SameBut.exec (hst : SameBut part s t) (i : Instr) (hflush : i = .flush → SameReadOut s t) :
    ∃ u u', exec i s = .next u ∧ exec i t = .next u' ∧ SameBut part u u' := by
  rw [exec_opRun, exec_opRun]
  refine (hst.opRun i).finishWith fun u u' hu hu' huu' => huu'.opLast i fun hi => ?_
  subst hi
  obtain ⟨-, rfl⟩ := opRun_go_of_transmits rfl hu
  obtain ⟨-, rfl⟩ := opRun_go_of_transmits rfl hu'
  exact hflush rfl

/-- FLUSH sends the same bytes wherever the framebuffer is not what differs. -/
theorem SameBut.exec_of_ne_framebuffer (hst : SameBut part s t) (hpart : part ≠ .framebuffer) (i : Instr) :
    ∃ u u', Machine.exec i s = .next u ∧ Machine.exec i t = .next u' ∧ SameBut part u u' :=
  hst.exec i fun _ => hst.sameReadOut hpart

/-! ### Every turn of the MFC -/

theorem SameBut.runWord (hst : SameBut part s t) (hpart : part ≠ .framebuffer) (w : OpWord) :
    ∃ u u', runWord w s = .next u ∧ runWord w t = .next u' ∧ SameBut part u u' := by
  cases hd : decode w with
  | ok i =>
    rw [runWord_ok hd, runWord_ok hd]
    exact hst.exec_of_ne_framebuffer hpart i
  | error r =>
    rw [runWord_error hd, runWord_error hd]
    exact ⟨_, _, rfl, rfl, hst.takeFault _ _⟩

theorem SameBut.mfcStep_of_waiting (hst : SameBut part s t) {rest : Rest} (hseq : s.seq = .waiting rest) :
    ∃ u u', mfcStep s = .next u ∧ mfcStep t = .next u' ∧ SameBut part u u' := by
  have hseq' := hst.seq_eq.trans hseq
  by_cases hf : s.regs.fault = 0
  · cases ho : s.env.owed with
    | true =>
      rw [mfcStep_of_owed hseq ho, mfcStep_of_owed hseq' (by rwa [hst.env_eq])]
      exact ⟨_, _, rfl, rfl, hst⟩
    | false =>
      rw [mfcStep_of_report hf hseq ho, mfcStep_of_report (hst.fault_eq.trans hf) hseq' (by rwa [hst.env_eq])]
      exact ⟨_, _, rfl, rfl, hst.sendCmds _ _⟩
  · rw [mfcStep_of_halted hf, mfcStep_of_halted (by rwa [hst.fault_eq])]
    exact ⟨_, _, rfl, rfl, hst⟩

theorem SameBut.mfcStep (hst : SameBut part s t) (hpart : part ≠ .framebuffer) :
    ∃ u u', mfcStep s = .next u ∧ mfcStep t = .next u' ∧ SameBut part u u' := by
  cases hseq : s.seq with
  | idle =>
    rw [mfcStep_of_idle hseq, mfcStep_of_idle (hst.seq_eq.trans hseq)]
    exact ⟨_, _, rfl, rfl, hst⟩
  | captured w =>
    by_cases hf : s.regs.fault = 0
    · rw [mfcStep_of_captured hf hseq, mfcStep_of_captured (hst.fault_eq.trans hf) (hst.seq_eq.trans hseq)]
      exact hst.runWord hpart w
    · rw [mfcStep_of_halted hf, mfcStep_of_halted (by rwa [hst.fault_eq])]
      exact ⟨_, _, rfl, rfl, hst⟩
  | waiting rest => exact hst.mfcStep_of_waiting hseq

theorem Ending.run_fb (e : Ending) (s : State) : (e.run s).fb = s.fb := by
  cases e <;> rfl

theorem State.sendCmds_fb (e : Ending) (bs : List Byte) (s : State) : (State.sendCmds e bs s).fb = s.fb :=
  State.sendCmds_rel (R := fun s t => t.fb = s.fb) (fun hab hbc => hbc.trans hab) e (fun _ _ _ => rfl)
    (fun _ _ _ => rfl) (Ending.run_fb e) bs s

/-- An operation that goes on after waiting writes no framebuffer byte. -/
theorem mfcStep_fb_of_waiting {rest : Rest} {u : State} (hseq : s.seq = .waiting rest) (hu : mfcStep s = .next u) :
    u.fb = s.fb := by
  rcases mfcStep_cases hu with rfl | ⟨-, w, hw, -⟩ | ⟨-, rest', -, -, rfl⟩
  · rfl
  · rw [hseq] at hw
    cases hw
  · exact State.sendCmds_fb rest'.ending rest'.bytes s

/-- Settles O58: `SameBut .session` is kept by every operation and every turn of the MFC. -/
theorem sessionIsNeverRead : Obligations.SessionIsNeverRead := by
  unfold Obligations.SessionIsNeverRead
  refine ⟨fun i s v => ?_, fun s v => ?_⟩
  · obtain ⟨t, t', ht, ht', hrel⟩ := (SameBut.session s v).exec_of_ne_framebuffer nofun i
    exact ⟨t, t', ht, ht', hrel.eq_but_session⟩
  · obtain ⟨t, t', ht, ht', hrel⟩ := (SameBut.session s v).mfcStep nofun
    exact ⟨t, t', ht, ht', hrel.eq_but_session⟩

/-- Settles O59: `SameBut .cursor` is kept by every operation and every turn of the MFC; DRAW_STRING alone reads the
cursor, and it writes it first. -/
theorem earlierCursorIsNeverRead : Obligations.EarlierCursorIsNeverRead := by
  unfold Obligations.EarlierCursorIsNeverRead
  refine ⟨fun i s cx cy => ?_, fun s cx cy => ?_⟩
  · obtain ⟨t, t', ht, ht', hrel⟩ := (SameBut.cursor s cx cy).exec_of_ne_framebuffer nofun i
    exact ⟨t, t', ht, ht', hrel.eq_but_cursor⟩
  · obtain ⟨t, t', ht, ht', hrel⟩ := (SameBut.cursor s cx cy).mfcStep nofun
    exact ⟨t, t', ht, ht', hrel.eq_but_cursor⟩

/-- Settles O60: `SameBut .framebuffer` is kept by every operation but FLUSH, by FLUSH when it sends the same bytes, and
by every continued wait, which leaves both framebuffers alone. -/
theorem framebufferLeavesOnlyByFlush : Obligations.FramebufferLeavesOnlyByFlush := by
  unfold Obligations.FramebufferLeavesOnlyByFlush
  refine ⟨fun i s m => ?_, fun s rest m hseq => ?_⟩
  · by_cases hflush : i = .flush → SameReadOut s { s with fb := m }
    · obtain ⟨t, t', ht, ht', hrel⟩ := (SameBut.framebuffer s m).exec i hflush
      exact ⟨t, t', ht, ht', fun _ => hrel.eq_but_fb⟩
    · obtain ⟨t, ht⟩ := Run.finishWith_next (opRun i s) (opLast i)
      obtain ⟨t', ht'⟩ := Run.finishWith_next (opRun i { s with fb := m }) (opLast i)
      refine ⟨t, t', (exec_opRun i s).trans ht, (exec_opRun i _).trans ht', fun hsame => ?_⟩
      exact absurd (fun hi => hsame.elim (absurd hi) SameReadOut.of_reads) hflush
  · obtain ⟨t, t', ht, ht', hrel⟩ := (SameBut.framebuffer s m).mfcStep_of_waiting hseq
    have hfb : t'.fb = m := mfcStep_fb_of_waiting (s := { s with fb := m }) hseq ht'
    refine ⟨t, ht, ht'.trans ?_⟩
    rw [hrel.eq_but_fb, hfb]

end Sys2Proof.Machine
end

section
/-! What an operation writes of the registers outside FAULT, FAULTINFO and STATUS (10_state R22, R35), and what it adds
to TXLOG (R40, 20_memory R57). Settles O54 and O55. -/

namespace Sys2Proof.Machine

theorem eq_config_of_writesHandle {i : Instr} (hi : writesHandle i = true) :
    ∃ width height bufsize devaddr bok, i = .config width height bufsize devaddr bok := by
  cases i with
  | config width height bufsize devaddr bok => exact ⟨_, _, _, _, _, rfl⟩
  | _ => cases hi

/-! ### The part of an operation before its first transaction -/

/-- What every operation but CONFIG leaves alone until it sends, also where it raises a fault. -/
structure RunFrame (i : Instr) (s t : State) : Prop where
  regs   : t.regs = { s.regs with curx := t.regs.curx, cury := t.regs.cury }
  cursor : writesCursor i = false → t.regs = s.regs
  txlog  : t.txlog = s.txlog

theorem RunFrame.of_eq {i : Instr} {s t : State} (hregs : t.regs = s.regs) (htxlog : t.txlog = s.txlog) :
    RunFrame i s t := ⟨by rw [hregs], fun _ => hregs, htxlog⟩

theorem RunFrame.of_drawn {i : Instr} {s t : State} (hi : writesCursor i = true) (h : Drawn s t) : RunFrame i s t :=
  ⟨h.regs, fun hn => (nomatch hi.symm.trans hn), h.txlog⟩

/-- A bitmap is painted at its operands: unlike the other drawing loops it keeps the cursor. -/
theorem blit_regs (x y src w : Nat) (c : Bit) (n : Nat) (s : State) :
    (Run.loop (blitRow x y src w c) 0 n s).state.regs = s.regs := by
  have trans : ∀ {a b c : State}, b.regs = a.regs → c.regs = b.regs → c.regs = a.regs := fun hab hbc => hbc.trans hab
  refine Run.loop_rel (R := fun s t => t.regs = s.regs) (fun _ => rfl) trans (fun j s => ?_) 0 n s
  refine Run.loop_rel (R := fun s t => t.regs = s.regs) (fun _ => rfl) trans (fun i s => ?_) 0 w s
  refine State.withAsset_rel (R := fun s t => t.regs = s.regs) rfl fun sb _ => ?_
  simp only [Run.state_go]
  split
  · exact putPixel_regs _ _ _ _
  · rfl

theorem opRun_frame {i : Instr} (hi : writesHandle i = false) (s : State) : RunFrame i s (opRun i s).state := by
  have hvalid : ∀ k : State → Run, RunFrame i s (k s).state → RunFrame i s (s.requireValid k).state :=
    fun k hk => State.requireValid_rel (R := RunFrame i) (.of_eq rfl rfl) fun _ => hk
  cases i with
  | config => cases hi
  | putPixel x y c =>
    exact hvalid (fun s => .go (putPixel x.toNat y.toNat c s)) (.of_eq (putPixel_regs _ _ _ _) (putPixel_txlog _ _ _ _))
  | drawBitmap x y src w n c =>
    exact hvalid _ (.of_eq (blit_regs _ _ _ _ _ _ _) (Drawn.blit _ _ _ _ _ _ _).txlog)
  | drawChar font ch x y c => exact hvalid _ (.of_drawn rfl (Drawn.drawChar _ _ _ _ _ _))
  | drawString font text x y c =>
    exact hvalid (fun s => drawText font c (Config.asSize - text.toNat) (s.setCursor x y))
      (.of_drawn rfl ((Drawn.setCursor x y s).trans (Drawn.drawText _ _ _ _)))
  | fill => exact hvalid (fun s => .go (s.fillFb 0xFF#8)) (.of_eq rfl rfl)
  | clear => exact hvalid (fun s => .go (s.fillFb 0x00#8)) (.of_eq rfl rfl)
  | _ => exact hvalid .go (.of_eq rfl rfl)

/-! ### The "written by" column -/

/-- The registers the "written by" column does not give to `i` are the same in both states. -/
structure KeepsUnlisted (i : Instr) (s t : State) : Prop where
  handle  : writesHandle i = false → t.regs.width = s.regs.width ∧ t.regs.height = s.regs.height ∧
    t.regs.bufsize = s.regs.bufsize ∧ t.regs.devaddr = s.regs.devaddr ∧ t.regs.bufok = s.regs.bufok
  inv     : writesInv i = false → t.regs.inv = s.regs.inv
  cursor  : writesCursor i = false → t.regs.curx = s.regs.curx ∧ t.regs.cury = s.regs.cury
  session : writesSession i = false → t.regs.session = s.regs.session

/-- FAULT, FAULTINFO and STATUS are outside the column. -/
theorem KeepsUnlisted.of_regs {i : Instr} {s t : State}
    (h : t.regs = { s.regs with fault := t.regs.fault, faultinfo := t.regs.faultinfo, status := t.regs.status }) :
    KeepsUnlisted i s t := by
  constructor <;> intro _ <;> rw [h] <;> simp

theorem KeepsUnlisted.trans {i : Instr} {s t u : State} (hst : KeepsUnlisted i s t) (htu : KeepsUnlisted i t u) :
    KeepsUnlisted i s u where
  handle hi := by
    obtain ⟨hw, hh, hb, hd, hk⟩ := hst.handle hi
    obtain ⟨hw', hh', hb', hd', hk'⟩ := htu.handle hi
    exact ⟨hw'.trans hw, hh'.trans hh, hb'.trans hb, hd'.trans hd, hk'.trans hk⟩
  inv hi := (htu.inv hi).trans (hst.inv hi)
  cursor hi := ⟨(htu.cursor hi).1.trans (hst.cursor hi).1, (htu.cursor hi).2.trans (hst.cursor hi).2⟩
  session hi := (htu.session hi).trans (hst.session hi)

theorem KeepsUnlisted.opRun (i : Instr) (s : State) : KeepsUnlisted i s (opRun i s).state := by
  cases hi : writesHandle i with
  | true =>
    obtain ⟨width, height, bufsize, devaddr, bok, rfl⟩ := eq_config_of_writesHandle hi
    exact ⟨nofun, fun _ => rfl, fun _ => ⟨rfl, rfl⟩, nofun⟩
  | false =>
    obtain ⟨hregs, hcursor, -⟩ := opRun_frame hi s
    constructor
    · intro _; rw [hregs]; simp
    · intro _; rw [hregs]
    · intro hc; rw [hcursor hc]; simp
    · intro _; rw [hregs]

/-- Sending commands writes SESSION at most, and with nothing to do after them not even that. -/
theorem KeepsUnlisted.sendCmds {i : Instr} {e : Ending} (he : e = .done ∨ writesSession i = true) (bs : List Byte)
    (s : State) : KeepsUnlisted i s (State.sendCmds e bs s) := by
  refine State.sendCmds_rel (R := KeepsUnlisted i) KeepsUnlisted.trans e (fun _ _ _ => .of_regs rfl)
    (fun _ _ _ => .of_regs rfl) (fun s => ?_) bs s
  rcases he with rfl | hi
  · exact .of_regs rfl
  · cases e <;>
      exact ⟨fun _ => ⟨rfl, rfl, rfl, rfl, rfl⟩, fun _ => rfl, fun _ => ⟨rfl, rfl⟩, fun hn => nomatch hi.symm.trans hn⟩

theorem KeepsUnlisted.opLast (i : Instr) (s : State) : KeepsUnlisted i s (opLast i s) := by
  cases i with
  | writeCommand cmd => exact .sendCmds (.inl rfl) _ _
  | init =>
    have hsoft : KeepsUnlisted .init s (initSoft s) := ⟨fun _ => ⟨rfl, rfl, rfl, rfl, rfl⟩, nofun, nofun, nofun⟩
    exact hsoft.trans (.sendCmds (.inr rfl) _ _)
  | displayOn => exact .sendCmds (.inr rfl) _ _
  | displayOff => exact .sendCmds (.inr rfl) _ _
  | invert =>
    have hinv : KeepsUnlisted .invert s (s.setInv (1 - s.regs.inv)) :=
      ⟨fun _ => ⟨rfl, rfl, rfl, rfl, rfl⟩, nofun, fun _ => ⟨rfl, rfl⟩, fun _ => rfl⟩
    exact hinv.trans (.sendCmds (.inl rfl) _ _)
  | flush => exact State.tx_rel (.of_regs rfl) (.of_regs rfl)
  | _ => exact .of_regs rfl

theorem KeepsUnlisted.exec {i : Instr} {s t : State} (h : exec i s = .next t) : KeepsUnlisted i s t := by
  rw [exec_opRun] at h
  have hrun := KeepsUnlisted.opRun i s
  rcases Run.finishWith_cases h with ⟨u, hu, rfl⟩ | ⟨f, info, u, hu, rfl⟩ <;> rw [hu] at hrun
  · exact hrun.trans (.opLast i u)
  · exact hrun.trans (.of_regs rfl)

/-- Settles O54: both parts of an operation, and taking a fault, keep the registers the column does not list. -/
theorem operationsWriteOnlyTheirRegisters : Obligations.OperationsWriteOnlyTheirRegisters := by
  unfold Obligations.OperationsWriteOnlyTheirRegisters
  intro i s t h
  obtain ⟨hhandle, hinv, hcursor, hsession⟩ := KeepsUnlisted.exec h
  exact ⟨hhandle, hinv, hcursor, hsession⟩

/-! ### The transmit log -/

/-- `t` has the device address of `s`, and its log is that of `s` followed by transactions to that address that are not
empty. -/
structure Appends (s t : State) : Prop where
  devaddr : t.regs.devaddr = s.regs.devaddr
  txlog   : ∃ new, t.txlog = s.txlog ++ new ∧ ∀ x, x ∈ new → x.addr = s.regs.devaddr ∧ x.bytes ≠ []

theorem Appends.of_eq {s t : State} (hdevaddr : t.regs.devaddr = s.regs.devaddr) (htxlog : t.txlog = s.txlog) :
    Appends s t := ⟨hdevaddr, [], by simp [htxlog], by simp⟩

theorem Appends.of_log {s t : State} {tag : Tag} {bs : List Byte} (hbs : bs ≠ [])
    (hdevaddr : t.regs.devaddr = s.regs.devaddr) (htxlog : t.txlog = s.txlog ++ [⟨s.regs.devaddr, tag, bs⟩]) :
    Appends s t := ⟨hdevaddr, _, htxlog, by simp [hbs]⟩

theorem Appends.trans {s t u : State} (hst : Appends s t) (htu : Appends t u) : Appends s u := by
  obtain ⟨hdevaddr, new, hlog, hnew⟩ := hst
  obtain ⟨hdevaddr', new', hlog', hnew'⟩ := htu
  refine ⟨hdevaddr'.trans hdevaddr, new ++ new', by rw [hlog', hlog, List.append_assoc], fun x hx => ?_⟩
  rcases List.mem_append.1 hx with hx | hx
  · exact hnew x hx
  · exact ⟨(hnew' x hx).1.trans hdevaddr, (hnew' x hx).2⟩

theorem Appends.isPrefix {s t : State} (h : Appends s t) : s.txlog <+: t.txlog := by
  obtain ⟨-, new, hlog, -⟩ := h
  exact ⟨new, hlog.symm⟩

theorem Appends.sendCmds (e : Ending) (bs : List Byte) (s : State) : Appends s (State.sendCmds e bs s) := by
  refine State.sendCmds_rel (R := Appends) Appends.trans e (fun s b tr => .of_log (List.cons_ne_nil b []) rfl rfl)
    (fun s b rest => .of_log (List.cons_ne_nil b []) rfl rfl) (fun s => ?_) bs s
  cases e <;> exact .of_eq rfl rfl

/-- FLUSH sends at least one byte, since a valid handle's buffer is not empty (44_device_session R166). -/
theorem readOut_ne_nil {s : State} (hv : s.regs.Valid) : Memory.readOut s.fb s.regs.bufsize.toNat ≠ [] := by
  have hpos := hv.bufsize_pos
  rw [← List.length_pos_iff, Memory.length_readOut]
  omega

theorem Appends.opLast {s : State} (i : Instr) (hv : transmits i = true → s.regs.Valid) : Appends s (opLast i s) := by
  cases i with
  | writeCommand cmd => exact .sendCmds _ _ _
  | init => exact (Appends.of_eq (s := s) (t := initSoft s) rfl rfl).trans (.sendCmds _ _ _)
  | displayOn => exact .sendCmds _ _ _
  | displayOff => exact .sendCmds _ _ _
  | invert => exact (Appends.of_eq (s := s) (t := s.setInv (1 - s.regs.inv)) rfl rfl).trans (.sendCmds _ _ _)
  | flush =>
    have hbytes := readOut_ne_nil (hv rfl)
    exact State.tx_rel (.of_log hbytes rfl rfl) (.of_log hbytes rfl rfl)
  | _ => exact .of_eq rfl rfl

/-- Nothing is sent before the last part of an operation. -/
theorem opRun_txlog (i : Instr) (s : State) : (opRun i s).state.txlog = s.txlog := by
  cases hi : writesHandle i with
  | true =>
    obtain ⟨width, height, bufsize, devaddr, bok, rfl⟩ := eq_config_of_writesHandle hi
    rfl
  | false => exact (opRun_frame hi s).txlog

theorem opLast_of_not_transmits {i : Instr} (hi : transmits i = false) (s : State) : opLast i s = s.complete := by
  cases i with
  | writeCommand | init | displayOn | displayOff | invert | flush => cases hi
  | _ => rfl

/-- What an operation adds to TXLOG, however it ends. -/
theorem exec_appends {i : Instr} {s t : State} (h : exec i s = .next t) :
    ∃ new, t.txlog = s.txlog ++ new ∧ ∀ x, x ∈ new → x.addr = s.regs.devaddr ∧ x.bytes ≠ [] := by
  rw [exec_opRun] at h
  have hrun := opRun_txlog i s
  rcases Run.finishWith_cases h with ⟨u, hu, rfl⟩ | ⟨f, info, u, hu, rfl⟩
  · cases hi : transmits i with
    | true =>
      obtain ⟨hv, rfl⟩ := opRun_go_of_transmits hi hu
      exact (Appends.opLast i fun _ => hv).txlog
    | false =>
      rw [hu] at hrun
      rw [opLast_of_not_transmits hi]
      exact ⟨[], by simpa using hrun, by simp⟩
  · rw [hu] at hrun
    exact ⟨[], by simpa using hrun, by simp⟩

/-- A transaction is emitted, and changes nothing but TXLOG and the transport's count, whether or not it is held. -/
theorem State.tx_emits (s : State) (tag : Tag) (bs : List Byte) (rest : Rest) (k : State → State) : ∃ u,
    u.txlog = s.txlog ++ [⟨s.regs.devaddr, tag, bs⟩] ∧ u.regs = s.regs ∧ u.fb = s.fb ∧
    (s.tx tag bs rest k = k u ∨ s.tx tag bs rest k = u.await rest) := by
  rcases s.env.transport.reports_or_holds with htr | htr
  · exact ⟨(s.log ⟨s.regs.devaddr, tag, bs⟩).setTransport (s.env.transport.after 1), rfl, rfl, rfl,
      .inl (State.tx_reported htr tag bs rest k)⟩
  · exact ⟨s.log ⟨s.regs.devaddr, tag, bs⟩, rfl, rfl, rfl, .inr (State.tx_held htr tag bs rest k)⟩

theorem mfcStep_txlog_prefix {s t : State} (h : mfcStep s = .next t) : s.txlog <+: t.txlog := by
  rcases mfcStep_cases h with rfl | ⟨-, w, -, hw⟩ | ⟨-, rest, -, -, rfl⟩
  · exact List.prefix_rfl
  · cases hd : decode w with
    | ok i =>
      rw [runWord_ok hd] at hw
      obtain ⟨new, hlog, -⟩ := exec_appends hw
      exact ⟨new, hlog.symm⟩
    | error r =>
      rw [runWord_error hd] at hw
      cases hw
      exact List.prefix_rfl
  · exact (Appends.sendCmds rest.ending rest.bytes s).isPrefix

theorem transportStep_txlog {next : Transport} {s t : State} (h : transportStep next s = .next t) :
    t.txlog = s.txlog := by
  cases ho : s.env.owed with
  | true => rw [transportStep_of_owed ho] at h; cases h; rfl
  | false => rw [transportStep_of_not_owed ho] at h; cases h; rfl

theorem step_txlog_prefix {s t : State} (hreset : ∀ draw tr ts, ¬ s.HostFaces (.hardwareReset draw tr) ts)
    (h : step s = .next t) : s.txlog <+: t.txlog := by
  cases hturns : s.env.turns with
  | nil =>
    rw [step_of_no_turn hturns] at h
    cases h
    exact List.prefix_rfl
  | cons a ts =>
    rw [step_of_turn hturns] at h
    cases a with
    | host e =>
      have hne : ∀ draw tr, e ≠ .hardwareReset draw tr := fun draw tr he => hreset draw tr ts (he ▸ hturns)
      obtain ⟨-, hlog, -⟩ := serve_frame hne h
      rw [hlog, State.moveOn_txlog]
      exact List.prefix_rfl
    | mfc => exact mfcStep_txlog_prefix (s := s.setTurns ts) h
    | transport next =>
      rw [transportStep_txlog h]
      exact List.prefix_rfl

/-- The state after the host drives hardware reset. -/
theorem step_of_hardwareReset {s : State} {draw : List Byte} {tr : Transport} {ts : List Turn}
    (h : s.HostFaces (.hardwareReset draw tr) ts) :
    step s = .next ((s.setTurns ts).moveOn.hardwareReset draw tr) :=
  step_of_host h

/-- Settles O55: `Tx` by the two answers of the transport, operations by `exec_appends`, steps by the agent's turn. -/
theorem transmitLogOnlyGrows : Obligations.TransmitLogOnlyGrows := by
  unfold Obligations.TransmitLogOnlyGrows
  exact ⟨State.tx_emits, fun s draw tr ts h => ⟨_, step_of_hardwareReset h, rfl⟩, fun i s t h => exec_appends h,
    fun s t hreset h => step_txlog_prefix hreset h⟩

end Sys2Proof.Machine
end

section
/-! Reset (10_state R41, 70_reset_and_hazards R210) and the buffer of a valid handle (R33). Settles O7, O8 and O12. -/

namespace Sys2Proof.Machine

/-- Every register, and every number that names none, reads 0 after hardware reset. -/
theorem Regs.read_reset : ∀ n : BitVec 4, Regs.reset.read n = 0 := by decide

theorem Regs.not_valid_reset : ¬ Regs.reset.Valid := by decide

theorem Regs.phase_reset : Regs.reset.phase = 0 := by decide

theorem Regs.pwr_reset : Regs.reset.pwr = 0 := by decide

/-- Every content of the first `n` bytes is some draw. -/
theorem exists_draw (n : Nat) (f : Nat → Byte) : ∃ draw : List Byte, ∀ k, k < n → draw.getD k 0 = f k :=
  ⟨(List.range n).map f, fun k hk => by simp [hk]⟩

/-- Settles O7: the step is `State.hardwareReset`, and the drawn bytes read back by `Memory.read_ofBytes`. -/
theorem hardwareResetClearsRegistersAndLog : Obligations.HardwareResetClearsRegistersAndLog := by
  unfold Obligations.HardwareResetClearsRegistersAndLog
  refine ⟨fun s draw tr ts h => ⟨_, step_of_hardwareReset h, Regs.read_reset, rfl, rfl, rfl, rfl, Regs.not_valid_reset,
    Regs.phase_reset, Regs.pwr_reset, fun k hk => ?_⟩, exists_draw Config.fbCap⟩
  exact Memory.read_ofBytes draw hk

/-- Settles O8: both memories and TXLOG are empty, and the machine is idle at the start of an empty program. -/
theorem resetSatisfiesTheInvariant : Obligations.ResetSatisfiesTheInvariant where
  fbCanonical := Memory.wf_nil
  assetsCanonical := by decide
  faultLegal := by decide
  txShaped := List.forall_mem_nil _
  busyLegal := by decide
  indexLegal := by decide

/-- Settles O12, by the laws of a valid handle's buffer. -/
theorem validBufferIsWholePagesAndFits : Obligations.ValidBufferIsWholePagesAndFits := by
  unfold Obligations.ValidBufferIsWholePagesAndFits
  exact fun r hv => ⟨hv.bufsize_eq.trans (Nat.mul_comm _ _), hv.bufsize_pos, hv.bufsize_le⟩

end Sys2Proof.Machine
end

section
/-! A word on its way from the host's program to the operation it decodes to (10_state R21, R34, 60_exceptions R189), and
the register port (R22). Settles O48 and O50. -/

namespace Sys2Proof.Machine

/-- A word presented to a machine that is ready is captured. -/
theorem presentWord_of_ready {s : State} {w : OpWord} (h : s.Ready) (hw : s.nextWord = some w) :
    presentWord s = .next ((s.accept w).setIssued true) := by
  rw [presentWord_of_some hw, issueWord, if_pos h]

/-- The host's turn at a machine that is ready captures the word at its index. -/
theorem step_presents {s : State} {w : OpWord} {ts : List Turn} (h : s.HostFaces .present ts)
    (hstatus : s.regs.status = 0) (hfault : s.regs.fault = 0) (hw : s.env.program[s.nextIndex]? = some w) :
    step s = .next { s with regs := { s.regs with status := 1 }, seq := .captured w,
                            env := { s.env with hostPc := s.nextIndex, issued := true, turns := ts } } := by
  rw [step_of_host h, State.setTurns_moveOn, State.moveOn_of_ready ⟨hstatus, hfault⟩]
  refine presentWord_of_ready ?_ ?_
  · exact ⟨hstatus, hfault⟩
  · exact hw

/-- The MFC's turn runs the word it has captured. -/
theorem step_runs {s : State} {w : OpWord} {i : Instr} {ts : List Turn} (h : s.env.turns = .mfc :: ts)
    (hseq : s.seq = .captured w) (hfault : s.regs.fault = 0) (hw : decode w = .ok i) :
    step s = exec i { s with env := { s.env with turns := ts } } := by
  rw [step_of_turn h]
  exact (mfcStep_of_captured (s := s.setTurns ts) hfault hseq).trans (runWord_ok hw _)

theorem decode_of_decodeTableWord {w : Nat} {i : Instr} (hw : w < 2 ^ 160) (h : decodeTableWord 160 w = some i) :
    decode (BitVec.ofNat 160 w) = .ok i := by
  simp only [decodeTableWord, Nat.mod_eq_of_lt hw, if_pos hw] at h
  split at h
  · cases h
    assumption
  · cases h

/-- The word placed before the machine is the number itself when it fits. -/
theorem State.withFetchWord_eq (s : State) {w : Nat} (hw : w < 2 ^ 160) :
    s.withFetchWord 160 w =
      (((s.load [BitVec.ofNat 160 w]).accept (BitVec.ofNat 160 w)).setIssued true).setTurns [.mfc] := by
  rw [State.withFetchWord, Nat.mod_eq_of_lt hw]

/-- Settles O48: the host's turn is `step_presents`, the MFC's is `step_runs`, and `withFetchWord` is the state between
the two. -/
theorem stepRunsTheDecodedInstruction : Obligations.StepRunsTheDecodedInstruction := by
  unfold Obligations.StepRunsTheDecodedInstruction
  refine ⟨fun s w ts => step_presents, fun s w i ts => step_runs, fun s w hstatus hfault hw => ?_,
    fun s w i hw hi hfault => ?_⟩
  · rw [State.withFetchWord_eq s hw]
    exact step_presents (s := (s.load [BitVec.ofNat 160 w]).setTurns [.host .present, .mfc]) rfl hstatus hfault rfl
  · rw [State.withFetchWord_eq s hw]
    exact step_runs rfl rfl hfault (decode_of_decodeTableWord hw hi)

/-- A register read at a machine that is not busy, STATUS or another. -/
theorem readRegPort_of_not_busy {s : State} (h : s.regs.status = 0) (n : BitVec 4) :
    readRegPort n s = .next (s.setHostData (s.regs.read n)) := by
  rw [readRegPort, whileIdle, if_pos h, ite_self]

/-- Numbers that name no register read 0. -/
theorem Regs.read_of_twelve_le (r : Regs) {n : BitVec 4} (hn : 12 ≤ n.toNat) : r.read n = 0 := by
  have hcases : n = 12 ∨ n = 13 ∨ n = 14 ∨ n = 15 := by
    revert n
    decide
  rcases hcases with rfl | rfl | rfl | rfl <;> rfl

/-- Counting a completed operation changes the surroundings alone. -/
theorem State.moveOn_eq (s : State) : s.moveOn = { s with env := s.moveOn.env } := by
  unfold State.moveOn; split <;> rfl

/-- Settles O50: the port's answer by `readRegPort_of_not_busy`, the registers' values by zero-extension. -/
theorem registerPortReturnsTheRegister : Obligations.RegisterPortReturnsTheRegister := by
  unfold Obligations.RegisterPortReturnsTheRegister
  have hextend : ∀ {n : Nat} (v : BitVec n), n ≤ 32 → (v.setWidth 32).toNat = v.toNat :=
    fun _ hn => BitVec.toNat_setWidth_of_le hn
  refine ⟨fun s n ts hstatus h => ?_, fun r => ⟨?_, fun n hn => r.read_of_twelve_le hn⟩⟩
  · rw [step_of_host h, State.setTurns_moveOn, State.moveOn_eq]
    refine readRegPort_of_not_busy ?_ n
    exact hstatus
  · exact ⟨hextend r.width (by decide), hextend r.height (by decide), rfl, hextend r.devaddr (by decide),
      hextend r.bufok (by decide), hextend r.inv (by decide), hextend r.curx (by decide), hextend r.cury (by decide),
      hextend r.session (by decide), hextend r.fault (by decide), rfl, hextend r.status (by decide)⟩

end Sys2Proof.Machine
end

section
/-! Where an operation writes: framebuffer bytes below BUFSIZE that exist (20_memory R52, R53, 93 U14), and no address
space but its own (R50, R61). Settles O56 and O57. -/

namespace Sys2Proof.Machine

/-! ### The framebuffer -/

/-- Framebuffer reads depend on the framebuffer alone. -/
theorem State.readFb_congr {s t : State} (h : t.fb = s.fb) (a : Nat) : t.readFb a = s.readFb a := by
  rw [State.readFb, State.readFb, h]

/-- From `s` to `t` the framebuffer was written below BUFSIZE only, and stays canonical if it was. -/
structure WritesInBuffer (s t : State) : Prop where
  wf    : Memory.wf s.fb → Memory.wf t.fb
  above : ∀ a, s.regs.bufsize.toNat ≤ a → t.readFb a = s.readFb a

theorem WritesInBuffer.of_fb_eq {s t : State} (h : t.fb = s.fb) : WritesInBuffer s t :=
  ⟨fun hwf => by rwa [h], fun a _ => State.readFb_congr h a⟩

/-- What is done after the last write of the framebuffer does not matter. -/
theorem WritesInBuffer.then_fb_eq {s t u : State} (h : WritesInBuffer s t) (hfb : u.fb = t.fb) : WritesInBuffer s u :=
  ⟨fun hwf => hfb ▸ h.wf hwf, fun a ha => (State.readFb_congr hfb a).trans (h.above a ha)⟩

theorem WritesInBuffer.of_drawn {s t : State} (hv : s.regs.Valid) (h : Drawn s t) : WritesInBuffer s t :=
  ⟨h.wf hv, h.above hv⟩

theorem WritesInBuffer.fillFb {s : State} (hv : s.regs.Valid) (v : Byte) : WritesInBuffer s (s.fillFb v) where
  wf hwf := Memory.wf_fillFrom v hwf (by simpa using hv.bufsize_le)
  above a ha := by rw [State.readFb_fillFb, if_neg (by omega)]

theorem WritesInBuffer.opRun (i : Instr) (s : State) : WritesInBuffer s (opRun i s).state := by
  have hvalid : ∀ k : State → Run, (s.regs.Valid → WritesInBuffer s (k s).state) →
      WritesInBuffer s (s.requireValid k).state :=
    fun k hk => State.requireValid_rel (R := WritesInBuffer) (.of_fb_eq rfl) hk
  cases i with
  | config width height bufsize devaddr bok => exact .of_fb_eq rfl
  | putPixel x y c =>
    exact hvalid (fun s => .go (putPixel x.toNat y.toNat c s)) fun hv => .of_drawn hv (Drawn.putPixel _ _ _ _)
  | drawBitmap x y src w h c => exact hvalid _ fun hv => .of_drawn hv (Drawn.blit _ _ _ _ _ _ _)
  | drawChar font ch x y c => exact hvalid _ fun hv => .of_drawn hv (Drawn.drawChar _ _ _ _ _ _)
  | drawString font text x y c =>
    exact hvalid (fun s => drawText font c (Config.asSize - text.toNat) (s.setCursor x y)) fun hv =>
      .of_drawn hv ((Drawn.setCursor x y s).trans (Drawn.drawText _ _ _ _))
  | fill => exact hvalid (fun s => .go (s.fillFb 0xFF#8)) fun hv => .fillFb hv _
  | clear => exact hvalid (fun s => .go (s.fillFb 0x00#8)) fun hv => .fillFb hv _
  | _ => exact hvalid .go fun _ => .of_fb_eq rfl

/-- Of what comes after the first part of an operation, INIT's buffer phase alone writes the framebuffer. -/
theorem opLast_fb {i : Instr} (hi : i ≠ .init) (s : State) : (opLast i s).fb = s.fb := by
  cases i with
  | init => exact absurd rfl hi
  | writeCommand cmd => exact State.sendCmds_fb _ _ _
  | displayOn => exact State.sendCmds_fb _ _ _
  | displayOff => exact State.sendCmds_fb _ _ _
  | invert => exact State.sendCmds_fb _ _ (s.setInv (1 - s.regs.inv))
  | flush => exact State.tx_rel (R := fun s t => t.fb = s.fb) rfl rfl
  | _ => rfl

theorem WritesInBuffer.opLast_init {s : State} (hv : s.regs.Valid) : WritesInBuffer s (opLast .init s) :=
  (WritesInBuffer.fillFb hv 0x00#8).then_fb_eq (State.sendCmds_fb _ _ (initSoft s))

theorem WritesInBuffer.exec {i : Instr} {s t : State} (h : exec i s = .next t) : WritesInBuffer s t := by
  rw [exec_opRun] at h
  have hrun := WritesInBuffer.opRun i s
  rcases Run.finishWith_cases h with ⟨u, hu, rfl⟩ | ⟨f, info, u, hu, rfl⟩
  · by_cases hi : i = .init
    · subst hi
      obtain ⟨hv, rfl⟩ := opRun_go_of_transmits rfl hu
      exact .opLast_init hv
    · rw [hu] at hrun
      exact hrun.then_fb_eq (opLast_fb hi u)
  · rw [hu] at hrun
    exact hrun.then_fb_eq rfl

theorem WritesInBuffer.runWord {w : OpWord} {s t : State} (h : runWord w s = .next t) : WritesInBuffer s t := by
  cases hd : decode w with
  | ok i =>
    rw [runWord_ok hd] at h
    exact .exec h
  | error r =>
    rw [runWord_error hd] at h
    cases h
    exact .of_fb_eq rfl

theorem WritesInBuffer.mfcStep {s t : State} (h : mfcStep s = .next t) : WritesInBuffer s t := by
  rcases mfcStep_cases h with rfl | ⟨-, w, -, hw⟩ | ⟨-, rest, -, -, rfl⟩
  · exact .of_fb_eq rfl
  · exact .runWord hw
  · exact .of_fb_eq (State.sendCmds_fb rest.ending rest.bytes s)

/-- Settles O57: `WritesInBuffer` holds across every operation and every turn of the MFC. -/
theorem bytesAtAndAboveBufsizeAreNeverWritten : Obligations.BytesAtAndAboveBufsizeAreNeverWritten := by
  unfold Obligations.BytesAtAndAboveBufsizeAreNeverWritten
  exact ⟨fun _ _ _ a h => (WritesInBuffer.exec h).above a, fun _ _ a h => (WritesInBuffer.mfcStep h).above a⟩

/-! ### The address spaces -/

theorem opRun_fb {i : Instr} (hi : writesFb i = false) (s : State) : (opRun i s).state.fb = s.fb := by
  cases i with
  | putPixel | drawBitmap | drawChar | drawString | init | fill | clear => cases hi
  | config width height bufsize devaddr bok => rfl
  | _ => exact State.requireValid_rel (R := fun s t => t.fb = s.fb) (k := .go) rfl fun _ => rfl

theorem exec_fb {i : Instr} (hi : writesFb i = false) {s t : State} (h : exec i s = .next t) : t.fb = s.fb := by
  have hinit : i ≠ .init := fun he => by subst he; cases hi
  have hrun := opRun_fb hi s
  rw [exec_opRun] at h
  rcases Run.finishWith_cases h with ⟨u, hu, rfl⟩ | ⟨f, info, u, hu, rfl⟩ <;> rw [hu] at hrun
  · exact (opLast_fb hinit u).trans hrun
  · exact hrun

theorem exec_txlog {i : Instr} (hi : transmits i = false) {s t : State} (h : exec i s = .next t) :
    t.txlog = s.txlog := by
  have hrun := opRun_txlog i s
  rw [exec_opRun] at h
  rcases Run.finishWith_cases h with ⟨u, hu, rfl⟩ | ⟨f, info, u, hu, rfl⟩ <;> rw [hu] at hrun
  · rw [opLast_of_not_transmits hi]
    exact hrun
  · exact hrun

/-- The surroundings that are not the transport's, field by field. -/
theorem SameSurroundings.fields {s t : State} (h : SameSurroundings s t) :
    t.env.assets = s.env.assets ∧ t.env.display = s.env.display ∧ t.env.program = s.env.program ∧
      t.env.hostPc = s.env.hostPc ∧ t.env.issued = s.env.issued ∧ t.env.hostData = s.env.hostData ∧
      t.env.turns = s.env.turns := by
  unfold SameSurroundings at h
  rw [h]
  exact ⟨rfl, rfl, rfl, rfl, rfl, rfl, rfl⟩

/-- Settles O56: TXLOG and FB by the two parts of an operation, the surroundings by `SameSurroundings.exec`. -/
theorem operationsReachOnlyTheirSpaces : Obligations.OperationsReachOnlyTheirSpaces := by
  unfold Obligations.OperationsReachOnlyTheirSpaces
  exact fun i s t h => ⟨fun hi => exec_txlog hi h, fun hi => exec_fb hi h, (SameSurroundings.exec h).fields⟩

end Sys2Proof.Machine
end

section
/-! Every step of every agent keeps the invariant of Safety.lean. What an operation writes in the course of its run is
followed by `Underway`, and what must hold where it ends or waits is `TurnEnded`; the rest of the invariant the MFC
keeps by writing in its buffer alone and by moving nothing of the host. Settles O9. -/

namespace Sys2Proof.Machine

/-! ### Operations of the MFC -/

/-- What holds of an operation that runs, between its accesses: no fault, its transactions shaped, no report awaited. -/
structure State.Underway (s : State) : Prop where
  fault     : s.regs.fault = 0
  faultinfo : s.regs.faultinfo = 0
  txShaped  : ∀ x ∈ s.txlog, x.Shaped
  notOwed   : s.env.owed = false

/-- What holds where the MFC's turn ends: the operation is complete, faulted or waiting. -/
structure State.TurnEnded (s : State) : Prop where
  faultLegal : s.regs.FaultLegal
  txShaped   : ∀ x ∈ s.txlog, x.Shaped
  busyLegal  : s.BusyLegal

theorem State.Underway.complete {s : State} (h : s.Underway) : s.complete.TurnEnded where
  faultLegal := by simp [Regs.FaultLegal, h.fault, h.faultinfo]
  txShaped := h.txShaped
  busyLegal := by simp [State.BusyLegal, h.notOwed]

theorem State.Underway.await {s : State} (h : s.Underway) (rest : Rest) : (s.await rest).TurnEnded where
  faultLegal := by simp [Regs.FaultLegal, h.fault, h.faultinfo]
  txShaped := h.txShaped
  busyLegal := by simp [State.BusyLegal, Sequencer.waits]

theorem State.Underway.takeFault {s : State} (h : s.Underway) (f : Cause) (info : Word) :
    (s.takeFault f info).TurnEnded where
  faultLegal := by cases f <;> simp [Regs.FaultLegal, Cause.code]
  txShaped := h.txShaped
  busyLegal := by simp [State.BusyLegal, h.notOwed]

theorem State.Underway.log {s : State} (h : s.Underway) {x : Transaction} (hx : x.Shaped) : (s.log x).Underway where
  fault := h.fault
  faultinfo := h.faultinfo
  txShaped y hy := (List.mem_append.1 hy).elim (h.txShaped y) fun hy => List.mem_singleton.1 hy ▸ hx
  notOwed := h.notOwed

/-- `Underway` does not speak of the transport's count. -/
theorem State.Underway.setTransport {s : State} (h : s.Underway) (tr : Transport) : (s.setTransport tr).Underway :=
  ⟨h.fault, h.faultinfo, h.txShaped, h.notOwed⟩

theorem State.Underway.endingRun {s : State} (h : s.Underway) (e : Ending) : (e.run s).Underway := by
  cases e <;> exact ⟨h.fault, h.faultinfo, h.txShaped, h.notOwed⟩

theorem State.Underway.tx {s : State} (h : s.Underway) {tag : Tag} {bs : List Byte}
    (hx : Transaction.Shaped ⟨s.regs.devaddr, tag, bs⟩) (rest : Rest) {k : State → State}
    (hk : ∀ u : State, u.Underway → (k u).TurnEnded) : (s.tx tag bs rest k).TurnEnded :=
  State.tx_rel (R := fun _ t => t.TurnEnded) (hk _ ((h.log hx).setTransport _)) ((h.log hx).await rest)

theorem State.Underway.sendCmds {s : State} (h : s.Underway) (e : Ending) (bs : List Byte) :
    (State.sendCmds e bs s).TurnEnded := by
  induction bs generalizing s with
  | nil => exact (h.endingRun e).complete
  | cons b bs ih => exact h.tx rfl ⟨bs, e⟩ fun _ hu => ih hu

/-- FLUSH's transaction is shaped: a valid handle's buffer is not empty and fits the memory that exists (R33, R166). -/
theorem shaped_readOut {s : State} (hv : s.regs.Valid) :
    Transaction.Shaped ⟨s.regs.devaddr, .data, Memory.readOut s.fb s.regs.bufsize.toNat⟩ := by
  simp only [Transaction.Shaped, Memory.length_readOut]
  exact ⟨hv.bufsize_pos, hv.bufsize_le⟩

theorem State.Underway.opLast {s : State} (h : s.Underway) (i : Instr) (hv : transmits i = true → s.regs.Valid) :
    (opLast i s).TurnEnded := by
  cases i with
  | writeCommand cmd => exact h.sendCmds _ _
  | init =>
    have hsoft : (initSoft s).Underway := ⟨h.fault, h.faultinfo, h.txShaped, h.notOwed⟩
    exact hsoft.sendCmds _ _
  | displayOn => exact h.sendCmds _ _
  | displayOff => exact h.sendCmds _ _
  | invert =>
    have hinv : (s.setInv (1 - s.regs.inv)).Underway := ⟨h.fault, h.faultinfo, h.txShaped, h.notOwed⟩
    exact hinv.sendCmds _ _
  | flush => exact h.tx (shaped_readOut (hv rfl)) _ fun _ hu => hu.complete
  | _ => exact h.complete

/-- Before its last part an operation leaves FAULT and FAULTINFO alone: a fault is written where it is taken. -/
theorem opRun_fault (i : Instr) (s : State) :
    (opRun i s).state.regs.fault = s.regs.fault ∧ (opRun i s).state.regs.faultinfo = s.regs.faultinfo := by
  cases hi : writesHandle i with
  | true =>
    obtain ⟨width, height, bufsize, devaddr, bok, rfl⟩ := eq_config_of_writesHandle hi
    exact ⟨rfl, rfl⟩
  | false =>
    rw [(opRun_frame hi s).regs]
    exact ⟨rfl, rfl⟩

theorem State.Underway.opRun {s : State} (h : s.Underway) (i : Instr) : (opRun i s).state.Underway where
  fault := (opRun_fault i s).1.trans h.fault
  faultinfo := (opRun_fault i s).2.trans h.faultinfo
  txShaped := by rw [opRun_txlog]; exact h.txShaped
  notOwed := by rw [opRun_env]; exact h.notOwed

theorem State.Underway.exec {i : Instr} {s t : State} (h : s.Underway) (hexec : exec i s = .next t) : t.TurnEnded := by
  rw [exec_opRun] at hexec
  have hrun := h.opRun i
  rcases Run.finishWith_cases hexec with ⟨u, hu, rfl⟩ | ⟨f, info, u, hu, rfl⟩ <;> rw [hu] at hrun
  · refine hrun.opLast i fun hi => ?_
    obtain ⟨hv, rfl⟩ := opRun_go_of_transmits hi hu
    exact hv
  · exact hrun.takeFault f info

theorem State.Underway.runWord {w : OpWord} {s t : State} (h : s.Underway) (hrun : runWord w s = .next t) :
    t.TurnEnded := by
  cases hd : decode w with
  | ok i =>
    rw [runWord_ok hd] at hrun
    exact h.exec hrun
  | error r =>
    rw [runWord_error hd] at hrun
    cases hrun
    exact h.takeFault _ _

/-! ### The agents' turns -/

/-- The operation that runs is underway, unless it waits. -/
theorem State.Inv.underway {s : State} (h : s.Inv) (hfault : s.regs.fault = 0) (howed : s.env.owed = false) :
    s.Underway := by
  obtain ⟨-, hinfo, -⟩ := h.faultLegal
  exact ⟨hfault, hinfo hfault, h.txShaped, howed⟩

/-- A report is owed only to an operation that waits. -/
theorem State.Inv.notOwed {s : State} (h : s.Inv) (hseq : s.seq.waits = false) : s.env.owed = false := by
  cases howed : s.env.owed with
  | false => rfl
  | true =>
    obtain ⟨-, hwaits⟩ := h.busyLegal
    exact nomatch hseq.symm.trans (hwaits howed)

/-- The MFC keeps the invariant where its turn ends: it writes in its buffer alone and moves nothing of the host. -/
theorem State.Inv.of_turnEnded {s t : State} (h : s.Inv) (hbusy : s.seq ≠ .idle) (hsame : SameSurroundings s t)
    (hbuffer : WritesInBuffer s t) (hended : t.TurnEnded) : t.Inv := by
  obtain ⟨hassets, -, hprogram, hindex, hissued, -, -⟩ := hsame.fields
  obtain ⟨hrunning, -⟩ := h.busyLegal
  obtain ⟨hcounted, hcaptured, hinside⟩ := h.indexLegal
  refine ⟨hbuffer.wf h.fbCanonical, hassets ▸ h.assetsCanonical, hended.faultLegal, hended.txShaped, hended.busyLegal,
    fun _ => ?_, ?_, ?_⟩
  · exact hissued.trans (hcounted (hrunning.2 hbusy))
  · rwa [hissued, hindex, hprogram]
  · rwa [hindex, hprogram]

theorem State.Inv.mfcStep {s t : State} (h : s.Inv) (hstep : mfcStep s = .next t) : t.Inv := by
  have hsame := SameSurroundings.mfcStep hstep
  have hbuffer := WritesInBuffer.mfcStep hstep
  rcases mfcStep_cases hstep with rfl | ⟨hfault, w, hseq, hw⟩ | ⟨hfault, rest, hseq, howed, rfl⟩
  · exact h
  · have hunderway := h.underway hfault (h.notOwed (by rw [hseq]; rfl))
    exact h.of_turnEnded (by simp [hseq]) hsame hbuffer (hunderway.runWord hw)
  · exact h.of_turnEnded (by simp [hseq]) hsame hbuffer ((h.underway hfault howed).sendCmds rest.ending rest.bytes)

theorem State.Inv.transportStep {next : Transport} {s t : State} (h : s.Inv) (hstep : transportStep next s = .next t) :
    t.Inv := by
  cases howed : s.env.owed with
  | true =>
    rw [transportStep_of_owed howed] at hstep
    cases hstep
    obtain ⟨hrunning, -⟩ := h.busyLegal
    exact { h with busyLegal := ⟨hrunning, nofun⟩ }
  | false =>
    rw [transportStep_of_not_owed howed] at hstep
    cases hstep
    exact h

/-- The host counts an operation only while its index is at a word of the program. -/
theorem State.Inv.moveOn {s : State} (h : s.Inv) : s.moveOn.Inv := by
  by_cases hc : s.env.issued = true ∧ s.Ready
  · obtain ⟨hissued, hready⟩ := hc
    obtain ⟨-, hcaptured, -⟩ := h.indexLegal
    rw [State.moveOn_of_completed hissued hready]
    exact { h with indexLegal := ⟨fun hbusy => absurd (hready.1.symm.trans hbusy) (by decide), nofun,
      hcaptured hissued⟩ }
  · rw [State.moveOn, if_neg hc]
    exact h

theorem State.Inv.hardwareReset {s : State} (h : s.Inv) (draw : List Byte) (tr : Transport) :
    (s.hardwareReset draw tr).Inv where
  fbCanonical := Memory.wf_ofBytes draw
  assetsCanonical := h.assetsCanonical
  faultLegal := by simp [Regs.FaultLegal, Regs.reset]
  txShaped := List.forall_mem_nil _
  busyLegal := by simp [State.BusyLegal, Regs.reset]
  indexLegal := ⟨by simp [Regs.reset], nofun, h.indexLegal.2.2⟩

/-- A captured word is the one at the host's index, so the index is inside the program. -/
theorem State.Inv.capture {s : State} {w : OpWord} (h : s.Inv) (hready : s.Ready) (hw : s.nextWord = some w) :
    ((s.accept w).setIssued true).Inv := by
  obtain ⟨hstatus, hfault⟩ := hready
  obtain ⟨hinside, -⟩ := List.getElem?_eq_some_iff.1 hw
  obtain ⟨hcode, hinfo, -⟩ := h.faultLegal
  obtain ⟨hrunning, -⟩ := h.busyLegal
  have hidle : s.seq = .idle := by
    by_contra hbusy
    exact absurd (hstatus.symm.trans (hrunning.2 hbusy)) (by decide)
  have howed : s.env.owed = false := h.notOwed (by rw [hidle]; rfl)
  exact { h with
    faultLegal := ⟨hcode, hinfo, fun hne => absurd hfault hne⟩
    busyLegal := ⟨by simp, fun ho => nomatch howed.symm.trans ho⟩
    indexLegal := ⟨fun _ => rfl, fun _ => hinside, hinside.le⟩ }

theorem State.Inv.serve {e : HostEvent} {s t : State} (h : s.Inv) (hserve : serve e s = .next t) : t.Inv := by
  rcases serve_cases hserve with ⟨draw, tr, -, rfl⟩ | ⟨a, v, -, -, ha, rfl⟩ | ⟨a, v, -, -, rfl⟩ |
    ⟨-, w, hw, hready, rfl⟩ | ⟨-, rfl⟩ | ⟨v, rfl⟩
  · exact h.hardwareReset draw tr
  · exact { h with fbCanonical := Memory.wf_write h.fbCanonical ha v }
  · exact { h with assetsCanonical := Assets.wf_set h.assetsCanonical a v }
  · exact h.capture hready hw
  · exact h
  · exact { h with }

theorem State.Inv.takeTurn {a : Turn} {s t : State} (h : s.Inv) (hturn : takeTurn a s = .next t) : t.Inv := by
  cases a with
  | host e => exact h.moveOn.serve hturn
  | mfc => exact h.mfcStep hturn
  | transport next => exact h.transportStep hturn

/-- Settles O9: each agent's turn keeps the invariant, and the list of turns to come is no part of it. -/
theorem everyStepKeepsTheInvariant : Obligations.EveryStepKeepsTheInvariant := by
  unfold Obligations.EveryStepKeepsTheInvariant
  intro s t h hstep
  cases hturns : s.env.turns with
  | nil =>
    rw [step_of_no_turn hturns] at hstep
    cases hstep
    exact h
  | cons a ts =>
    rw [step_of_turn hturns] at hstep
    have hrest : (s.setTurns ts).Inv := { h with }
    exact hrest.takeTurn hstep

end Sys2Proof.Machine
end

section
/-! The framebuffer as data and as pixels: the canonical form (assumption 1) and the pixel map (20_memory R51,
40_pixel_compositor R110). Settles O10 and O11. -/

namespace Sys2Proof.Machine

/-- No cell is listed where no byte exists. -/
theorem Memory.find_of_fbCap_le {m : List Host.Cell} (h : Memory.wf m) {a : Nat} (ha : Config.fbCap ≤ a) :
    Cells.find m a = none := by
  cases hf : Cells.find m a with
  | none => rfl
  | some v => exact absurd (h.2 _ (Cells.mem_of_find hf)).1 (Nat.not_lt.2 ha)

/-- A canonical list lists an address exactly when its byte is not the unlisted one. -/
theorem Memory.find_of_wf {m : List Host.Cell} (h : Memory.wf m) (a : Nat) :
    Cells.find m a = if Memory.read m a = Memory.unlisted then none else some (Memory.read m a) := by
  cases hf : Cells.find m a with
  | none => simp [Memory.read, hf]
  | some v =>
    have hv : v ≠ Memory.unlisted := (h.2 _ (Cells.mem_of_find hf)).2
    simp [Memory.read, hf, hv]

/-- Settles O10: reads determine what a canonical list finds, and that determines the list (`Cells.ext_find`). -/
theorem canonicalFramebuffersWithEqualReadsAreEqual : Obligations.CanonicalFramebuffersWithEqualReadsAreEqual := by
  unfold Obligations.CanonicalFramebuffersWithEqualReadsAreEqual
  intro m n hm hn hread
  refine Cells.ext_find hm.1 hn.1 fun a => ?_
  by_cases ha : a < Config.fbCap
  · rw [Memory.find_of_wf hm, Memory.find_of_wf hn, hread a ha]
  · rw [Memory.find_of_fbCap_le hm (Nat.not_lt.1 ha), Memory.find_of_fbCap_le hn (Nat.not_lt.1 ha)]

/-- The pixel of bit `b` of byte `a`: column `a mod WIDTH`, row `b` of page `a / WIDTH`. -/
theorem pixel_bits_surjective {r : Regs} (hv : r.Valid) {a b : Nat} (ha : a < r.bufsize.toNat) (hb : b < 8) :
    ∃ x y, r.InRange x y ∧ byteIndex r.width.toNat x y = a ∧ bitIndex y = b := by
  rw [hv.bufsize_eq] at ha
  have hwidth : 0 < r.width.toNat := Nat.pos_of_mul_pos_left (Nat.zero_lt_of_lt ha)
  have hpage : a / r.width.toNat < r.height.toNat / 8 := (Nat.div_lt_iff_lt_mul hwidth).2 ha
  have hrow : (a / r.width.toNat * 8 + b) / 8 = a / r.width.toNat := by omega
  refine ⟨a % r.width.toNat, a / r.width.toNat * 8 + b, ⟨Nat.mod_lt a hwidth, by omega⟩, ?_, ?_⟩
  · show a % r.width.toNat + (a / r.width.toNat * 8 + b) / 8 * r.width.toNat = a
    rw [hrow, Nat.mul_comm]
    exact Nat.mod_add_div a r.width.toNat
  · show (a / r.width.toNat * 8 + b) % 8 = b
    omega

/-- Settles O11: the map is one to one by `pixel_bits_injective` and onto by `pixel_bits_surjective`. -/
theorem pixelMapIsABijectionOntoTheBuffer : Obligations.PixelMapIsABijectionOntoTheBuffer := by
  unfold Obligations.PixelMapIsABijectionOntoTheBuffer
  exact ⟨fun _ _ _ => rfl, fun r hv => ⟨hv.bufsize_le, fun _ _ => ⟨rfl, rfl⟩,
    fun _ y hp => ⟨hv.byteIndex_lt hp, bitIndex_lt y⟩, fun _ _ _ _ hp hq => pixel_bits_injective hp.1 hq.1,
    fun _ _ => pixel_bits_surjective hv⟩⟩

end Sys2Proof.Machine
end

section
/-! An operation that waits in `Tx` (20_memory R57, 70_reset_and_hazards R229): how it comes to wait, how it waits, and
how it goes on. Settles O38 and O40. -/

namespace Sys2Proof.Machine

/-! ### Coming to wait -/

/-- A single command that the transport holds. -/
theorem State.sendCmds_one_held (e : Ending) (b : Byte) {s : State} (h : s.env.transport = .holdsAfter 0) :
    State.sendCmds e [b] s = (s.log ⟨s.regs.devaddr, .cmd, [b]⟩).await ⟨[], e⟩ :=
  State.tx_held h .cmd [b] ⟨[], e⟩ (State.sendCmds e [])

/-- The command INVERT sends, by the flag it finds (44_device_session R161). -/
theorem polarityCommand_complement (d : Config.DisplayCommands) (inv : Bit) :
    polarityCommand d (1 - inv) = if inv = 0 then d.cmdInverse else d.cmdNormal := by
  have hbit : inv = 0 ∨ inv = 1 := by
    revert inv
    decide
  rcases hbit with rfl | rfl <;> rfl

/-- Settles O38: each operation is its last part (`exec_of_transmits`), whose one transaction is held. -/
theorem oneTransactionOperationsWaitInATransactionHeld :
    Obligations.OneTransactionOperationsWaitInATransactionHeld := by
  unfold Obligations.OneTransactionOperationsWaitInATransactionHeld
  intro s hv htransport
  refine ⟨fun cmd => ?_, ?_, ?_, ?_, Memory.readOut s.fb s.regs.bufsize.toNat, Memory.length_readOut _ _,
    fun k hk => Memory.getElem_readOut _ hk, ?_⟩
  · rw [exec_of_transmits rfl hv, opLast, State.sendCmds_one_held .done cmd htransport]
    rfl
  · rw [exec_of_transmits rfl hv, opLast, State.sendCmds_one_held (.pwr 1) _ htransport]
    rfl
  · rw [exec_of_transmits rfl hv, opLast, State.sendCmds_one_held (.pwr 0) _ htransport]
    rfl
  · rw [exec_of_transmits rfl hv, opLast, polarityCommand_complement,
      State.sendCmds_one_held (s := s.setInv (1 - s.regs.inv)) .done _ htransport]
    rfl
  · rw [exec_of_transmits rfl hv, opLast, State.tx_held htransport]
    rfl

/-! ### Waiting -/

/-- The MFC, its memory and its log are the same in both states, and so is whether a report is owed. -/
structure SameMachine (s t : State) : Prop where
  regs  : t.regs = s.regs
  fb    : t.fb = s.fb
  txlog : t.txlog = s.txlog
  seq   : t.seq = s.seq
  owed  : t.env.owed = s.env.owed

theorem SameMachine.refl (s : State) : SameMachine s s := ⟨rfl, rfl, rfl, rfl, rfl⟩

theorem SameMachine.trans {s t u : State} (hst : SameMachine s t) (htu : SameMachine t u) : SameMachine s u :=
  ⟨htu.regs.trans hst.regs, htu.fb.trans hst.fb, htu.txlog.trans hst.txlog, htu.seq.trans hst.seq,
    htu.owed.trans hst.owed⟩

/-- Short of hardware reset the host reaches nothing of a busy machine: it can only read STATUS (70_reset R224). -/
theorem serve_of_busy {e : HostEvent} {s t : State} (hbusy : s.regs.status = 1)
    (hreset : ∀ draw tr, e ≠ .hardwareReset draw tr) (h : serve e s = .next t) :
    SameMachine s t ∧ t.env.turns = s.env.turns := by
  have hnot : s.regs.status ≠ 0 := by simp [hbusy]
  rcases serve_cases h with ⟨draw, tr, he, -⟩ | ⟨a, v, -, hidle, -⟩ | ⟨a, v, -, hidle, -⟩ | ⟨-, w, -, hready, -⟩ |
    ⟨-, rfl⟩ | ⟨v, rfl⟩
  · exact absurd he (hreset draw tr)
  · exact absurd hidle hnot
  · exact absurd hidle hnot
  · exact absurd hready.1 hnot
  · exact ⟨.refl _, rfl⟩
  · exact ⟨⟨rfl, rfl, rfl, rfl, rfl⟩, rfl⟩

/-- A turn that cannot end the wait changes nothing of the machine. -/
theorem takeTurn_of_waiting {a : Turn} {s t : State} {rest : Rest} (hseq : s.seq = .waiting rest)
    (howed : s.env.owed = true) (hbusy : s.regs.status = 1) (ha : a.endsWait = false) (h : takeTurn a s = .next t) :
    SameMachine s t ∧ t.env.turns = s.env.turns := by
  cases a with
  | host e =>
    have hreset : ∀ draw tr, e ≠ .hardwareReset draw tr := fun draw tr he => by subst he; cases ha
    have hmove : s.moveOn = s := State.moveOn_of_not_ready fun hready => by simp [hready.1] at hbusy
    refine serve_of_busy hbusy hreset ?_
    rw [← h, takeTurn, hostStep, hmove]
  | mfc =>
    rw [takeTurn, mfcStep_of_owed hseq howed] at h
    cases h
    exact ⟨.refl _, rfl⟩
  | transport next => cases ha

/-- Nor does a step, with or without a turn to take. -/
theorem step_of_waiting {s t : State} {rest : Rest} (hseq : s.seq = .waiting rest) (howed : s.env.owed = true)
    (hbusy : s.regs.status = 1) (hturns : ∀ a ∈ s.env.turns, a.endsWait = false) (h : step s = .next t) :
    SameMachine s t ∧ ∀ a ∈ t.env.turns, a.endsWait = false := by
  cases hts : s.env.turns with
  | nil =>
    rw [step_of_no_turn hts] at h
    cases h
    exact ⟨.refl _, hturns⟩
  | cons a ts =>
    rw [step_of_turn hts] at h
    rw [hts] at hturns
    obtain ⟨hsame, hleft⟩ :=
      takeTurn_of_waiting (s := s.setTurns ts) hseq howed hbusy (hturns a List.mem_cons_self) h
    refine ⟨⟨hsame.regs, hsame.fb, hsame.txlog, hsame.seq, hsame.owed⟩, fun b hb => ?_⟩
    rw [hleft] at hb
    exact hturns b (List.mem_cons_of_mem a hb)

/-- The wait has no end without the transport's turn or hardware reset (R229). -/
theorem run_of_waiting {s t : State} {rest : Rest} (n : Nat) (hseq : s.seq = .waiting rest)
    (howed : s.env.owed = true) (hbusy : s.regs.status = 1) (hturns : ∀ a ∈ s.env.turns, a.endsWait = false)
    (h : Sys2Proof.core.run n s = .next t) : SameMachine s t := by
  induction n generalizing s with
  | zero =>
    rw [run_zero] at h
    cases h
    exact .refl _
  | succ n ih =>
    obtain ⟨u, hu, hrun⟩ := run_next h
    obtain ⟨hsame, hleft⟩ := step_of_waiting hseq howed hbusy hturns hu
    exact hsame.trans (ih (hsame.seq.trans hseq) (hsame.owed.trans howed) (hsame.regs ▸ hbusy) hleft hrun)

/-! ### Going on -/

/-- An ending writes SESSION alone. -/
theorem Ending.run_eq (e : Ending) (s : State) :
    e.run s = { s with regs := { s.regs with session := (e.run s).regs.session } } := by
  cases e <;> rfl

theorem Ending.run_session (e : Ending) (s : State) :
    ((e.run s).regs.phase, (e.run s).regs.pwr) = match e with
      | .done => (s.regs.phase, s.regs.pwr)
      | .pwr v => (s.regs.phase, v)
      | .init => (1, 1) := by
  cases e <;> simp [Ending.run]

/-- Settles O40: the turns of the MFC and of the transport by their laws, the end by `sendCmds_reported`, the endless
wait by `run_of_waiting`. -/
theorem waitingOperationGoesOnAtItsReport : Obligations.WaitingOperationGoesOnAtItsReport := by
  unfold Obligations.WaitingOperationGoesOnAtItsReport
  intro s rest ts hseq
  refine ⟨fun howed hturns => ?_, fun next howed hturns => ?_, fun howed hfault hturns hreports => ?_,
    fun howed hbusy hturns n t h => ?_⟩
  · rw [step_of_turn hturns]
    exact mfcStep_of_owed (s := s.setTurns ts) hseq howed
  · rw [step_of_turn hturns]
    exact transportStep_of_owed (s := s.setTurns ts) howed next
  · have hend := State.sendCmds_reported (s := s.setTurns ts) rest.ending rest.bytes hreports
    refine ⟨_, (step_of_turn hturns).trans
      ((mfcStep_of_report (s := s.setTurns ts) hfault hseq howed).trans (congrArg _ hend)), ?_⟩
    rw [Ending.run_eq]
    exact ⟨rfl, rfl, rfl, rfl, rfl, Ending.run_session rest.ending _⟩
  · obtain ⟨hregs, hfb, htxlog, hseq', howed'⟩ := run_of_waiting n hseq howed hbusy hturns h
    exact ⟨hregs, hfb, htxlog, hseq'.trans hseq, howed'.trans howed⟩

end Sys2Proof.Machine
end

section
/-! The host's framebuffer port (20_memory R60) and the preparation of the asset memory (R54, R55, R70). Settles O51 and
O52. -/

namespace Sys2Proof.Machine

theorem whileIdle_of_not_busy {s : State} (h : s.regs.status = 0) (r : Host.Outcome State Fault Refusal) :
    whileIdle s r = r := if_pos h

theorem atFb_of_lt {a : Nat} (h : a < Config.fbCap) (r : Host.Outcome State Fault Refusal) : atFb a r = r := if_pos h

theorem atFb_of_le {a : Nat} (h : Config.fbCap ≤ a) (r : Host.Outcome State Fault Refusal) :
    atFb a r = .fault (.hostFbAddress a) := if_neg (Nat.not_lt.2 h)

/-- At a machine that is not busy the framebuffer port looks at the address alone. -/
theorem readFbPort_of_not_busy {s : State} (h : s.regs.status = 0) (a : Nat) :
    readFbPort a s = atFb a (.next (s.setHostData ((s.readFb a).setWidth 32))) := whileIdle_of_not_busy h _

theorem writeFbPort_of_not_busy {s : State} (h : s.regs.status = 0) (a : Nat) (v : Byte) :
    writeFbPort a v s = atFb a (.next (s.writeFb a v)) := whileIdle_of_not_busy h _

/-- The state in which the host's event is served: its turn gone by and a completed operation counted. -/
theorem step_serves {s : State} {e : HostEvent} {ts : List Turn} (h : s.HostFaces e ts) :
    ∃ u, step s = serve e u ∧ u.regs = s.regs ∧ u.fb = s.fb ∧ u.txlog = s.txlog ∧ u.env.assets = s.env.assets :=
  ⟨_, step_of_host h, by simp, by simp, by simp, by simp⟩

/-- A host read at a machine that is not busy: the port's second check, and the byte in the host's field. -/
theorem step_readFb {s : State} {a : Nat} {ts : List Turn} (hstatus : s.regs.status = 0)
    (h : s.HostFaces (.readFb a) ts) :
    ∃ t, step s = atFb a (.next t) ∧ t.env.hostData.toNat = (s.readFb a).toNat ∧ t.regs = s.regs ∧ t.fb = s.fb ∧
      t.txlog = s.txlog := by
  obtain ⟨u, hstep, hregs, hfb, htxlog, -⟩ := step_serves h
  rw [← hregs] at hstatus
  refine ⟨_, hstep.trans (readFbPort_of_not_busy hstatus a), ?_, hregs, hfb, htxlog⟩
  rw [← State.readFb_congr hfb]
  exact BitVec.toNat_setWidth_of_le (by decide)

/-- A host write at a machine that is not busy: the port's second check, and one byte written. -/
theorem step_writeFb {s : State} {a : Nat} {v : Byte} {ts : List Turn} (hstatus : s.regs.status = 0)
    (h : s.HostFaces (.writeFb a v) ts) :
    ∃ t, step s = atFb a (.next t) ∧ t.readFb a = v ∧ (∀ b, b ≠ a → t.readFb b = s.readFb b) ∧ t.regs = s.regs ∧
      t.txlog = s.txlog := by
  obtain ⟨u, hstep, hregs, hfb, htxlog, -⟩ := step_serves h
  rw [← hregs] at hstatus
  refine ⟨_, hstep.trans (writeFbPort_of_not_busy hstatus a v), Memory.read_write_same u.fb a v, fun b hb => ?_, hregs,
    htxlog⟩
  exact (Memory.read_write_other u.fb hb v).trans (State.readFb_congr hfb b)

/-- Settles O51: below 8192 the port's second check lets the access through, at 8192 and above it stops it. -/
theorem framebufferPortReadsAndWritesOneByte : Obligations.FramebufferPortReadsAndWritesOneByte := by
  unfold Obligations.FramebufferPortReadsAndWritesOneByte
  intro s a ts hstatus
  refine ⟨fun ha h => ?_, fun v ha h => ?_, fun ha h => ?_, fun v ha h => ?_⟩
  · obtain ⟨t, hstep, hread⟩ := step_readFb hstatus h
    exact ⟨t, hstep.trans (atFb_of_lt ha _), hread⟩
  · obtain ⟨t, hstep, hwrite⟩ := step_writeFb hstatus h
    exact ⟨t, hstep.trans (atFb_of_lt ha _), hwrite⟩
  · obtain ⟨t, hstep, -⟩ := step_readFb hstatus h
    exact hstep.trans (atFb_of_le ha _)
  · obtain ⟨t, hstep, -⟩ := step_writeFb hstatus h
    exact hstep.trans (atFb_of_le ha _)

/-- No asset address is `2^32` or more (20_memory R55). -/
theorem State.asset_of_asSize_le (s : State) {a : Nat} (h : Config.asSize ≤ a) : s.asset a = none :=
  if_neg (Nat.not_lt.2 h)

theorem State.asset_setAssets (s : State) (a : AsAddr) (v : Option Byte) (b : Nat) :
    (s.setAssets (Assets.set s.env.assets a v)).asset b = if b = a.toNat then v else s.asset b := by
  by_cases hb : b = a.toNat
  · have hlt : b < Config.asSize := hb ▸ a.isLt
    simp only [State.asset, State.setAssets_env, Assets.find_set, if_pos hb, if_pos hlt]
  · simp only [State.asset, State.setAssets_env, Assets.find_set, if_neg hb]

/-- Settles O52, by the laws of the asset memory. -/
theorem assetPortChangesOneAddress : Obligations.AssetPortChangesOneAddress := by
  unfold Obligations.AssetPortChangesOneAddress
  intro s a v ts hstatus h
  obtain ⟨u, hstep, hregs, hfb, htxlog, hassets⟩ := step_serves h
  rw [← hregs] at hstatus
  refine ⟨u.setAssets (Assets.set u.env.assets a v), hstep.trans (whileIdle_of_not_busy hstatus _), ?_, fun b hb => ?_,
    fun b hb => State.asset_of_asSize_le _ hb, hregs, hfb, htxlog⟩
  · rw [State.asset_setAssets, if_pos rfl]
  · rw [State.asset_setAssets, if_neg hb, State.asset_congr hassets]

end Sys2Proof.Machine
end

section
/-! The encoder and the decoder undo each other (30_encoding R81, R82, R84). Settles O1 and O2. -/

namespace Sys2Proof

/-! ### Neighbouring fields of a slot -/

@[simp] theorem place_zero (w lo n : Nat) : place w lo 0#n = 0#w := by simp [place]

/-- Two neighbouring fields, cut out and put back, are the field that spans both. -/
theorem place_extract_or_place_extract {w : Nat} (v : BitVec w) (lo n m : Nat) :
    place w lo (v.extractLsb' lo n) ||| place w (lo + n) (v.extractLsb' (lo + n) m) =
      place w lo (v.extractLsb' lo (n + m)) := by
  apply BitVec.eq_of_getLsbD_eq
  intro k hk
  simp only [BitVec.getLsbD_or, getLsbD_place, BitVec.getLsbD_extractLsb']
  by_cases h1 : lo ≤ k
  · by_cases h2 : lo + n ≤ k
    · simp [hk, h1, h2, show ¬ k - lo < n by omega, show (k - (lo + n) < m) = (k - lo < n + m) from propext (by omega),
        show lo + n + (k - (lo + n)) = lo + (k - lo) by omega]
    · simp [h2, show k - lo < n by omega, show k - lo < n + m by omega]
  · simp [h1, show ¬ lo + n ≤ k by omega]

/-- The field of all bits is the value itself. -/
theorem place_extract_all {w : Nat} (v : BitVec w) : place w 0 (v.extractLsb' 0 w) = v := by simp [place]

/-- The two bytes of a 16-bit slot. -/
@[simp] theorem place_low_or_place_high (v : BitVec 16) :
    place 16 0 (v.extractLsb' 0 8) ||| place 16 8 (v.extractLsb' 8 8) = v :=
  (place_extract_or_place_extract v 0 8 8).trans (place_extract_all v)

theorem place_low_of_high_eq_zero {v : BitVec 16} (h : v.extractLsb' 8 8 = 0#8) :
    place 16 0 (v.extractLsb' 0 8) = v := by
  have hv := place_low_or_place_high v
  rwa [h, place_zero, BitVec.or_zero] at hv

theorem place_high_of_low_eq_zero {v : BitVec 16} (h : v.extractLsb' 0 8 = 0#8) :
    place 16 8 (v.extractLsb' 8 8) = v := by
  have hv := place_low_or_place_high v
  rwa [h, place_zero, BitVec.zero_or] at hv

/-- The two fields of slot `q` in format K, where its other bits are zero (R82). -/
theorem place_devaddr_or_place_bok {v : BitVec 32} (h : v.extractLsb' 9 23 = 0#23) :
    place 32 0 (v.extractLsb' 0 8) ||| place 32 8 (v.extractLsb' 8 1) = v := by
  have hv := place_extract_or_place_extract v 0 9 23
  rw [h, place_zero, BitVec.or_zero, place_extract_all v] at hv
  exact (place_extract_or_place_extract v 0 8 1).trans hv

/-! ### What the decoder requires to be zero -/

theorem requireZero_eq_ok {zero : Bool} {i j : Instr} : requireZero zero i = .ok j ↔ zero = true ∧ i = j := by
  cases zero <;> simp [requireZero]

@[simp] theorem Slots.zeroEnds_iff {s : Slots} : s.zeroEnds = true ↔ s.z0 = 0#3 ∧ s.z1 = 0#24 := by
  simp [Slots.zeroEnds]

@[simp] theorem Slots.zeroCXY_iff {s : Slots} : s.zeroCXY = true ↔ s.c = 0#1 ∧ s.x = 0#16 ∧ s.y = 0#16 := by
  simp [Slots.zeroCXY, and_assoc]

@[simp] theorem Slots.zeroPQ_iff {s : Slots} : s.zeroPQ = true ↔ s.p = 0#32 ∧ s.q = 0#32 := by simp [Slots.zeroPQ]

/-- In format N the opcode is all there is. -/
theorem Slots.zeroN_iff {s : Slots} : s.zeroN = true ↔ s = Slots.ofOpcode s.op := by
  obtain ⟨op, c, z0, x, y, a, b, p, q, z1⟩ := s
  simp only [Slots.zeroN, Bool.and_eq_true, beq_iff_eq, Slots.zeroEnds_iff, Slots.zeroCXY_iff, Slots.zeroPQ_iff,
    Slots.ofOpcode, Slots.mk.injEq]
  tauto

/-! ### The two directions, on slots -/

/-- Formats K, G, S and C place fields inside a slot, and each is cut out again; in the other formats every operand
fills a slot of its own. -/
theorem decodeSlots_encodeSlots (i : Instr) : decodeSlots (encodeSlots i) = .ok i := by
  cases i with
  | config width height bufsize devaddr bok =>
    simp (disch := decide) [encodeSlots, Slots.ofOpcode, Instr.opcode, decodeSlots, requireZero, Slots.zeroEnds,
      Slots.zeroCXY, BitVec.extractLsb'_or, extract_place_same, extract_place_disjoint]
  | drawChar font ch x y c =>
    simp (disch := decide) [encodeSlots, Slots.ofOpcode, Instr.opcode, decodeSlots, requireZero, Slots.zeroEnds,
      Slots.font, BitVec.extractLsb'_or, extract_place_same, extract_place_disjoint]
  | drawString font text x y c =>
    simp (disch := decide) [encodeSlots, Slots.ofOpcode, Instr.opcode, decodeSlots, requireZero, Slots.zeroEnds,
      Slots.font, BitVec.extractLsb'_or, extract_place_same, extract_place_disjoint]
  | writeCommand cmd =>
    simp (disch := decide) [encodeSlots, Slots.ofOpcode, Instr.opcode, decodeSlots, requireZero, Slots.zeroEnds,
      Slots.zeroCXY, Slots.zeroPQ, extract_place_same, extract_place_disjoint]
  | _ => rfl

theorem eq_ofNat_of_toNat_eq {n k : Nat} {v : BitVec n} (h : v.toNat = k) : v = BitVec.ofNat n k := by
  rw [← h, BitVec.ofNat_toNat, BitVec.setWidth_eq]

/-- The decoder drops no bit: every slot, and every part of a slot, is an operand or required to be zero. -/
theorem encodeSlots_of_decodeSlots {s : Slots} {i : Instr} (h : decodeSlots s = .ok i) : encodeSlots i = s := by
  obtain ⟨op, c, z0, x, y, a, b, p, q, z1⟩ := s
  unfold decodeSlots at h
  split at h
  case h_14 => cases h
  all_goals
    rename_i hop
    obtain rfl := eq_ofNat_of_toNat_eq hop
    obtain ⟨hz, rfl⟩ := requireZero_eq_ok.1 h
    simp only [Bool.and_eq_true, beq_iff_eq, Slots.zeroEnds_iff, Slots.zeroCXY_iff, Slots.zeroPQ_iff,
      Slots.zeroN_iff] at hz
  case h_1 =>
    obtain ⟨⟨⟨rfl, rfl⟩, rfl, rfl, rfl⟩, hq⟩ := hz
    simp [encodeSlots, Slots.ofOpcode, Instr.opcode, place_devaddr_or_place_bok hq]
  case h_2 =>
    obtain ⟨⟨⟨⟨rfl, rfl⟩, rfl⟩, rfl⟩, rfl, rfl⟩ := hz
    rfl
  case h_3 =>
    obtain ⟨⟨rfl, rfl⟩, rfl⟩ := hz
    rfl
  case h_4 =>
    obtain ⟨⟨rfl, rfl⟩, rfl⟩ := hz
    simp [encodeSlots, Slots.ofOpcode, Instr.opcode, Slots.font]
  case h_5 =>
    obtain ⟨⟨rfl, rfl⟩, hb⟩ := hz
    simp [encodeSlots, Slots.ofOpcode, Instr.opcode, Slots.font, place_low_of_high_eq_zero hb]
  case h_6 =>
    obtain ⟨⟨⟨⟨⟨rfl, rfl⟩, rfl, rfl, rfl⟩, rfl⟩, hb⟩, rfl, rfl⟩ := hz
    simp [encodeSlots, Slots.ofOpcode, Instr.opcode, place_high_of_low_eq_zero hb]
  all_goals exact hz.symm

/-- Settles O1: packing loses no slot, and on slots the decoder undoes the encoder. -/
theorem decodeOfEncodeIsTheInstruction : Obligations.DecodeOfEncodeIsTheInstruction := by
  unfold Obligations.DecodeOfEncodeIsTheInstruction
  intro i
  rw [decode, encode, Slots.unpack_pack, decodeSlots_encodeSlots]

/-- Settles O2: on slots the encoder undoes the decoder, and the slots cover the whole word. -/
theorem encodeOfDecodeIsTheWord : Obligations.EncodeOfDecodeIsTheWord := by
  unfold Obligations.EncodeOfDecodeIsTheWord
  intro w i h
  rw [encode, encodeSlots_of_decodeSlots h, Slots.pack_unpack]

end Sys2Proof
end

section
/-! The opcode table read slot by slot (30_encoding R82, R84, R85): its masks are what the decoder requires to be zero,
and its rows have different opcodes. Settles O3 and O4. -/

namespace Sys2Proof

/-! ### Masks on slots -/

/-- A mask works on each slot by itself. -/
def Slots.masked (s m : Slots) : Slots where
  op := s.op &&& m.op
  c  := s.c &&& m.c
  z0 := s.z0 &&& m.z0
  x  := s.x &&& m.x
  y  := s.y &&& m.y
  a  := s.a &&& m.a
  b  := s.b &&& m.b
  p  := s.p &&& m.p
  q  := s.q &&& m.q
  z1 := s.z1 &&& m.z1

theorem Slots.unpack_and (w m : OpWord) : Slots.unpack (w &&& m) = (Slots.unpack w).masked (Slots.unpack m) := by
  simp only [Slots.unpack, Slots.masked, BitVec.extractLsb'_and]

theorem Slots.unpack_injective : Function.Injective Slots.unpack :=
  Function.LeftInverse.injective Slots.pack_unpack

theorem OpRow.selects_iff {r : OpRow} {w : OpWord} :
    r.selects w = true ↔ (Slots.unpack w).masked (Slots.unpack r.mask) = Slots.unpack r.pattern := by
  rw [OpRow.selects, beq_iff_eq, ← Slots.unpack_and, Slots.unpack_injective.eq_iff]

/-- A mask with ones in one field keeps that field. -/
theorem and_place_allOnes {w : Nat} (v : BitVec w) (lo n : Nat) :
    v &&& place w lo (.allOnes n) = place w lo (v.extractLsb' lo n) := by
  apply BitVec.eq_of_getLsbD_eq
  intro k hk
  rw [BitVec.getLsbD_and, getLsbD_place, getLsbD_place, BitVec.getLsbD_extractLsb', BitVec.getLsbD_allOnes]
  by_cases h : lo ≤ k
  · simp [hk, h, Bool.and_comm]
  · simp [h]

theorem and_place_allOnes_eq_zero {w : Nat} (v : BitVec w) {lo n : Nat} (h : lo + n ≤ w) :
    v &&& place w lo (.allOnes n) = 0#w ↔ v.extractLsb' lo n = 0#n := by
  rw [and_place_allOnes]
  constructor <;> intro h0
  · rw [← extract_place_same (v.extractLsb' lo n) h, h0, BitVec.extractLsb'_zero]
  · rw [h0, place_zero]

/-! ### The masks of the formats -/

/-- Format N: every bit. -/
def Slots.maskN : Slots where
  op := .allOnes 4
  c  := .allOnes 1
  z0 := .allOnes 3
  x  := .allOnes 16
  y  := .allOnes 16
  a  := .allOnes 16
  b  := .allOnes 16
  p  := .allOnes 32
  q  := .allOnes 32
  z1 := .allOnes 24

/-- Format C: every bit but `cmd`. -/
def Slots.maskC : Slots := { Slots.maskN with b := place 16 0 (.allOnes 8) }

/-- Format K: every bit but the handle's five values. -/
def Slots.maskK : Slots := { Slots.maskN with a := 0, b := 0, p := 0, q := place 32 9 (.allOnes 23) }

/-- Format P: every bit but colour and coordinates. -/
def Slots.maskP : Slots := { Slots.maskN with c := 0, x := 0, y := 0 }

/-- Formats B and G: of the operand slots, `q` alone. -/
def Slots.maskB : Slots := { Slots.maskP with a := 0, b := 0, p := 0 }

/-- Format S: of the operand slots, the high byte of `b` alone. -/
def Slots.maskS : Slots := { Slots.maskB with b := place 16 8 (.allOnes 8), q := 0 }

/-- The mask and match columns of the table, with the masks by format. -/
def slotTable : List (Slots × Slots) :=
  [(Slots.maskK, .ofOpcode 0x1), (Slots.maskP, .ofOpcode 0x2), (Slots.maskB, .ofOpcode 0x3),
    (Slots.maskB, .ofOpcode 0x4), (Slots.maskS, .ofOpcode 0x5), (Slots.maskC, .ofOpcode 0x6),
    (Slots.maskN, .ofOpcode 0x7), (Slots.maskN, .ofOpcode 0x8), (Slots.maskN, .ofOpcode 0x9),
    (Slots.maskN, .ofOpcode 0xA), (Slots.maskN, .ofOpcode 0xB), (Slots.maskN, .ofOpcode 0xC),
    (Slots.maskN, .ofOpcode 0xD)]

theorem opTable_map_unpack :
    opTable.map (fun r => (Slots.unpack r.mask, Slots.unpack r.pattern)) = slotTable := by decide

theorem wellFormedWord_iff {w : OpWord} :
    wellFormedWord w = true ↔ ∃ row ∈ slotTable, (Slots.unpack w).masked row.1 = row.2 := by
  simp [wellFormedWord, ← opTable_map_unpack, OpRow.selects_iff]

/-! ### A mask selects the slots of which the decoder's requirement holds -/

/-- The slots a mask selects, in the order in which the decoder asks for them. -/
theorem Slots.masked_eq_ofOpcode {s m : Slots} {k : BitVec 4} :
    s.masked m = Slots.ofOpcode k ↔
      s.op &&& m.op = k ∧ (s.z0 &&& m.z0 = 0 ∧ s.z1 &&& m.z1 = 0) ∧
        (s.c &&& m.c = 0 ∧ s.x &&& m.x = 0 ∧ s.y &&& m.y = 0) ∧ s.a &&& m.a = 0 ∧ s.b &&& m.b = 0 ∧
        s.p &&& m.p = 0 ∧ s.q &&& m.q = 0 := by
  simp only [Slots.masked, Slots.ofOpcode, Slots.mk.injEq]
  tauto

theorem Slots.masked_maskN_eq_ofOpcode {s : Slots} {k : BitVec 4} :
    s.masked Slots.maskN = Slots.ofOpcode k ↔ s.op = k ∧ s.zeroN = true := by
  simp [-BitVec.reduceAllOnes, Slots.masked_eq_ofOpcode, Slots.maskN, Slots.zeroN, and_assoc]

theorem Slots.masked_maskC_eq_ofOpcode {s : Slots} {k : BitVec 4} :
    s.masked Slots.maskC = Slots.ofOpcode k ↔
      s.op = k ∧ (s.zeroEnds && s.zeroCXY && s.a == 0 && s.b.extractLsb' 0 8 == 0 && s.zeroPQ) = true := by
  simp [-BitVec.reduceAllOnes, Slots.masked_eq_ofOpcode, Slots.maskC, Slots.maskN,
    and_place_allOnes_eq_zero, and_assoc]

theorem Slots.masked_maskK_eq_ofOpcode {s : Slots} {k : BitVec 4} :
    s.masked Slots.maskK = Slots.ofOpcode k ↔
      s.op = k ∧ (s.zeroEnds && s.zeroCXY && s.q.extractLsb' 9 23 == 0) = true := by
  simp [-BitVec.reduceAllOnes, Slots.masked_eq_ofOpcode, Slots.maskK, Slots.maskN,
    and_place_allOnes_eq_zero, and_assoc]

theorem Slots.masked_maskP_eq_ofOpcode {s : Slots} {k : BitVec 4} :
    s.masked Slots.maskP = Slots.ofOpcode k ↔ s.op = k ∧ (s.zeroEnds && s.a == 0 && s.b == 0 && s.zeroPQ) = true := by
  simp [-BitVec.reduceAllOnes, Slots.masked_eq_ofOpcode, Slots.maskP, Slots.maskN, and_assoc]

theorem Slots.masked_maskB_eq_ofOpcode {s : Slots} {k : BitVec 4} :
    s.masked Slots.maskB = Slots.ofOpcode k ↔ s.op = k ∧ (s.zeroEnds && s.q == 0) = true := by
  simp [-BitVec.reduceAllOnes, Slots.masked_eq_ofOpcode, Slots.maskB, Slots.maskP, Slots.maskN, and_assoc]

theorem Slots.masked_maskS_eq_ofOpcode {s : Slots} {k : BitVec 4} :
    s.masked Slots.maskS = Slots.ofOpcode k ↔ s.op = k ∧ (s.zeroEnds && s.b.extractLsb' 8 8 == 0) = true := by
  simp [-BitVec.reduceAllOnes, Slots.masked_eq_ofOpcode, Slots.maskS, Slots.maskB, Slots.maskP, Slots.maskN,
    and_place_allOnes_eq_zero, and_assoc]

/-- The decoder's branches are the rows of the table: the row of another opcode is not selected, and that of the
branch's own opcode asks what the branch requires. -/
theorem exists_decodeSlots_eq_ok_iff {s : Slots} :
    (∃ i, decodeSlots s = .ok i) ↔ ∃ row ∈ slotTable, s.masked row.1 = row.2 := by
  simp only [slotTable, List.exists_mem_cons_iff, List.not_mem_nil, Slots.masked_maskN_eq_ofOpcode,
    Slots.masked_maskC_eq_ofOpcode, Slots.masked_maskK_eq_ofOpcode, Slots.masked_maskP_eq_ofOpcode,
    Slots.masked_maskB_eq_ofOpcode, Slots.masked_maskS_eq_ofOpcode, ← BitVec.toNat_inj]
  unfold decodeSlots
  split
  case h_14 => simp_all
  all_goals
    rename_i hop
    simp [hop, requireZero_eq_ok]

/-- Settles O3: on slots, by the masks of the formats. -/
theorem legalWordsAreThoseTheTableSelects : Obligations.LegalWordsAreThoseTheTableSelects := by
  unfold Obligations.LegalWordsAreThoseTheTableSelects
  exact fun w => exists_decodeSlots_eq_ok_iff.trans wellFormedWord_iff.symm

/-- Every mask covers the opcode. -/
theorem op_of_selects {r : OpRow} (hr : r ∈ opTable) {w : OpWord} (h : r.selects w = true) :
    (Slots.unpack w).op = (Slots.unpack r.pattern).op := by
  have hmask : ∀ r ∈ opTable, (Slots.unpack r.mask).op = .allOnes 4 := by decide
  have hop := congrArg Slots.op (OpRow.selects_iff.1 h)
  rwa [Slots.masked, hmask r hr, BitVec.and_allOnes] at hop

/-- The table's opcodes are different (R84). -/
theorem eq_of_op_pattern_eq :
    ∀ r ∈ opTable, ∀ r' ∈ opTable, (Slots.unpack r.pattern).op = (Slots.unpack r'.pattern).op → r = r' := by decide

/-- Settles O4: a row that a word selects has the word's opcode. -/
theorem noWordSelectsTwoRows : Obligations.NoWordSelectsTwoRows := by
  unfold Obligations.NoWordSelectsTwoRows
  intro w r r' hr hr' h h'
  exact eq_of_op_pattern_eq r hr r' hr' ((op_of_selects hr h).symm.trans (op_of_selects hr' h'))

end Sys2Proof
end

section
/-! The written form of an instruction (30_encoding R87, R93). Settles O6. -/

namespace Sys2Proof

/-- The value of a slot, written as a number, fits the slot. -/
@[simp] theorem Operand.bits_num_toNat {w : Nat} (v : BitVec w) : (Operand.num v.toNat).bits w = some v := by
  simp [Operand.bits, Operand.value, v.isLt]

@[simp] theorem Operand.asFont_font (font : Font) :
    (Operand.font font.fw.toNat font.fh.toNat font.fn.toNat font.fbase.toNat).asFont = some font := by
  simp [Operand.asFont]

theorem assemble_disassemble (i : Instr) : assemble (disassemble i).1 (disassemble i).2 = some i := by
  cases i with
  | config width height bufsize devaddr bok => simp [disassemble, assemble]
  | putPixel x y c => simp [disassemble, assemble]
  | drawBitmap x y src w h c => simp [disassemble, assemble]
  | drawChar font ch x y c => simp [disassemble, assemble]
  | drawString font text x y c => simp [disassemble, assemble]
  | writeCommand cmd => simp [disassemble, assemble]
  | _ => rfl

/-- Settles O6: each operand by `Operand.bits_num_toNat`, fonts by `Operand.asFont_font`. -/
theorem assemblingTheWrittenFormGivesTheInstruction : Obligations.AssemblingTheWrittenFormGivesTheInstruction := by
  unfold Obligations.AssemblingTheWrittenFormGivesTheInstruction
  refine ⟨assemble_disassemble, fun ops => ?_⟩
  cases ops <;> rfl

end Sys2Proof
end

section
/-! The INIT sequence of a valid handle (30_encoding R99, 10_state R33). Settles O31. -/

namespace Sys2Proof.Machine

/-- The geometry bytes of R99 fit: a valid handle is at least one page high. -/
theorem Regs.Valid.geometry_bounds {r : Regs} (h : r.Valid) :
    r.width.toNat - 1 ≤ 255 ∧ r.height.toNat / 8 - 1 ≤ 31 ∧ 7 ≤ r.height.toNat - 1 ∧ r.height.toNat - 1 ≤ 255 := by
  obtain ⟨-, -, hh0, -, hpages, hw, hh⟩ := h
  have hpages : r.height.toNat % 8 = 0 := hpages
  have hw : r.width.toNat ≤ 256 := hw
  have hh : r.height.toNat ≤ 256 := hh
  omega

theorem toNat_byte_of_le {n : Nat} (h : n ≤ 255) : (BitVec.ofNat 8 n).toNat = n :=
  (BitVec.toNat_ofNat n 8).trans (Nat.mod_eq_of_lt (Nat.lt_succ_of_le h))

/-- Settles O31: the three geometry bytes are below 256, so no byte of the sequence wraps. -/
theorem initSequenceIsTheTable : Obligations.InitSequenceIsTheTable := by
  unfold Obligations.InitSequenceIsTheTable
  refine ⟨by decide, fun d r hv => ?_⟩
  obtain ⟨hw, hp, hlow, hh⟩ := hv.geometry_bounds
  refine ⟨?_, hw, hp, hlow, hh⟩
  have hp' : r.height.toNat / 8 - 1 ≤ 255 := hp.trans (by decide)
  simp only [initSeq, List.map_cons, List.map_nil, toNat_byte_of_le hw, toNat_byte_of_le hp', toNat_byte_of_le hh]
  rfl

end Sys2Proof.Machine
end

section
/-! The words of the spec's worked examples (30_encoding R82, R84). Settles O5. -/

namespace Sys2Proof

/-- Settles O5: the decoder evaluates each word. -/
theorem workedExampleWordsDecode : Obligations.WorkedExampleWordsDecode := by
  unfold Obligations.WorkedExampleWordsDecode
  refine ⟨?_, ?_, ?_, ?_, ?_, ?_, ?_, ?_⟩ <;> decide

end Sys2Proof
end

section
/-! The pixel compositor: the bit accessor (40_pixel_compositor R111), PUT_PIXEL (R112 to R115), and what the pixel primitive
does bit by bit (R113). Settles O13, O14, O15 and O16. -/

namespace Sys2Proof.Machine

/-! ### The bit accessor -/

theorem setBitOf_eq_colourByte (v : Byte) (b : Nat) : setBitOf v b = colourByte v b 0 := rfl

theorem clearBitOf_eq_colourByte (v : Byte) (b : Nat) : clearBitOf v b = colourByte v b 1 := rfl

theorem toNat_one_shiftLeft_byte {b : Nat} (hb : b < 8) : (1#8 <<< b).toNat = 2 ^ b :=
  BitVec.toNat_twoPow_of_lt hb

theorem toNat_setBitOf (v : Byte) {b : Nat} (hb : b < 8) : (setBitOf v b).toNat = v.toNat ||| 2 ^ b := by
  rw [setBitOf, BitVec.toNat_or, toNat_one_shiftLeft_byte hb]

theorem toNat_clearBitOf (v : Byte) {b : Nat} (hb : b < 8) : (clearBitOf v b).toNat = v.toNat &&& (255 - 2 ^ b) := by
  rw [clearBitOf, BitVec.toNat_and, BitVec.toNat_not, toNat_one_shiftLeft_byte hb]

theorem State.getBit_iff_shift (s : State) (a b : Nat) :
    s.getBit a b = true ↔ ((s.readFb a).toNat >>> b) % 2 = 1 := by
  rw [State.getBit, ← BitVec.testBit_toNat, Nat.testBit_eq_decide_div_mod_eq, decide_eq_true_iff,
    Nat.shiftRight_eq_div_pow]

@[simp] theorem State.readFb_writeFb_same (s : State) (a : Nat) (v : Byte) : (s.writeFb a v).readFb a = v :=
  Memory.read_write_same s.fb a v

theorem State.readFb_writeFb_other (s : State) {a b : Nat} (h : b ≠ a) (v : Byte) :
    (s.writeFb a v).readFb b = s.readFb b :=
  Memory.read_write_other s.fb h v

/-- Writing a byte with one bit coloured gives that bit the colour's value and leaves the other seven. -/
theorem State.getBit_writeFb_colourByte (s : State) (a : Nat) {b k : Nat} (hb : b < 8) (hk : k < 8) (c : Bit) :
    (s.writeFb a (colourByte (s.readFb a) b c)).getBit a k = if k = b then (c == 0) else s.getBit a k := by
  rw [State.getBit, State.readFb_writeFb_same, getLsbD_colourByte _ hb hk, State.getBit]

/-- Settles O13: SetBit writes the byte of colour 0 and ClearBit that of colour 1 (`State.getBit_writeFb_colourByte`). -/
theorem bitAccessorChangesOneBit : Obligations.BitAccessorChangesOneBit := by
  unfold Obligations.BitAccessorChangesOneBit
  intro s a b hb
  refine ⟨s.getBit_iff_shift a b, ?_, ?_, ?_, ?_, fun k hk hkb => ⟨?_, ?_⟩,
    fun a' ha => ⟨s.readFb_writeFb_other ha _, s.readFb_writeFb_other ha _⟩⟩
  · rw [State.readFb_writeFb_same, toNat_setBitOf _ hb]
  · rw [State.readFb_writeFb_same, toNat_clearBitOf _ hb]
  · rw [setBitOf_eq_colourByte, s.getBit_writeFb_colourByte a hb hb, if_pos rfl]
    rfl
  · rw [clearBitOf_eq_colourByte, s.getBit_writeFb_colourByte a hb hb, if_pos rfl]
    rfl
  · rw [setBitOf_eq_colourByte, s.getBit_writeFb_colourByte a hb hk, if_neg hkb]
  · rw [clearBitOf_eq_colourByte, s.getBit_writeFb_colourByte a hb hk, if_neg hkb]

/-! ### PUT_PIXEL -/

/-- PUT_PIXEL on a valid handle is the pixel primitive and completion. -/
theorem exec_putPixel {s : State} (hv : s.regs.Valid) (x y : Half) (c : Bit) :
    exec (.putPixel x y c) s = .next (putPixel x.toNat y.toNat c s).complete := by
  rw [exec_opRun, opRun, State.requireValid_pos hv]
  rfl

@[simp] theorem State.pixel_complete (s : State) (px py : Nat) : s.complete.pixel px py = s.pixel px py := rfl

/-- The bit of a colour as R114 writes it. -/
theorem colour_bit (c : Bit) : (1 - c == 1) = (c == 0) := by
  revert c
  decide

/-- Settles O14, by the laws of the pixel primitive. -/
theorem putPixelSetsOneBit : Obligations.PutPixelSetsOneBit := by
  unfold Obligations.PutPixelSetsOneBit
  intro x y c s hv
  refine ⟨_, exec_putPixel hv x y c, by simp, by simp, by simp, by simp, fun hr => ?_, fun qx qy hq hne => ?_,
    fun a ha => putPixel_readFb_other c ha⟩
  · rw [State.pixel_complete, putPixel_pixel _ _ _ _ hr.1, if_pos ⟨hr, rfl, rfl⟩, colour_bit]
  · rw [State.pixel_complete, putPixel_pixel _ _ _ _ hq.1, if_neg fun h => hne h.2]

theorem Regs.not_inRange_iff (r : Regs) (px py : Nat) :
    ¬ r.InRange px py ↔ r.width.toNat ≤ px ∨ r.height.toNat ≤ py := by
  rw [Decidable.not_and_iff_not_or_not, Nat.not_lt, Nat.not_lt]

/-- Settles O15: out of range the primitive writes nothing (`putPixel_outOfRange`). -/
theorem outOfRangePixelIsANoOp : Obligations.OutOfRangePixelIsANoOp := by
  unfold Obligations.OutOfRangePixelIsANoOp
  refine ⟨fun r px py => ⟨Iff.rfl, r.not_inRange_iff px py⟩,
    fun px py c s h => putPixel_outOfRange ((s.regs.not_inRange_iff px py).2 h), fun x y c s hv h => ?_⟩
  rw [exec_putPixel hv, putPixel_outOfRange ((s.regs.not_inRange_iff _ _).2 h)]
  rfl

/-! ### The pixel primitive bit by bit -/

/-- Pixel `(px, py)` is in range and is held by bit `k` of the byte at `a` (R110, R112). -/
abbrev Regs.Holds (r : Regs) (px py a k : Nat) : Prop :=
  r.InRange px py ∧ a = byteIndex r.width.toNat px py ∧ k = bitIndex py

/-- A bit holds one pixel at most. -/
theorem Regs.Holds.unique {r : Regs} {px py qx qy a k : Nat} (hp : r.Holds px py a k) (hq : r.Holds qx qy a k) :
    px = qx ∧ py = qy := by
  obtain ⟨⟨hpx, -⟩, hpa, hpk⟩ := hp
  obtain ⟨⟨hqx, -⟩, hqa, hqk⟩ := hq
  exact pixel_bits_injective hpx hqx (hpa.symm.trans hqa) (hpk.symm.trans hqk)

/-- The pixel primitive gives the bit that holds the pixel the colour's value and leaves every other bit of FB. -/
theorem putPixel_getBit (px py : Nat) (c : Bit) (s : State) (a : Nat) {k : Nat} (hk : k < 8) :
    (putPixel px py c s).getBit a k = if s.regs.Holds px py a k then (c == 0) else s.getBit a k := by
  by_cases hr : s.regs.InRange px py
  · by_cases ha : a = byteIndex s.regs.width.toNat px py
    · subst ha
      rw [putPixel_inRange hr, State.getBit_writeFb_colourByte s _ (bitIndex_lt py) hk]
      exact if_congr ⟨fun h => ⟨hr, rfl, h⟩, fun ⟨_, _, h⟩ => h⟩ rfl rfl
    · rw [if_neg fun h => ha h.2.1, State.getBit, putPixel_readFb_other c fun _ => ha, State.getBit]
  · rw [putPixel_outOfRange hr, if_neg fun h => hr h.1]

/-- Two states with canonical framebuffers are equal when every bit of FB and everything beside FB is. -/
theorem State.eq_of_getBit {s t : State} (hs : Memory.wf s.fb) (ht : Memory.wf t.fb) (hregs : s.regs = t.regs)
    (htxlog : s.txlog = t.txlog) (hseq : s.seq = t.seq) (henv : s.env = t.env)
    (h : ∀ a k, k < 8 → s.getBit a k = t.getBit a k) : s = t := by
  have hfb : s.fb = t.fb := canonicalFramebuffersWithEqualReadsAreEqual _ _ hs ht fun a _ =>
    BitVec.eq_of_getLsbD_eq fun k hk => h a k hk
  cases s
  cases t
  simp_all only

section
variable {s : State} (hv : s.regs.Valid) (hw : Memory.wf s.fb) (px py : Nat) (c d : Bit)
include hv hw

/-- Of two colours on one pixel the later stays. -/
theorem putPixel_putPixel_same : putPixel px py d (putPixel px py c s) = putPixel px py d s := by
  have hwc := putPixel_wf (px := px) (py := py) c hv hw
  refine State.eq_of_getBit (putPixel_wf d (by simpa using hv) hwc) (putPixel_wf d hv hw) (by simp) (by simp) (by simp)
    (by simp) fun a k hk => ?_
  simp only [putPixel_getBit, hk, putPixel_regs]
  split_ifs <;> rfl

/-- On two different pixels the order does not matter: no bit holds both. -/
theorem putPixel_comm {qx qy : Nat} (hne : ¬ (px = qx ∧ py = qy)) :
    putPixel qx qy d (putPixel px py c s) = putPixel px py c (putPixel qx qy d s) := by
  have hwc := putPixel_wf (px := px) (py := py) c hv hw
  have hwd := putPixel_wf (px := qx) (py := qy) d hv hw
  refine State.eq_of_getBit (putPixel_wf d (by simpa using hv) hwc) (putPixel_wf c (by simpa using hv) hwd) (by simp)
    (by simp) (by simp) (by simp) fun a k hk => ?_
  simp only [putPixel_getBit, hk, putPixel_regs]
  exact ite_ite_comm _ _ _ _ fun hq hp => hne (Regs.Holds.unique hp hq)

end

/-- Settles O16: both laws bit by bit; the same colour twice is the case of two equal colours. -/
theorem putPixelIsIdempotentAndCommutes : Obligations.PutPixelIsIdempotentAndCommutes := by
  unfold Obligations.PutPixelIsIdempotentAndCommutes
  intro px py qx qy c d s hv hw
  exact ⟨putPixel_putPixel_same hv hw px py c c, putPixel_comm hv hw px py c d, putPixel_putPixel_same hv hw px py c d⟩

end Sys2Proof.Machine
end

section
/-! The bitmap blitter: its shift register (41_bitmap_blitter R120), and DRAW_BITMAP up to a position in row-major order
(R121). The end of the bitmap and its first unreadable byte are two such positions. Settles O17, O18 and O19. -/

namespace Sys2Proof.Machine

/-! ### The shift register -/

theorem iterate_shiftLeft_one (v : Byte) (n : Nat) : (fun u : Byte => u <<< 1)^[n] v = v <<< n := by
  induction n with
  | zero => exact (BitVec.shiftLeft_zero v).symm
  | succ n ih => rw [Function.iterate_succ_apply', ih, BitVec.shiftLeft_add]

/-- Settles O17: `i % 8` shifts by one are one shift by `i % 8`, which brings bit `7 - i % 8` to bit 7. -/
theorem blitterBitIsTheShiftRegistersTopBit : Obligations.BlitterBitIsTheShiftRegistersTopBit := by
  unfold Obligations.BlitterBitIsTheShiftRegistersTopBit
  intro sb src w i j
  have hshift : ¬ 7 < i % 8 := by omega
  refine ⟨?_, rfl⟩
  rw [iterate_shiftLeft_one, BitVec.getLsbD_shiftLeft]
  simp [bitmapBit, hshift]

/-! ### A bitmap up to a position -/

theorem SameSetting.refl (s : State) : SameSetting s s := ⟨rfl, rfl, rfl⟩

/-- The state in which the blitter reaches column `i0` of row `j0`, when every byte before it can be read: rows
`0 .. j0-1`, then columns `0 .. i0-1` of row `j0`. -/
def blitUpTo (x y src w : Nat) (c : Bit) (j0 i0 : Nat) (s : State) : State :=
  State.loop (blitColumnState x y src w c j0) 0 i0 (State.loop (blitRowState x y src w c) 0 j0 s)

/-- Column `i` of row `j` comes before column `i0` of row `j0` in row-major order. -/
abbrev Earlier (j0 i0 j i : Nat) : Prop := j < j0 ∨ j = j0 ∧ i < i0

section
variable (x y src w : Nat) (c : Bit) (j0 i0 : Nat) (s : State)

theorem blitRowStates_setting : SameSetting s (State.loop (blitRowState x y src w c) 0 j0 s) :=
  State.loop_inv (J := SameSetting s) 0 j0 (fun j _ _ _ hu => blitRowState_setting hu x y src w c j) s (.refl s)

theorem blitUpTo_setting : SameSetting s (blitUpTo x y src w c j0 i0 s) :=
  State.loop_inv (J := SameSetting s) 0 i0 (fun i _ _ _ hu => blitColumnState_setting hu x y src w c j0 i) _
    (blitRowStates_setting x y src w c j0 s)

/-- An in-range 1 bit of an earlier position is painted. A row before `j0` is not painted over in row `j0`. -/
theorem blitUpTo_pixel_set {i j : Nat} (hi : i < w) (hearlier : Earlier j0 i0 j i) (hbit : SourceBit s src w i j)
    (hr : s.regs.InRange (x + i) (y + j)) : (blitUpTo x y src w c j0 i0 s).pixel (x + i) (y + j) = (c == 0) := by
  have hrows := blitRowStates_setting x y src w c j0 s
  rcases hearlier with hj | ⟨rfl, hcol⟩
  · have hother : ¬ ∃ k, k < i0 ∧ SourceBit s src w k j0 ∧ x + i = x + k ∧ y + j = y + j0 := by
      rintro ⟨k, -, -, -, hy⟩
      omega
    exact ((blitColumns_pixel hrows x y src w c j0 i0 hr).2 hother).trans
      ((blitRows_pixel (.refl s) x y src w c j0 hr).1 ⟨j, hj, i, hi, hbit, rfl, rfl⟩)
  · exact (blitColumns_pixel hrows x y src w c j i0 hr).1 ⟨i, hcol, hbit, rfl, rfl⟩

variable {i0} (hi0 : i0 ≤ w)
include hi0

/-- A pixel that is no destination of an earlier 1 bit is kept. -/
theorem blitUpTo_pixel_keep {qx qy : Nat} (hq : s.regs.InRange qx qy)
    (hne : ∀ i j, i < w → Earlier j0 i0 j i → SourceBit s src w i j → ¬ (qx = x + i ∧ qy = y + j)) :
    (blitUpTo x y src w c j0 i0 s).pixel qx qy = s.pixel qx qy := by
  have hcols : ¬ ∃ i, i < i0 ∧ SourceBit s src w i j0 ∧ qx = x + i ∧ qy = y + j0 :=
    fun ⟨i, hi, hbit, hpos⟩ => hne i j0 (hi.trans_le hi0) (.inr ⟨rfl, hi⟩) hbit hpos
  have hrows : ¬ ∃ j, j < j0 ∧ ∃ i, i < w ∧ SourceBit s src w i j ∧ qx = x + i ∧ qy = y + j :=
    fun ⟨j, hj, i, hi, hbit, hpos⟩ => hne i j hi (.inl hj) hbit hpos
  exact ((blitColumns_pixel (blitRowStates_setting x y src w c j0 s) x y src w c j0 i0 hq).2 hcols).trans
    ((blitRows_pixel (.refl s) x y src w c j0 hq).2 hrows)

/-- A byte that holds no in-range destination of an earlier 1 bit is kept. -/
theorem blitUpTo_readFb {a : Nat}
    (ha : ∀ i j, i < w → Earlier j0 i0 j i → SourceBit s src w i j → s.regs.InRange (x + i) (y + j) →
      a ≠ byteIndex s.regs.width.toNat (x + i) (y + j)) :
    (blitUpTo x y src w c j0 i0 s).readFb a = s.readFb a :=
  (blitColumns_readFb (blitRowStates_setting x y src w c j0 s) x y src w c j0 i0
      fun i hi => ha i j0 (hi.trans_le hi0) (.inr ⟨rfl, hi⟩)).trans
    (blitRows_readFb (.refl s) x y src w c j0 fun j hj i hi => ha i j hi (.inl hj))

end

/-! ### DRAW_BITMAP -/

section
variable {s : State} (hv : s.regs.Valid) (x y : Half) (src : AsAddr) (w h : Half) (c : Bit)
include hv

/-- DRAW_BITMAP with every source byte readable reaches row `h` and completes. -/
theorem exec_drawBitmap_readable
    (hread : ∀ j, j < h.toNat → ∀ i, i < w.toNat → (s.asset (bitmapAddr src.toNat w.toNat i j)).isSome) :
    exec (.drawBitmap x y src w h c) s =
      .next (blitUpTo x.toNat y.toNat src.toNat w.toNat c h.toNat 0 s).complete := by
  rw [exec_opRun, opRun, State.requireValid_pos hv, blitRows_go (.refl s) _ _ _ _ _ _ hread]
  rfl

/-- DRAW_BITMAP stops with ASSET_RANGE in the state in which it reaches its first unreadable source byte. -/
theorem exec_drawBitmap_unreadable {i0 j0 : Nat} (hj0 : j0 < h.toNat) (hi0 : i0 < w.toNat)
    (hrows : ∀ j, j < j0 → ∀ i, i < w.toNat → (s.asset (bitmapAddr src.toNat w.toNat i j)).isSome)
    (hcols : ∀ i, i < i0 → (s.asset (bitmapAddr src.toNat w.toNat i j0)).isSome)
    (hbad : s.asset (bitmapAddr src.toNat w.toNat i0 j0) = none) :
    exec (.drawBitmap x y src w h c) s =
      .next ((blitUpTo x.toNat y.toNat src.toNat w.toNat c j0 i0 s).takeFault .assetRange
        (BitVec.ofNat 32 (bitmapAddr src.toNat w.toNat i0 j0))) := by
  rw [exec_opRun, opRun, State.requireValid_pos hv,
    blitRows_raised (.refl s) _ _ _ _ _ hj0 hi0 hrows hcols hbad]
  rfl

end

@[simp] theorem State.readFb_complete (s : State) (a : Nat) : s.complete.readFb a = s.readFb a := rfl

@[simp] theorem State.readFb_takeFault (s : State) (f : Cause) (info : Word) (a : Nat) :
    (s.takeFault f info).readFb a = s.readFb a := rfl

@[simp] theorem State.pixel_takeFault (s : State) (f : Cause) (info : Word) (px py : Nat) :
    (s.takeFault f info).pixel px py = s.pixel px py := rfl

/-- Settles O18: the positions before column 0 of row `h` are the whole bitmap. -/
theorem drawBitmapPaintsTheSetBits : Obligations.DrawBitmapPaintsTheSetBits := by
  unfold Obligations.DrawBitmapPaintsTheSetBits
  intro x y src w h c s hv hread
  obtain ⟨hregs, henv, hlog⟩ := blitUpTo_setting x.toNat y.toNat src.toNat w.toNat c h.toNat 0 s
  have hrow {i j : Nat} (he : Earlier h.toNat 0 j i) : j < h.toNat := by omega
  refine ⟨_, exec_drawBitmap_readable hv x y src w h c hread, by rw [State.complete_regs, hregs], hlog, rfl, henv,
    fun i j hi hj hbit hr => ?_, fun qx qy hq hne => ?_, fun a ha => ?_⟩
  · rw [State.pixel_complete, colour_bit]
    exact blitUpTo_pixel_set _ _ _ _ c _ _ s hi (.inl hj) hbit hr
  · rw [State.pixel_complete]
    exact blitUpTo_pixel_keep _ _ _ _ c _ s (Nat.zero_le _) hq fun i j hi he => hne i j hi (hrow he)
  · rw [State.readFb_complete]
    exact blitUpTo_readFb _ _ _ _ c _ s (Nat.zero_le _) fun i j hi he => ha i j hi (hrow he)

/-- Settles O19: taking the fault keeps what was drawn up to the unreadable byte. -/
theorem drawBitmapFaultsAtTheFirstUnreadableByte : Obligations.DrawBitmapFaultsAtTheFirstUnreadableByte := by
  unfold Obligations.DrawBitmapFaultsAtTheFirstUnreadableByte
  intro x y src w h c s i0 j0 hv hj0 hi0 hrows hcols hbad
  obtain ⟨hregs, henv, hlog⟩ := blitUpTo_setting x.toNat y.toNat src.toNat w.toNat c j0 i0 s
  refine ⟨_, exec_drawBitmap_unreadable hv x y src w h c hj0 hi0 hrows hcols hbad, ?_, hlog, rfl, henv,
    fun i j hi he hbit hr => ?_, fun qx qy hq hne => ?_, fun a ha => ?_⟩
  · rw [State.takeFault_regs, hregs]
    rfl
  · rw [State.pixel_takeFault, colour_bit]
    exact blitUpTo_pixel_set _ _ _ _ c _ _ s hi he hbit hr
  · rw [State.pixel_takeFault]
    exact blitUpTo_pixel_keep _ _ _ _ c _ s hi0.le hq hne
  · rw [State.readFb_takeFault]
    exact blitUpTo_readFb _ _ _ _ c _ s hi0.le ha

end Sys2Proof.Machine
end

section
/-! The glyph rasterizer: its bit test (42_glyph_rasterizer R131), its checks (R133), and DRAW_CHAR up to a column (R132,
R134, R135). The end of the cell and its first unreadable glyph byte are two such columns. Settles O20, O21, O22 and
O23. -/

namespace Sys2Proof.Machine

/-! ### The bit test -/

theorem glyphBit_eq (g : Byte) (j : Nat) : glyphBit g j = (decide (j ≤ 7) && g.getLsbD (7 - j)) := by
  by_cases hj : j ≤ 7 <;> simp [glyphBit, hj]

/-- Settles O20: bit 7 of a shift by `j`, in either width, is bit `7 - j` of the byte unless `j` exceeds 7. -/
theorem glyphBitIsTheShiftTest : Obligations.GlyphBitIsTheShiftTest := by
  unfold Obligations.GlyphBitIsTheShiftTest
  intro g j
  refine ⟨?_, ?_, fun hj => ?_, fun hj => ?_⟩
  · rw [glyphBit_eq, BitVec.getLsbD_shiftLeft]
    simp [← decide_not]
  · rw [glyphBit_eq, Nat.testBit_shiftLeft, BitVec.testBit_toNat]
  · rw [glyphBit_eq, decide_eq_true hj, Bool.true_and]
  · rw [glyphBit_eq, decide_eq_false (by omega), Bool.false_and]

/-- The bit the colour of a glyph row writes (R114, R134). -/
theorem glyphColour_bit (g : Byte) (j : Nat) (c : Bit) :
    (glyphColour g j c == 0) = if glyphBit g j then 1 - c == 1 else c == 1 := by
  unfold glyphColour
  split
  · exact (colour_bit c).symm
  · revert c
    decide

/-! ### The checks -/

theorem not_inFont_iff (font : Font) (ch : Byte) :
    ¬ InFont font ch ↔ ch.toNat < 32 ∨ 32 + font.fn.toNat ≤ ch.toNat := by
  rw [Decidable.not_and_iff_not_or_not, Nat.not_le, Nat.not_lt]

/-- A character with an unreadable glyph byte has a first one. -/
theorem exists_first_unreadable_glyphByte {s : State} {font : Font} {ch : Byte} (h : ¬ GlyphReadable s font ch) :
    ∃ i0, i0 < font.fw.toNat ∧
      (∀ i, i < i0 → (s.asset (glyphAddr font.fbase.toNat font.fw.toNat ch.toNat i)).isSome) ∧
      s.asset (glyphAddr font.fbase.toNat font.fw.toNat ch.toNat i0) = none := by
  have hex : ∃ i, i < font.fw.toNat ∧ s.asset (glyphAddr font.fbase.toNat font.fw.toNat ch.toNat i) = none := by
    by_contra hno
    exact h fun i hi => Option.ne_none_iff_exists'.1 fun hn => hno ⟨i, hi, hn⟩
  obtain ⟨hlt, hbad⟩ := Nat.find_spec hex
  exact ⟨Nat.find hex, hlt,
    fun i hi => Option.isSome_iff_ne_none.2 fun hn => Nat.find_min hex hi ⟨hi.trans hlt, hn⟩, hbad⟩

theorem GlyphReadable.isSome {s : State} {font : Font} {ch : Byte} (h : GlyphReadable s font ch) :
    ∀ i, i < font.fw.toNat → (s.asset (glyphAddr font.fbase.toNat font.fw.toNat ch.toNat i)).isSome :=
  fun i hi => Option.isSome_iff_exists.2 (h i hi)

/-- A character that passes both checks can only meet an unreadable glyph byte. -/
theorem drawChar_raises_assetRange {font : Font} {ch : Byte} {x y : Half} {c : Bit} {s t : State} {f : Cause}
    {info : Word} (hch : InFont font ch) (hx : x.toNat + font.fw.toNat ≤ Config.cursorMax)
    (h : drawChar font ch x y c s = .raised f info t) : f = .assetRange := by
  by_cases hr : GlyphReadable s font ch
  · rw [drawChar_go y c hch hx hr.isSome] at h
    cases h
  · obtain ⟨i0, hi0, hcols, hbad⟩ := exists_first_unreadable_glyphByte hr
    rw [drawChar_assetRange y c hch hx hi0 hcols hbad] at h
    cases h
    rfl

/-- DRAW_CHAR on a valid handle is the glyph routine and its end. -/
theorem exec_drawChar {s : State} (hv : s.regs.Valid) (font : Font) (ch : Byte) (x y : Half) (c : Bit) :
    exec (.drawChar font ch x y c) s = (drawChar font ch x y c s).finish := by
  rw [exec_opRun, opRun, State.requireValid_pos hv]
  rfl

/-- Settles O22: each failing check ends the glyph routine in the state it began in; a character that passes both raises
ASSET_RANGE or nothing. -/
theorem drawCharChecksRunFirstInOrder : Obligations.DrawCharChecksRunFirstInOrder := by
  unfold Obligations.DrawCharChecksRunFirstInOrder
  refine ⟨fun font ch x y c s => ⟨fun hout => ?_, fun hlow hhigh hx => ?_, fun hlow hhigh hx f info t h => ?_⟩,
    fun font ch hfn => ?_, fun font x => ?_⟩
  · have hrun := drawChar_glyphRange x y c s ((not_inFont_iff font ch).2 hout)
    exact ⟨hrun, fun hv => by rw [exec_drawChar hv, hrun]; rfl⟩
  · have hrun := drawChar_cursorOverflow y c s ⟨hlow, hhigh⟩ hx
    exact ⟨hrun, fun hv => by rw [exec_drawChar hv, hrun]; rfl⟩
  · exact drawChar_raises_assetRange ⟨hlow, hhigh⟩ hx h
  · rw [hfn]
    exact Nat.lt_or_ge ch.toNat 32
  · have hx : x.toNat < 65536 := x.isLt
    have hfw := font.fw.isLt
    exact (BitVec.toNat_ofNat _ 32).trans (Nat.mod_eq_of_lt (by omega))

/-! ### A cell up to a column -/

/-- The state in which the glyph routine reaches column `n` of a cell, when the glyph byte of every column before it can
be read: cursor at the cell's start, columns `0 .. n-1` painted. -/
def cellUpTo (font : Font) (ch : Byte) (x y : Half) (c : Bit) (n : Nat) (s : State) : State :=
  State.loop (drawColumnState font ch x.toNat y.toNat c) 0 n (s.setCursor x y)

section
variable (font : Font) (ch : Byte) (x y : Half) (c : Bit) {n : Nat} (s : State)

theorem cellUpTo_setting (n : Nat) : SameSetting (s.setCursor x y) (cellUpTo font ch x y c n s) :=
  State.loop_inv (J := SameSetting (s.setCursor x y)) 0 n
    (fun i _ _ _ hu => drawColumnState_setting hu font ch x.toNat y.toNat c i) _ (.refl _)

/-- An in-range pixel of a painted column reads what its glyph bit says (R134, R136). -/
theorem cellUpTo_pixel_in {i j : Nat} {g : Byte} (hi : i < n) (hj : j < font.fh.toNat) (hg : GlyphByte s font ch i g)
    (hr : s.regs.InRange (x.toNat + i) (y.toNat + font.fh.toNat - j)) :
    (cellUpTo font ch x y c n s).pixel (x.toNat + i) (y.toNat + font.fh.toNat - j) =
      if glyphBit g j then 1 - c == 1 else c == 1 := by
  have hrow : y.toNat + font.fh.toNat - (y.toNat + font.fh.toNat - j) = j := Nat.sub_sub_self (by omega)
  have hpixel := drawColumns_pixel_in (.refl (s.setCursor x y)) font ch x.toNat y.toNat c hi hg hr (by omega) (by omega)
  rwa [hrow, glyphColour_bit] at hpixel

/-- A pixel outside the painted columns is kept. -/
theorem cellUpTo_pixel_out {qx qy : Nat} (hq : s.regs.InRange qx qy)
    (hout : ¬ (x.toNat ≤ qx ∧ qx < x.toNat + n ∧ y.toNat + 1 ≤ qy ∧ qy ≤ y.toNat + font.fh.toNat)) :
    (cellUpTo font ch x y c n s).pixel qx qy = s.pixel qx qy :=
  drawColumns_pixel_out (.refl (s.setCursor x y)) font ch x.toNat y.toNat c hq.1 hout

/-- A byte that holds no in-range pixel of the painted columns is kept. Display row `qy` is glyph row `y + fh - qy`. -/
theorem cellUpTo_readFb {a : Nat}
    (ha : ∀ i j, i < n → j < font.fh.toNat → s.regs.InRange (x.toNat + i) (y.toNat + font.fh.toNat - j) →
      a ≠ byteIndex s.regs.width.toNat (x.toNat + i) (y.toNat + font.fh.toNat - j)) :
    (cellUpTo font ch x y c n s).readFb a = s.readFb a := by
  refine drawColumns_readFb (.refl (s.setCursor x y)) font ch x.toNat y.toNat c fun i hi qy hlow hhigh hr => ?_
  have hrow : y.toNat + font.fh.toNat - (y.toNat + font.fh.toNat - qy) = qy := Nat.sub_sub_self hhigh
  have hne := ha i (y.toNat + font.fh.toNat - qy) hi (by omega)
  rw [hrow] at hne
  exact hne hr

end

@[simp] theorem State.pixel_setCurx (s : State) (x : Half) (px py : Nat) :
    (s.setCurx x).pixel px py = s.pixel px py := rfl

@[simp] theorem State.readFb_setCurx (s : State) (x : Half) (a : Nat) : (s.setCurx x).readFb a = s.readFb a := rfl

/-! ### DRAW_CHAR -/

section
variable {s : State} (hv : s.regs.Valid) {font : Font} {ch : Byte} {x : Half} (y : Half) (c : Bit)
  (hch : InFont font ch) (hx : x.toNat + font.fw.toNat ≤ Config.cursorMax)
include hv hch hx

/-- DRAW_CHAR with every glyph byte readable paints `fw` columns, moves the cursor past them and completes. -/
theorem exec_drawChar_readable (hr : GlyphReadable s font ch) :
    exec (.drawChar font ch x y c) s =
      .next ((cellUpTo font ch x y c font.fw.toNat s).setCurx
        (BitVec.ofNat Config.coordW (x.toNat + font.fw.toNat))).complete := by
  rw [exec_drawChar hv, drawChar_go y c hch hx hr.isSome]
  rfl

/-- DRAW_CHAR stops with ASSET_RANGE in the state in which it reaches its first unreadable glyph byte. -/
theorem exec_drawChar_unreadable {i0 : Nat} (hi0 : i0 < font.fw.toNat)
    (hcols : ∀ i, i < i0 → (s.asset (glyphAddr font.fbase.toNat font.fw.toNat ch.toNat i)).isSome)
    (hbad : s.asset (glyphAddr font.fbase.toNat font.fw.toNat ch.toNat i0) = none) :
    exec (.drawChar font ch x y c) s =
      .next ((cellUpTo font ch x y c i0 s).takeFault .assetRange
        (BitVec.ofNat 32 (glyphAddr font.fbase.toNat font.fw.toNat ch.toNat i0))) := by
  rw [exec_drawChar hv, drawChar_assetRange y c hch hx hi0 hcols hbad]
  rfl

end

/-- Settles O21: the columns before column `fw` are the whole cell. -/
theorem drawCharPaintsTheWholeCell : Obligations.DrawCharPaintsTheWholeCell := by
  unfold Obligations.DrawCharPaintsTheWholeCell
  intro font ch x y c s hv hlow hhigh hx hread
  obtain ⟨hregs, henv, hlog⟩ := cellUpTo_setting font ch x y c s font.fw.toNat
  refine ⟨_, exec_drawChar_readable hv y c ⟨hlow, hhigh⟩ hx hread, ?_, ?_, hlog, rfl, henv,
    fun i j g hi hj hg hr => ?_, fun qx qy hq hout => ?_, fun a ha => ?_⟩
  · rw [State.complete_regs, State.setCurx_regs, hregs]
    rfl
  · exact (BitVec.toNat_ofNat _ Config.coordW).trans (Nat.mod_eq_of_lt (Nat.lt_succ_of_le hx))
  · rw [State.pixel_complete, State.pixel_setCurx]
    exact cellUpTo_pixel_in font ch x y c s hi hj hg hr
  · rw [State.pixel_complete, State.pixel_setCurx]
    exact cellUpTo_pixel_out font ch x y c s hq hout
  · rw [State.readFb_complete, State.readFb_setCurx]
    exact cellUpTo_readFb font ch x y c s ha

/-- Settles O23: taking the fault keeps the cursor at the cell's start and the columns before the unreadable one. -/
theorem drawCharFaultsAtTheFirstUnreadableColumn : Obligations.DrawCharFaultsAtTheFirstUnreadableColumn := by
  unfold Obligations.DrawCharFaultsAtTheFirstUnreadableColumn
  intro font ch x y c s i0 hv hlow hhigh hx hi0 hcols hbad
  obtain ⟨hregs, henv, hlog⟩ := cellUpTo_setting font ch x y c s i0
  refine ⟨_, exec_drawChar_unreadable hv y c ⟨hlow, hhigh⟩ hx hi0
      (fun i hi => Option.isSome_iff_exists.2 (hcols i hi)) hbad, ?_, hlog, rfl, henv,
    fun i j g hi hj hg hr => ?_, fun qx qy hq hout => ?_, fun a ha => ?_⟩
  · rw [State.takeFault_regs, hregs]
    rfl
  · rw [State.pixel_takeFault]
    exact cellUpTo_pixel_in font ch x y c s hi hj hg hr
  · rw [State.pixel_takeFault]
    exact cellUpTo_pixel_out font ch x y c s hq hout
  · rw [State.readFb_takeFault]
    exact cellUpTo_readFb font ch x y c s ha

end Sys2Proof.Machine
end

section
/-! String layout: DRAW_STRING at its first byte, in every case (43_string_layout R141, R143); what a drawn character
and a drawn string leave behind (R140); and that a finished DRAW_CHAR hands on to the string loop what the loop would
have had.
Settles O24, O25, O26 and O27. -/

namespace Sys2Proof.Machine

/-! ### The string loop at one byte -/

theorem State.asset_some_lt {s : State} {a : Nat} {v : Byte} (h : s.asset a = some v) : a < Config.asSize := by
  by_contra hle
  rw [State.asset_of_asSize_le s (Nat.le_of_not_lt hle)] at h
  cases h

theorem InFont.ne_strTerm {font : Font} {ch : Byte} (h : InFont font ch) : ch ≠ Config.strTerm := by
  rintro rfl
  exact absurd h.1 (by decide)

section
variable (font : Font) (c : Bit) {a : Nat} {s : State}

theorem drawText_terminator (h : s.asset a = some Config.strTerm) : drawText font c (Config.asSize - a) s = .go s := by
  rw [drawText_at font c (State.asset_some_lt h), State.withAsset_some h, if_pos rfl]

theorem drawText_unreadable (ha : a < Config.asSize) (h : s.asset a = none) :
    drawText font c (Config.asSize - a) s = .raised .assetRange (BitVec.ofNat 32 a) s := by
  rw [drawText_at font c ha, State.withAsset_none h]

theorem drawText_character {ch : Byte} (h : s.asset a = some ch) (hterm : ch ≠ Config.strTerm) :
    drawText font c (Config.asSize - a) s =
      (drawChar font ch s.regs.curx s.regs.cury c s).andThen (drawText font c (Config.asSize - (a + 1))) := by
  rw [drawText_at font c (State.asset_some_lt h), State.withAsset_some h, if_neg hterm]

end

/-- DRAW_STRING on a valid handle is the string loop at the cursor it sets, and its end. -/
theorem exec_drawString {s : State} (hv : s.regs.Valid) (font : Font) (text : AsAddr) (x y : Half) (c : Bit) :
    exec (.drawString font text x y c) s =
      (drawText font c (Config.asSize - text.toNat) (s.setCursor x y)).finish := by
  rw [exec_opRun, opRun, State.requireValid_pos hv]
  rfl

/-- DRAW_STRING of a character that is no terminator: the glyph routine, then the loop at the next address. -/
theorem exec_drawString_character {s : State} (hv : s.regs.Valid) (font : Font) {text : AsAddr} (x y : Half) (c : Bit)
    {ch : Byte} (h : s.asset text.toNat = some ch) (hterm : ch ≠ Config.strTerm) :
    exec (.drawString font text x y c) s =
      ((drawChar font ch x y c (s.setCursor x y)).andThen
        (drawText font c (Config.asSize - (text.toNat + 1)))).finish := by
  rw [exec_drawString hv, drawText_character (s := s.setCursor x y) font c h hterm]
  rfl

/-- The glyph routine writes the cursor itself once the checks have passed. -/
theorem drawChar_setCursor {font : Font} {ch : Byte} {x : Half} (y : Half) (c : Bit) (s : State) (hch : InFont font ch)
    (hx : x.toNat + font.fw.toNat ≤ Config.cursorMax) :
    drawChar font ch x y c (s.setCursor x y) = drawChar font ch x y c s := by
  simp only [drawChar, charChecks, if_pos hch, if_neg (Nat.not_lt.2 hx)]
  rfl

/-- Settles O26: the loop's one read and the checks of R133 tell the five endings apart. -/
theorem drawStringEndsAtItsFirstByte : Obligations.DrawStringEndsAtItsFirstByte := by
  unfold Obligations.DrawStringEndsAtItsFirstByte
  intro font text x y c s hv
  refine ⟨fun hend => ?_, fun hnone => ?_, fun ch hbyte hterm hout => ?_, fun ch hbyte hterm hlow hhigh hx => ?_,
    fun ch hbyte hterm hlow hhigh hx hunread => ?_⟩
  · rw [exec_drawString hv, drawText_terminator (s := s.setCursor x y) font c hend]
    rfl
  · rw [exec_drawString hv, drawText_unreadable (s := s.setCursor x y) font c text.isLt hnone, BitVec.ofNat_toNat,
      BitVec.setWidth_eq]
    rfl
  · rw [exec_drawString_character hv font x y c hbyte hterm,
      drawChar_glyphRange x y c _ ((not_inFont_iff font ch).2 hout)]
    rfl
  · rw [exec_drawString_character hv font x y c hbyte hterm, drawChar_cursorOverflow y c _ ⟨hlow, hhigh⟩ hx]
    rfl
  · obtain ⟨i0, hi0, hcols, hbad⟩ := exists_first_unreadable_glyphByte hunread
    rw [exec_drawString_character hv font x y c hbyte hterm, drawChar_setCursor y c s ⟨hlow, hhigh⟩ hx,
      exec_drawChar hv, drawChar_assetRange y c ⟨hlow, hhigh⟩ hx hi0 hcols hbad, Run.raised_andThen]

/-! ### The state after one character -/

section
variable (font : Font) (ch : Byte) (x y : Half) (c : Bit) (s : State)

theorem drawCharState_eq_cell : drawCharState font ch x y c s =
    (cellUpTo font ch x y c font.fw.toNat s).setCurx (BitVec.ofNat Config.coordW (x.toNat + font.fw.toNat)) := rfl

theorem drawCharState_setting :
    SameSetting (s.setCursor (BitVec.ofNat Config.coordW (x.toNat + font.fw.toNat)) y)
      (drawCharState font ch x y c s) := by
  obtain ⟨hregs, henv, hlog⟩ := cellUpTo_setting font ch x y c s font.fw.toNat
  refine ⟨?_, henv, hlog⟩
  rw [drawCharState_eq_cell, State.setCurx_regs, hregs]
  rfl

@[simp] theorem drawCharState_regs : (drawCharState font ch x y c s).regs =
    { s.regs with curx := BitVec.ofNat Config.coordW (x.toNat + font.fw.toNat), cury := y } :=
  (drawCharState_setting font ch x y c s).1

@[simp] theorem drawCharState_cury : (drawCharState font ch x y c s).regs.cury = y := by
  rw [drawCharState_regs]

@[simp] theorem drawCharState_valid : (drawCharState font ch x y c s).regs.Valid ↔ s.regs.Valid := by
  rw [drawCharState_regs]

@[simp] theorem drawCharState_inRange (px py : Nat) :
    (drawCharState font ch x y c s).regs.InRange px py ↔ s.regs.InRange px py := by
  rw [drawCharState_regs]

@[simp] theorem drawCharState_asset (a : Nat) : (drawCharState font ch x y c s).asset a = s.asset a :=
  (drawCharState_setting font ch x y c s).asset a

end

/-- DRAW_CHAR of a character that can be drawn completes in the state after it. -/
theorem exec_drawChar_drawn {s : State} (hv : s.regs.Valid) {font : Font} {ch : Byte} {x : Half} (y : Half) (c : Bit)
    (hch : InFont font ch) (hx : x.toNat + font.fw.toNat ≤ Config.cursorMax) (hr : GlyphReadable s font ch) :
    exec (.drawChar font ch x y c) s = .next (drawCharState font ch x y c s).complete :=
  exec_drawChar_readable hv y c hch hx hr

/-- DRAW_STRING of a character that can be drawn: the loop goes on at the next address from the state after it. -/
theorem exec_drawString_drawn {s : State} (hv : s.regs.Valid) {font : Font} {text : AsAddr} {x : Half} (y : Half)
    (c : Bit) {ch : Byte} (h : s.asset text.toNat = some ch) (hch : InFont font ch)
    (hx : x.toNat + font.fw.toNat ≤ Config.cursorMax) (hr : GlyphReadable s font ch) :
    exec (.drawString font text x y c) s =
      (drawText font c (Config.asSize - (text.toNat + 1)) (drawCharState font ch x y c s)).finish := by
  rw [exec_drawString_character hv font x y c h hch.ne_strTerm, drawChar_setCursor y c s hch hx,
    drawChar_go y c hch hx hr.isSome, Run.go_andThen]

/-- Settles O27: the loop after the last asset address finds no address left. -/
theorem stringPointerFaultsPastTheLastAddress : Obligations.StringPointerFaultsPastTheLastAddress := by
  unfold Obligations.StringPointerFaultsPastTheLastAddress
  intro font x y c s ch hv hbyte _ hlow hhigh hx hr
  refine ⟨_, exec_drawChar_drawn hv y c ⟨hlow, hhigh⟩ hx hr, ?_⟩
  have hleft : Config.asSize - ((0xFFFFFFFF#32 : AsAddr).toNat + 1) = 0 := by decide
  rw [exec_drawString_drawn (text := 0xFFFFFFFF#32) hv y c hbyte ⟨hlow, hhigh⟩ hx hr, hleft]
  rfl

/-! ### Drawing does not look at STATUS and the sequencer

DRAW_CHAR ends with BUSY 0 and the sequencer idle, where the string loop goes on with what they were: the rest draws the
same in both states, and its own end makes them equal. -/

/-- The second state is the first with BUSY 0 and the sequencer idle. -/
def CompletesTo (s t : State) : Prop := t = s.complete

section
variable {s t : State}

theorem CompletesTo.putPixel (hst : CompletesTo s t) (px py : Nat) (c : Bit) :
    CompletesTo (putPixel px py c s) (putPixel px py c t) := by
  subst hst
  by_cases hr : s.regs.InRange px py
  · rw [putPixel_inRange hr, putPixel_inRange (s := s.complete) hr]
    rfl
  · rw [putPixel_outOfRange hr, putPixel_outOfRange (s := s.complete) hr]
    rfl

theorem CompletesTo.withAsset (hst : CompletesTo s t) (a : Nat) {k k' : Byte → Run}
    (hk : ∀ g, Run.Related CompletesTo (k g) (k' g)) :
    Run.Related CompletesTo (s.withAsset a k) (t.withAsset a k') := by
  have hasset : t.asset a = s.asset a := by rw [hst]; rfl
  cases ha : s.asset a with
  | some g =>
    rw [State.withAsset_some ha, State.withAsset_some (hasset.trans ha)]
    exact hk g
  | none =>
    rw [State.withAsset_none ha, State.withAsset_none (hasset.trans ha)]
    exact .raised _ _ hst

theorem CompletesTo.drawColumn (hst : CompletesTo s t) (font : Font) (ch : Byte) (px py : Nat) (c : Bit) (i : Nat) :
    Run.Related CompletesTo (drawColumn font ch px py c i s) (drawColumn font ch px py c i t) :=
  hst.withAsset _ fun _ => .go (State.loop_related (fun _ _ _ hst => hst.putPixel _ _ _) 0 _ hst)

theorem CompletesTo.drawChar (hst : CompletesTo s t) (font : Font) (ch : Byte) (px py : Half) (c : Bit) :
    Run.Related CompletesTo (drawChar font ch px py c s) (drawChar font ch px py c t) := by
  have hcursor : CompletesTo (s.setCursor px py) (t.setCursor px py) := by rw [hst]; rfl
  unfold Machine.drawChar charChecks
  split_ifs
  · exact .raised _ _ hst
  · exact (Run.Related.loop (fun i _ _ hst => hst.drawColumn font ch _ _ c i) 0 _ hcursor).andThen
      fun _ _ hst => .go (by rw [hst]; rfl)
  · exact .raised _ _ hst

theorem CompletesTo.drawText (hst : CompletesTo s t) (font : Font) (c : Bit) (left : Nat) :
    Run.Related CompletesTo (drawText font c left s) (drawText font c left t) := by
  induction left generalizing s t with
  | zero => exact .raised _ _ hst
  | succ left ih =>
    refine hst.withAsset _ fun ch => ?_
    split
    · exact .go hst
    · have hregs : t.regs = s.complete.regs := by rw [hst]
      rw [hregs]
      exact (hst.drawChar _ _ _ _ _).andThen fun _ _ => ih

end

/-- The end of a run writes STATUS and the sequencer, so what they were is forgotten. -/
theorem Run.Related.finish_eq {r r' : Run} (h : Run.Related CompletesTo r r') : r'.finish = r.finish := by
  cases h with
  | go hst => rw [hst]; rfl
  | raised f info hst => rw [hst]; rfl

theorem State.setCursor_of_cury {s : State} {y : Half} (h : s.regs.cury = y) : s.setCursor s.regs.curx y = s := by
  subst h
  rfl

/-- Settles O25: DRAW_STRING sets the cursor to where DRAW_CHAR left it, which changes nothing. -/
theorem drawStringIsDrawCharThenTheRest : Obligations.DrawStringIsDrawCharThenTheRest := by
  unfold Obligations.DrawStringIsDrawCharThenTheRest
  intro font text x y c s ch hv hlast hbyte _ hlow hhigh hx hr
  have hnext : (text + 1).toNat = text.toNat + 1 := BitVec.toNat_add_of_lt (y := 1) hlast
  have hvalid : (drawCharState font ch x y c s).complete.regs.Valid := (drawCharState_valid font ch x y c s).2 hv
  have hcury : (drawCharState font ch x y c s).complete.regs.cury = y := drawCharState_cury font ch x y c s
  refine ⟨_, exec_drawChar_drawn hv y c ⟨hlow, hhigh⟩ hx hr, ?_⟩
  rw [exec_drawString_drawn hv y c hbyte ⟨hlow, hhigh⟩ hx hr, exec_drawString hvalid,
    hnext, State.setCursor_of_cury hcury]
  exact (CompletesTo.drawText rfl font c _).finish_eq.symm

/-! ### The state after a string -/

/-- The state after the characters of a string, each drawn at the cursor the one before left. -/
def drawTextState (font : Font) (c : Bit) : List Byte → State → State
  | [], s => s
  | ch :: chars, s => drawTextState font c chars (drawCharState font ch s.regs.curx s.regs.cury c s)

/-- The characters of a string stand at asset address `a`, with the terminator after them. -/
def TextAt (s : State) (a : Nat) (chars : List Byte) : Prop :=
  (∀ k ch, chars[k]? = some ch → s.asset (a + k) = some ch) ∧ s.asset (a + chars.length) = some Config.strTerm

theorem TextAt.head {s : State} {a : Nat} {ch : Byte} {chars : List Byte} (h : TextAt s a (ch :: chars)) :
    s.asset a = some ch := h.1 0 ch rfl

theorem TextAt.tail {s : State} {a : Nat} {ch : Byte} {chars : List Byte} (h : TextAt s a (ch :: chars)) :
    TextAt s (a + 1) chars := by
  have hshift : ∀ k, a + 1 + k = a + (k + 1) := fun k => by omega
  exact ⟨fun k ch' hk => hshift k ▸ h.1 (k + 1) ch' hk, hshift chars.length ▸ h.2⟩

/-- Where the string fits the cursor its first character does, leaves the cursor `fw` further, and the rest from there
ends where the string ends. -/
theorem cursor_after_first {font : Font} {ch : Byte} {chars : List Byte} {s : State}
    (hx : s.regs.curx.toNat + (ch :: chars).length * font.fw.toNat ≤ Config.cursorMax) (c : Bit) :
    s.regs.curx.toNat + font.fw.toNat ≤ Config.cursorMax ∧
    (drawCharState font ch s.regs.curx s.regs.cury c s).regs.curx.toNat = s.regs.curx.toNat + font.fw.toNat ∧
    s.regs.curx.toNat + font.fw.toNat + chars.length * font.fw.toNat =
      s.regs.curx.toNat + (ch :: chars).length * font.fw.toNat := by
  rw [List.length_cons, Nat.succ_mul] at hx ⊢
  have hfirst : s.regs.curx.toNat + font.fw.toNat ≤ Config.cursorMax := by omega
  refine ⟨hfirst, ?_, by omega⟩
  rw [drawCharState_regs]
  exact (BitVec.toNat_ofNat _ Config.coordW).trans (Nat.mod_eq_of_lt (Nat.lt_succ_of_le hfirst))

/-- The string loop draws every character of a terminated string it can draw, and goes on. -/
theorem drawText_go (font : Font) (c : Bit) {chars : List Byte} {a : Nat} {s : State} (htext : TextAt s a chars)
    (hdraw : ∀ ch, ch ∈ chars → InFont font ch ∧ GlyphReadable s font ch)
    (hx : s.regs.curx.toNat + chars.length * font.fw.toNat ≤ Config.cursorMax) :
    drawText font c (Config.asSize - a) s = .go (drawTextState font c chars s) := by
  induction chars generalizing a s with
  | nil => exact drawText_terminator font c htext.2
  | cons ch chars ih =>
    obtain ⟨hfirst, hcurx, hsum⟩ := cursor_after_first hx c
    obtain ⟨hch, hread⟩ := hdraw ch List.mem_cons_self
    rw [drawText_character font c htext.head hch.ne_strTerm, drawChar_go s.regs.cury c hch hfirst hread.isSome,
      Run.go_andThen, drawTextState]
    refine ih ?_ (fun ch' hmem => ?_) (by rwa [hcurx, hsum])
    · simpa only [TextAt, drawCharState_asset] using htext.tail
    · simpa only [GlyphReadable, GlyphByte, drawCharState_asset] using hdraw ch' (List.mem_cons_of_mem ch hmem)

section
variable (font : Font) (c : Bit) {chars : List Byte} {s : State}
  (hx : s.regs.curx.toNat + chars.length * font.fw.toNat ≤ Config.cursorMax)
include hx

/-- A string moves the cursor past its characters and changes nothing else outside the framebuffer. -/
theorem drawTextState_setting :
    SameSetting (s.setCurx (BitVec.ofNat Config.coordW (s.regs.curx.toNat + chars.length * font.fw.toNat)))
      (drawTextState font c chars s) := by
  induction chars generalizing s with
  | nil => simp [SameSetting, drawTextState]
  | cons ch chars ih =>
    obtain ⟨-, hcurx, hsum⟩ := cursor_after_first hx c
    obtain ⟨hregs, henv, hlog⟩ := drawCharState_setting font ch s.regs.curx s.regs.cury c s
    obtain ⟨hregs', henv', hlog'⟩ :=
      ih (s := drawCharState font ch s.regs.curx s.regs.cury c s) (by rwa [hcurx, hsum])
    refine ⟨?_, henv'.trans henv, hlog'.trans hlog⟩
    rw [drawTextState, hregs', State.setCurx_regs, hcurx, hsum, hregs]
    rfl

/-- A pixel outside the cells is kept. -/
theorem drawTextState_pixel_out {qx qy : Nat} (hq : s.regs.InRange qx qy)
    (hout : ¬ (s.regs.curx.toNat ≤ qx ∧ qx < s.regs.curx.toNat + chars.length * font.fw.toNat ∧
      s.regs.cury.toNat + 1 ≤ qy ∧ qy ≤ s.regs.cury.toNat + font.fh.toNat)) :
    (drawTextState font c chars s).pixel qx qy = s.pixel qx qy := by
  induction chars generalizing s with
  | nil => rfl
  | cons ch chars ih =>
    obtain ⟨-, hcurx, hsum⟩ := cursor_after_first hx c
    calc (drawTextState font c (ch :: chars) s).pixel qx qy
      _ = (drawCharState font ch s.regs.curx s.regs.cury c s).pixel qx qy := by
        refine ih (by rwa [hcurx, hsum]) ((drawCharState_inRange ..).2 hq) ?_
        rw [hcurx, hsum, drawCharState_cury]
        exact fun ⟨hlow, hrest⟩ => hout ⟨Nat.le_of_add_right_le hlow, hrest⟩
      _ = s.pixel qx qy :=
        cellUpTo_pixel_out font ch s.regs.curx s.regs.cury c s hq
          fun ⟨hlow, hhigh, hrow⟩ => hout ⟨hlow, by omega, hrow⟩

/-- An in-range pixel of the cell of character `k` reads what its glyph bit says: the cell is drawn at `k` advances from
the start, and the later cells stand to its right. -/
theorem drawTextState_pixel_in {k i j : Nat} {ch : Byte} {g : Byte} (hk : chars[k]? = some ch) (hi : i < font.fw.toNat)
    (hj : j < font.fh.toNat) (hg : GlyphByte s font ch i g)
    (hr : s.regs.InRange (s.regs.curx.toNat + k * font.fw.toNat + i) (s.regs.cury.toNat + font.fh.toNat - j)) :
    (drawTextState font c chars s).pixel (s.regs.curx.toNat + k * font.fw.toNat + i)
        (s.regs.cury.toNat + font.fh.toNat - j) =
      if glyphBit g j then 1 - c == 1 else c == 1 := by
  induction chars generalizing s k with
  | nil => cases hk
  | cons first chars ih =>
    obtain ⟨-, hcurx, hsum⟩ := cursor_after_first hx c
    have hrest : (drawCharState font first s.regs.curx s.regs.cury c s).regs.curx.toNat +
        chars.length * font.fw.toNat ≤ Config.cursorMax := by rwa [hcurx, hsum]
    cases k with
    | zero =>
      obtain rfl : first = ch := Option.some.inj hk
      rw [Nat.zero_mul, Nat.add_zero] at hr ⊢
      rw [drawTextState, drawTextState_pixel_out font c hrest ((drawCharState_inRange ..).2 hr)
        (by rw [hcurx]; omega)]
      exact cellUpTo_pixel_in font first s.regs.curx s.regs.cury c s hi hj hg hr
    | succ k =>
      have hshift : s.regs.curx.toNat + (k + 1) * font.fw.toNat + i =
          (drawCharState font first s.regs.curx s.regs.cury c s).regs.curx.toNat + k * font.fw.toNat + i := by
        rw [hcurx, Nat.succ_mul]
        omega
      have hlater := ih (k := k) hrest hk (by rwa [GlyphByte, drawCharState_asset])
      rw [← hshift, drawCharState_cury, drawCharState_inRange] at hlater
      exact hlater hr

/-- A byte that holds no in-range pixel of the cells is kept. -/
theorem drawTextState_readFb {a : Nat}
    (ha : ∀ d j, d < chars.length * font.fw.toNat → j < font.fh.toNat →
      s.regs.InRange (s.regs.curx.toNat + d) (s.regs.cury.toNat + font.fh.toNat - j) →
      a ≠ byteIndex s.regs.width.toNat (s.regs.curx.toNat + d) (s.regs.cury.toNat + font.fh.toNat - j)) :
    (drawTextState font c chars s).readFb a = s.readFb a := by
  induction chars generalizing s with
  | nil => rfl
  | cons ch chars ih =>
    obtain ⟨-, hcurx, hsum⟩ := cursor_after_first hx c
    calc (drawTextState font c (ch :: chars) s).readFb a
      _ = (drawCharState font ch s.regs.curx s.regs.cury c s).readFb a := by
        refine ih (by rwa [hcurx, hsum]) fun d j hd hj => ?_
        rw [hcurx, drawCharState_regs, Nat.add_assoc]
        exact ha (font.fw.toNat + d) j (by omega) hj
      _ = s.readFb a :=
        cellUpTo_readFb font ch s.regs.curx s.regs.cury c s fun i j hi => ha i j (by omega)

end

/-- Settles O24: the string loop on the characters, and what the state after them shows. -/
theorem drawStringPaintsItsCharactersSideBySide : Obligations.DrawStringPaintsItsCharactersSideBySide := by
  unfold Obligations.DrawStringPaintsItsCharactersSideBySide
  intro font text x y c s chars hv htext hend hdraw hx
  have hrun : drawText font c (Config.asSize - text.toNat) (s.setCursor x y) =
      .go (drawTextState font c chars (s.setCursor x y)) :=
    drawText_go font c (s := s.setCursor x y) ⟨htext, hend⟩
      (fun ch hmem => by
        obtain ⟨hlow, hhigh, hread⟩ := hdraw ch hmem
        exact ⟨⟨hlow, hhigh⟩, hread⟩) hx
  obtain ⟨hregs, henv, hlog⟩ := drawTextState_setting font c (s := s.setCursor x y) hx
  refine ⟨(drawTextState font c chars (s.setCursor x y)).complete, by rw [exec_drawString hv, hrun]; rfl, ?_, ?_,
    hlog, rfl, henv, fun k ch i j g hk hi hj hg hr => ?_, fun qx qy hq hout => ?_, fun a ha => ?_⟩
  · rw [State.complete_regs, hregs]
    rfl
  · rw [State.complete_regs, hregs]
    exact (BitVec.toNat_ofNat _ Config.coordW).trans (Nat.mod_eq_of_lt (Nat.lt_succ_of_le hx))
  · rw [State.pixel_complete]
    exact drawTextState_pixel_in font c (s := s.setCursor x y) hx hk hi hj hg hr
  · rw [State.pixel_complete]
    exact drawTextState_pixel_out font c (s := s.setCursor x y) hx hq hout
  · rw [State.readFb_complete]
    exact drawTextState_readFb font c (s := s.setCursor x y) hx ha

end Sys2Proof.Machine
end

section
/-! The device session (44_device_session): each operation at a transport that reports its transactions at once or, for
INIT, holds one of them, and the table of session transitions (R150). Settles O28 to O30, O32 to O37 and O43. -/

namespace Sys2Proof.Machine

/-! ### SESSION and CONFIG -/

/-- PHASE and PWR are the whole of SESSION (10_state R31). -/
theorem Regs.setPwr_setPhase (r : Regs) (phase pwr : Bit) :
    (r.setPhase phase).setPwr pwr = { r with session := pwr ++ phase } := by
  rw [Regs.setPwr, Regs.setPhase_phase]
  rfl

theorem State.setPwr_setPhase (s : State) (phase pwr : Bit) :
    (s.setPhase phase).setPwr pwr = { s with regs := { s.regs with session := pwr ++ phase } } :=
  congrArg (fun r : Regs => { s with regs := r }) (s.regs.setPwr_setPhase phase pwr)

/-- Settles O28: CONFIG has no check to fail, and PHASE and PWR at 0 are SESSION at 0. -/
theorem configLatchesTheHandle : Obligations.ConfigLatchesTheHandle := by
  unfold Obligations.ConfigLatchesTheHandle
  intro width height bufsize devaddr bok s
  rw [exec_opRun, opRun, State.setPwr_setPhase]
  rfl

/-! ### Operations of one transaction -/

/-- A single command that the transport reports at once. -/
theorem State.sendCmds_one_reported (e : Ending) (b : Byte) {s : State} (h : s.env.transport.Reports 1) :
    State.sendCmds e [b] s =
      (e.run ((s.log ⟨s.regs.devaddr, .cmd, [b]⟩).setTransport (s.env.transport.after 1))).complete :=
  State.tx_reported h .cmd [b] ⟨[], e⟩ (State.sendCmds e [])

/-- Settles O29: WRITE_COMMAND is its one transaction and completion. -/
theorem writeCommandSendsOneByte : Obligations.WriteCommandSendsOneByte := by
  unfold Obligations.WriteCommandSendsOneByte
  intro cmd s hv hreports
  rw [exec_of_transmits rfl hv, opLast, State.sendCmds_one_reported .done cmd hreports]
  rfl

/-- Settles O33: after the one transaction the ending writes PWR and keeps PHASE. -/
theorem displayOnAndOffSendAndWritePwr : Obligations.DisplayOnAndOffSendAndWritePwr := by
  unfold Obligations.DisplayOnAndOffSendAndWritePwr
  intro s hv hreports
  refine ⟨⟨opLast .displayOn s, exec_of_transmits rfl hv, ?_⟩, ⟨opLast .displayOff s, exec_of_transmits rfl hv, ?_⟩⟩
  · rw [opLast, State.sendCmds_one_reported (.pwr 1) _ hreports]
    exact ⟨Regs.setPwr_pwr s.regs 1, Regs.setPwr_phase s.regs 1, rfl, rfl, rfl, rfl, rfl⟩
  · rw [opLast, State.sendCmds_one_reported (.pwr 0) _ hreports]
    exact ⟨Regs.setPwr_pwr s.regs 0, Regs.setPwr_phase s.regs 0, rfl, rfl, rfl, rfl, rfl⟩

/-- INVERT at a transport that reports at once, whatever the flag is. -/
theorem exec_invert_reported {s : State} (hv : s.regs.Valid) (hreports : s.env.transport.Reports 1) :
    exec .invert s = .next ((((s.setInv (1 - s.regs.inv)).log ⟨s.regs.devaddr, .cmd,
      [if s.regs.inv = 0 then s.env.display.cmdInverse else s.env.display.cmdNormal]⟩).setTransport
        (s.env.transport.after 1)).complete) := by
  rw [exec_of_transmits rfl hv, opLast, polarityCommand_complement,
    State.sendCmds_one_reported (s := s.setInv (1 - s.regs.inv)) .done _ hreports]
  rfl

theorem bit_eq_zero_or_one : ∀ v : Bit, v = 0 ∨ v = 1 := by decide

/-- Settles O34: `exec_invert_reported` at each value of the flag. -/
theorem invertSendsTheCommandOfTheNewFlag : Obligations.InvertSendsTheCommandOfTheNewFlag := by
  unfold Obligations.InvertSendsTheCommandOfTheNewFlag
  intro s hv hreports
  refine ⟨fun hinv => ?_, fun hinv => ?_, bit_eq_zero_or_one _⟩ <;>
  · rw [exec_invert_reported hv hreports, hinv]
    rfl

/-- Settles O35: the second INVERT is `exec_invert_reported` from the state after the first, where the flag is the
complement. -/
theorem invertTwiceRestoresTheFlag : Obligations.InvertTwiceRestoresTheFlag := by
  unfold Obligations.InvertTwiceRestoresTheFlag
  intro s hv hreports
  refine ⟨_, _, exec_invert_reported hv (Transport.reports_mono hreports (by decide)),
    exec_invert_reported hv (Transport.reports_after (m := 1) hreports), ?_, rfl, ?_⟩
  · exact congrArg (fun v : Bit => { s.regs with inv := v, status := 0 }) (sub_sub_cancel 1 s.regs.inv)
  · rcases bit_eq_zero_or_one s.regs.inv with hinv | hinv <;> simp [hinv]

/-- Settles O37: FLUSH is one transaction with the bytes that `Memory.readOut` reads, and completion. -/
theorem flushSendsTheWholeBuffer : Obligations.FlushSendsTheWholeBuffer := by
  unfold Obligations.FlushSendsTheWholeBuffer
  intro s hv hreports
  have hlength := Memory.length_readOut s.fb s.regs.bufsize.toNat
  refine ⟨Memory.readOut s.fb s.regs.bufsize.toNat, hlength, hlength.symm ▸ hv.bufsize_pos,
    fun k hk => Memory.getElem_readOut _ hk, ?_⟩
  rw [exec_of_transmits rfl hv, opLast, State.tx_reported hreports]
  rfl

/-! ### FILL and CLEAR -/

theorem exec_fill {s : State} (hv : s.regs.Valid) : exec .fill s = .next (s.fillFb 0xFF#8).complete := by
  rw [exec_opRun, opRun, State.requireValid_pos hv]
  rfl

theorem exec_clear {s : State} (hv : s.regs.Valid) : exec .clear s = .next (s.fillFb 0x00#8).complete := by
  rw [exec_opRun, opRun, State.requireValid_pos hv]
  rfl

/-- Settles O36: both fill the buffer and complete. -/
theorem fillAndClearSetTheWholeBuffer : Obligations.FillAndClearSetTheWholeBuffer := by
  unfold Obligations.FillAndClearSetTheWholeBuffer
  intro s hv
  exact ⟨⟨_, exec_fill hv, rfl, rfl, rfl, rfl, s.readFb_fillFb 0xFF#8⟩,
    ⟨_, exec_clear hv, rfl, rfl, rfl, rfl, s.readFb_fillFb 0x00#8⟩⟩

/-! ### INIT -/

/-- INIT at a transport that reports its 32 commands at once: they are sent from the soft state, and the ending writes
both bits of SESSION. -/
theorem exec_init_reported {s : State} (hv : s.regs.Valid) (hreports : s.env.transport.Reports 32) :
    exec .init s = .next
      { regs := { s.regs with inv := 0, curx := 0, cury := 0, session := 3, status := 0 }
        fb := (s.fillFb 0x00#8).fb
        txlog := s.txlog ++ cmdTxs s.regs.devaddr (initSeq s.env.display s.regs.width.toNat s.regs.height.toNat)
        seq := .idle
        env := { s.env with transport := s.env.transport.after 32 } } := by
  have hsend := State.sendCmds_reported (s := initSoft s) .init
    (initSeq s.env.display s.regs.width.toNat s.regs.height.toNat) hreports
  rw [exec_of_transmits rfl hv, opLast, hsend, Ending.run, State.setPwr_setPhase]
  rfl

theorem Regs.phase_of_session {r : Regs} {pwr phase : Bit} (h : r.session = pwr ++ phase) : r.phase = phase := by
  rw [Regs.phase, h]
  exact BitVec.extractLsb'_append_eq_right

theorem Regs.pwr_of_session {r : Regs} {pwr phase : Bit} (h : r.session = pwr ++ phase) : r.pwr = pwr := by
  rw [Regs.pwr, h]
  exact BitVec.extractLsb'_append_eq_left

/-- Settles O30: SESSION 3 is PHASE 1 and PWR 1, and the buffer phase is `State.fillFb`. -/
theorem initClearsTheBufferAndSendsTheSequence : Obligations.InitClearsTheBufferAndSendsTheSequence := by
  unfold Obligations.InitClearsTheBufferAndSendsTheSequence
  intro s hv hreports
  exact ⟨_, exec_init_reported hv hreports, rfl, Regs.phase_of_session (pwr := 1) rfl,
    Regs.pwr_of_session (phase := 1) rfl, rfl, rfl, rfl, s.readFb_fillFb 0x00#8⟩

/-- Settles O32: the commands are sent from the soft state up to the one that is held. -/
theorem initWaitsInATransactionHeld : Obligations.InitWaitsInATransactionHeld := by
  unfold Obligations.InitWaitsInATransactionHeld
  intro s n hv htransport hn
  have hsend := State.sendCmds_held (s := initSoft s) .init
    (initSeq s.env.display s.regs.width.toNat s.regs.height.toNat) htransport hn
  exact ⟨_, (exec_of_transmits rfl hv).trans (congrArg _ hsend), rfl, rfl, rfl, rfl, s.readFb_fillFb 0x00#8⟩

/-! ### The table of session transitions -/

/-- The operation has ended, with these values of PHASE, PWR and INV. -/
structure State.EndedWith (t : State) (session : Bit × Bit × Bit) : Prop where
  status  : t.regs.status = 0
  idle    : t.seq = .idle
  session : (t.regs.phase, t.regs.pwr, t.regs.inv) = session

/-- Commands that are all reported at once leave PHASE and PWR to the ending. -/
theorem State.EndedWith.sendCmds {e : Ending} {bs : List Byte} {s : State} {session : Bit × Bit × Bit}
    (hreports : s.env.transport.Reports bs.length)
    (hsession : ((e.run s).regs.phase, (e.run s).regs.pwr, s.regs.inv) = session) :
    (State.sendCmds e bs s).EndedWith session := by
  rw [State.sendCmds_reported e bs hreports, ← hsession]
  cases e <;> exact ⟨rfl, rfl, rfl⟩

/-- The rows of the operations that transmit. -/
theorem opLast_endedWith {i : Instr} (hi : transmits i = true) {s : State} (hreports : s.env.transport.Reports 32) :
    (opLast i s).EndedWith (sessionAfter i s.regs) := by
  have hone : s.env.transport.Reports 1 := Transport.reports_mono hreports (by decide)
  cases i with
  | writeCommand cmd => exact .sendCmds hone rfl
  | init => exact .sendCmds (s := initSoft s) hreports (by simp [Ending.run, sessionAfter, initSoft])
  | displayOn => exact .sendCmds hone (by simp [Ending.run, sessionAfter])
  | displayOff => exact .sendCmds hone (by simp [Ending.run, sessionAfter])
  | invert => exact .sendCmds (s := s.setInv (1 - s.regs.inv)) hone rfl
  | flush =>
    rw [opLast, State.tx_reported hone]
    exact ⟨rfl, rfl, rfl⟩
  | _ => cases hi

/-- An operation that does not transmit has no wait to stop in. -/
theorem exec_ends_of_not_transmits {i : Instr} (hi : transmits i = false) {s t : State} (h : exec i s = .next t) :
    t.regs.status = 0 ∧ t.seq = .idle := by
  rw [exec_opRun] at h
  rcases Run.finishWith_cases h with ⟨u, -, rfl⟩ | ⟨f, info, u, -, rfl⟩
  · rw [opLast_of_not_transmits hi]
    exact ⟨rfl, rfl⟩
  · exact ⟨rfl, rfl⟩

/-- An operation that neither transmits nor writes SESSION or INV keeps the three values, also where it faults. -/
theorem exec_endedWith_same {i : Instr} (htransmits : transmits i = false) (hsession : writesSession i = false)
    (hinv : writesInv i = false) {s t : State} (h : exec i s = .next t) :
    t.EndedWith (s.regs.phase, s.regs.pwr, s.regs.inv) := by
  obtain ⟨hstatus, hidle⟩ := exec_ends_of_not_transmits htransmits h
  have hkeeps := KeepsUnlisted.exec h
  refine ⟨hstatus, hidle, ?_⟩
  rw [Regs.phase, Regs.pwr, hkeeps.session hsession, hkeeps.inv hinv]
  rfl

/-- The rows of the operations that do not transmit. -/
theorem exec_endedWith_of_not_transmits {i : Instr} (hi : transmits i = false) {s t : State}
    (h : exec i s = .next t) : t.EndedWith (sessionAfter i s.regs) := by
  cases i with
  | config width height bufsize devaddr bok =>
    rw [configLatchesTheHandle] at h
    cases h
    exact ⟨rfl, rfl, congrArg₂ _ (Regs.phase_of_session (pwr := 0) rfl)
      (congrArg₂ _ (Regs.pwr_of_session (phase := 0) rfl) rfl)⟩
  | writeCommand | init | displayOn | displayOff | invert | flush => cases hi
  | _ => exact exec_endedWith_same rfl rfl rfl h

/-- Settles O43: an operation that transmits is its last part, any other ends in its own step whether or not it faults,
and hardware reset clears every register. -/
theorem sessionTransitionsAreTheTable : Obligations.SessionTransitionsAreTheTable := by
  unfold Obligations.SessionTransitionsAreTheTable
  refine ⟨fun i s hvalid hreports => ?_, fun s draw tr ts h =>
    ⟨_, step_of_hardwareReset h, Regs.phase_reset, Regs.pwr_reset, rfl⟩⟩
  cases hi : transmits i with
  | true =>
    have hv : s.regs.Valid := hvalid.resolve_left fun hw => by
      obtain ⟨width, height, bufsize, devaddr, bok, rfl⟩ := eq_config_of_writesHandle hw
      cases hi
    obtain ⟨hstatus, hidle, hsession⟩ := opLast_endedWith hi (hreports hi)
    exact ⟨opLast i s, exec_of_transmits hi hv, hstatus, hidle, hsession⟩
  | false =>
    obtain ⟨t, ht⟩ := Run.finishWith_next (opRun i s) (opLast i)
    rw [← exec_opRun] at ht
    obtain ⟨hstatus, hidle, hsession⟩ := exec_endedWith_of_not_transmits hi ht
    exact ⟨t, ht, hstatus, hidle, hsession⟩

end Sys2Proof.Machine
end

section
/-! Faults (60_exceptions): the invalid handle (R182), the illegal word (R184), the codes an operation can raise (R181,
R186), and the halted machine (R187, R188). Settles O44, O45, O46 and O47. -/

namespace Sys2Proof.Machine

/-! ### The invalid handle -/

theorem writesHandle_eq_false_iff {i : Instr} : writesHandle i = false ↔
    ∀ width height bufsize devaddr bok, i ≠ .config width height bufsize devaddr bok := by
  cases i <;> simp [writesHandle]

/-- Any operation but CONFIG does nothing on an invalid handle but raise HANDLE_INVALID (R182). -/
theorem exec_of_not_valid {i : Instr} {s : State} (hi : writesHandle i = false) (hv : ¬ s.regs.Valid) :
    exec i s = .next (s.takeFault .handleInvalid 0) := by
  rw [exec_opRun, opRun_of_not_valid hi hv, Run.finishWith_raised]

/-- The clauses of R33, the dimensions compared as register values. -/
theorem Regs.valid_iff (r : Regs) : r.Valid ↔
    r.bufok = 1 ∧ r.width ≠ 0 ∧ r.height ≠ 0 ∧ r.bufsize.toNat = r.width.toNat * r.height.toNat / 8 ∧
      r.height.toNat % 8 = 0 ∧ r.width.toNat ≤ 256 ∧ r.height.toNat ≤ 256 := by
  have hzero : ∀ v : Half, v.toNat ≠ 0 ↔ v ≠ 0 := fun v => BitVec.toNat_ne_iff_ne (y := 0#16)
  rw [Regs.Valid, hzero, hzero]

/-- Settles O44: the fault is taken in the state the operation began in (`exec_of_not_valid`). -/
theorem invalidHandleFaultsEveryOperationButConfig : Obligations.InvalidHandleFaultsEveryOperationButConfig := by
  unfold Obligations.InvalidHandleFaultsEveryOperationButConfig
  exact ⟨fun i s hi hv => exec_of_not_valid (writesHandle_eq_false_iff.2 hi) hv, Regs.valid_iff, Regs.not_valid_reset⟩

/-! ### The illegal word -/

/-- The decoder refuses a word that selects no row of the table (R85). -/
theorem decode_error_of_not_wellFormed {w : OpWord} (hw : wellFormedWord w = false) : ∃ r, decode w = .error r := by
  cases hd : decode w with
  | ok i => exact nomatch hw.symm.trans ((legalWordsAreThoseTheTableSelects w).1 ⟨i, hd⟩)
  | error r => exact ⟨r, rfl⟩

/-- Settles O45: the decoder refuses the word before an operation could look at the handle. -/
theorem illegalWordFaultsBeforeTheHandleIsLookedAt : Obligations.IllegalWordFaultsBeforeTheHandleIsLookedAt := by
  unfold Obligations.IllegalWordFaultsBeforeTheHandleIsLookedAt
  intro s w ts hturns hseq hfault hw
  obtain ⟨r, hr⟩ := decode_error_of_not_wellFormed hw
  rw [step_of_turn hturns]
  exact (mfcStep_of_captured (s := s.setTurns ts) hfault hseq).trans (runWord_error hr _)

/-! ### The codes an operation can raise -/

/-- The run raises nothing, or one of the four faults of an accepted operation (R181): all but ILLEGAL_OP, and
HANDLE_INVALID with 0 only. -/
inductive Run.RaisesLegally : Run → Prop where
  | go (s : State) : RaisesLegally (.go s)
  | handleInvalid (s : State) : RaisesLegally (.raised .handleInvalid 0 s)
  | glyphRange (info : Word) (s : State) : RaisesLegally (.raised .glyphRange info s)
  | cursorOverflow (info : Word) (s : State) : RaisesLegally (.raised .cursorOverflow info s)
  | assetRange (info : Word) (s : State) : RaisesLegally (.raised .assetRange info s)

theorem Run.RaisesLegally.andThen {r : Run} {k : State → Run} (hr : r.RaisesLegally)
    (hk : ∀ s, (k s).RaisesLegally) : (r.andThen k).RaisesLegally := by
  cases hr with
  | go s => exact hk s
  | handleInvalid s => exact .handleInvalid s
  | glyphRange info s => exact .glyphRange info s
  | cursorOverflow info s => exact .cursorOverflow info s
  | assetRange info s => exact .assetRange info s

theorem Run.RaisesLegally.loop {body : Nat → State → Run} (hbody : ∀ i s, (body i s).RaisesLegally) (a n : Nat)
    (s : State) : (Run.loop body a n s).RaisesLegally := by
  induction n generalizing a s with
  | zero => exact .go s
  | succ n ih => exact (hbody a s).andThen fun t => ih (a + 1) t

theorem Run.RaisesLegally.requireValid (s : State) (k : State → Run) (hk : (k s).RaisesLegally) :
    (s.requireValid k).RaisesLegally := by
  by_cases hv : s.regs.Valid
  · rw [State.requireValid_pos hv]; exact hk
  · rw [State.requireValid_neg hv]; exact .handleInvalid s

theorem Run.RaisesLegally.withAsset (s : State) (a : Nat) {k : Byte → Run} (hk : ∀ g, (k g).RaisesLegally) :
    (s.withAsset a k).RaisesLegally := by
  cases ha : s.asset a with
  | some g => rw [State.withAsset_some ha]; exact hk g
  | none => rw [State.withAsset_none ha]; exact .assetRange _ s

theorem Run.RaisesLegally.blit (x y src w : Nat) (c : Bit) (n : Nat) (s : State) :
    (Run.loop (blitRow x y src w c) 0 n s).RaisesLegally :=
  .loop (fun _ s => .loop (fun _ s => .withAsset s _ fun _ => .go _) 0 w s) 0 n s

theorem Run.RaisesLegally.drawChar (font : Font) (ch : Byte) (px py : Half) (c : Bit) (s : State) :
    (drawChar font ch px py c s).RaisesLegally := by
  unfold Machine.drawChar charChecks
  split_ifs
  · exact .cursorOverflow _ s
  · exact (Run.RaisesLegally.loop (fun _ s => .withAsset s _ fun _ => .go _) 0 _ _).andThen fun _ => .go _
  · exact .glyphRange _ s

theorem Run.RaisesLegally.drawText (font : Font) (c : Bit) (left : Nat) (s : State) :
    (drawText font c left s).RaisesLegally := by
  induction left generalizing s with
  | zero => exact .assetRange _ s
  | succ left ih =>
    refine .withAsset s _ fun ch => ?_
    split
    · exact .go s
    · exact (Run.RaisesLegally.drawChar font ch _ _ c s).andThen fun t => ih t

theorem Run.RaisesLegally.opRun (i : Instr) (s : State) : (opRun i s).RaisesLegally := by
  cases i with
  | config width height bufsize devaddr bok => exact .go _
  | putPixel x y c => exact .requireValid s (fun s => .go (putPixel x.toNat y.toNat c s)) (.go _)
  | drawBitmap x y src w h c => exact .requireValid s _ (.blit _ _ _ _ _ _ _)
  | drawChar font ch x y c => exact .requireValid s _ (.drawChar _ _ _ _ _ _)
  | drawString font text x y c =>
    exact .requireValid s (fun s => Machine.drawText font c (Config.asSize - text.toNat) (s.setCursor x y))
      (.drawText _ _ _ _)
  | fill => exact .requireValid s (fun s => .go (s.fillFb 0xFF#8)) (.go _)
  | clear => exact .requireValid s (fun s => .go (s.fillFb 0x00#8)) (.go _)
  | _ => exact .requireValid s .go (.go s)

/-- FAULT and FAULTINFO are the same in both states. -/
abbrev KeepsFault (s t : State) : Prop := t.regs.fault = s.regs.fault ∧ t.regs.faultinfo = s.regs.faultinfo

theorem KeepsFault.trans {s t u : State} (hst : KeepsFault s t) (htu : KeepsFault t u) : KeepsFault s u :=
  ⟨htu.1.trans hst.1, htu.2.trans hst.2⟩

theorem KeepsFault.sendCmds (e : Ending) (bs : List Byte) (s : State) : KeepsFault s (State.sendCmds e bs s) :=
  State.sendCmds_rel (R := KeepsFault) KeepsFault.trans e (fun _ _ _ => ⟨rfl, rfl⟩) (fun _ _ _ => ⟨rfl, rfl⟩)
    (fun _ => by cases e <;> exact ⟨rfl, rfl⟩) bs s

/-- Once it sends, an operation raises no fault. -/
theorem KeepsFault.opLast (i : Instr) (s : State) : KeepsFault s (opLast i s) := by
  cases i with
  | writeCommand cmd => exact .sendCmds _ _ s
  | init => exact .sendCmds _ _ (initSoft s)
  | displayOn => exact .sendCmds _ _ s
  | displayOff => exact .sendCmds _ _ s
  | invert => exact .sendCmds _ _ (s.setInv (1 - s.regs.inv))
  | flush => exact State.tx_rel (R := KeepsFault) ⟨rfl, rfl⟩ ⟨rfl, rfl⟩
  | _ => exact ⟨rfl, rfl⟩

/-- What `t` holds where an operation has ended in a fault (R181, R186). -/
structure State.Faulted (t : State) : Prop where
  code   : t.regs.fault = 1 ∧ t.regs.faultinfo = 0 ∨ t.regs.fault = 2 ∨ t.regs.fault = 3 ∨ t.regs.fault = 4
  status : t.regs.status = 0
  idle   : t.seq = .idle

theorem Run.RaisesLegally.takeFault {f : Cause} {info : Word} {s : State}
    (h : (Run.raised f info s).RaisesLegally) : (s.takeFault f info).Faulted := by
  refine ⟨?_, rfl, rfl⟩
  cases h with
  | handleInvalid => exact .inl ⟨rfl, rfl⟩
  | glyphRange => exact .inr (.inl rfl)
  | cursorOverflow => exact .inr (.inr (.inl rfl))
  | assetRange => exact .inr (.inr (.inr rfl))

/-- The two ends of an operation, as FAULT shows them. -/
theorem exec_keepsFault_or_faulted {i : Instr} {s t : State} (h : exec i s = .next t) :
    KeepsFault s t ∨ t.Faulted := by
  rw [exec_opRun] at h
  rcases Run.finishWith_cases h with ⟨u, hu, rfl⟩ | ⟨f, info, u, hu, rfl⟩
  · have hrun : KeepsFault s u := by simpa only [hu, Run.state_go] using opRun_fault i s
    exact .inl (hrun.trans (.opLast i u))
  · exact .inr (hu ▸ Run.RaisesLegally.opRun i s).takeFault

/-- Settles O46: the run of an operation raises one of four causes, and nothing else writes FAULT. -/
theorem operationsWriteOnlyLegalFaultCodes : Obligations.OperationsWriteOnlyLegalFaultCodes := by
  unfold Obligations.OperationsWriteOnlyLegalFaultCodes
  intro i s
  obtain ⟨t, ht⟩ := Run.finishWith_next (opRun i s) (opLast i)
  rw [← exec_opRun] at ht
  exact ⟨t, ht, (exec_keepsFault_or_faulted ht).imp_right fun ⟨hcode, hstatus, hidle⟩ => ⟨hcode, hstatus, hidle⟩⟩

/-! ### The halted machine -/

theorem State.not_ready_of_halted {s : State} (hfault : s.regs.fault ≠ 0) : ¬ s.Ready := fun h => hfault h.2

/-- At a halted machine a presented word is not captured, and the host's index stays. -/
theorem step_presents_of_halted {s : State} {ts : List Turn} (hfault : s.regs.fault ≠ 0)
    (h : s.HostFaces .present ts) : step s = .next (s.setTurns ts) := by
  have hready : ¬ (s.setTurns ts).Ready := State.not_ready_of_halted hfault
  rw [step_of_host h, State.moveOn_of_not_ready hready]
  exact presentWord_of_not_ready hready

/-- The two states have the same registers and log, and the same framebuffer unless the host writes it. -/
structure HaltKeeps (hostWrites : Prop) (s t : State) : Prop where
  regs  : t.regs = s.regs
  txlog : t.txlog = s.txlog
  fb    : ¬ hostWrites → t.fb = s.fb

theorem serve_of_halted {e : HostEvent} {s t : State} (hfault : s.regs.fault ≠ 0)
    (hreset : ∀ draw tr, e ≠ .hardwareReset draw tr) (h : serve e s = .next t) :
    HaltKeeps (∃ a v, e = .writeFb a v) s t := by
  rcases serve_cases h with ⟨draw, tr, he, -⟩ | ⟨a, v, he, -, -, rfl⟩ | ⟨a, v, -, -, rfl⟩ | ⟨-, w, -, hready, -⟩ |
    ⟨-, rfl⟩ | ⟨v, rfl⟩
  · exact absurd he (hreset draw tr)
  · exact ⟨rfl, rfl, fun hwrite => absurd ⟨a, v, he⟩ hwrite⟩
  · exact ⟨rfl, rfl, fun _ => rfl⟩
  · exact absurd hready (State.not_ready_of_halted hfault)
  · exact ⟨rfl, rfl, fun _ => rfl⟩
  · exact ⟨rfl, rfl, fun _ => rfl⟩

/-- The MFC does nothing, the transport reaches nothing of it, and the host can change the framebuffer at most. -/
theorem takeTurn_of_halted {a : Turn} {s t : State} (hfault : s.regs.fault ≠ 0)
    (hreset : ∀ draw tr, a ≠ .host (.hardwareReset draw tr)) (h : takeTurn a s = .next t) :
    HaltKeeps (∃ b v, a = .host (.writeFb b v)) s t := by
  cases a with
  | host e =>
    have hmove : s.moveOn = s := State.moveOn_of_not_ready (State.not_ready_of_halted hfault)
    rw [takeTurn, hostStep, hmove] at h
    simpa using serve_of_halted hfault (fun draw tr he => hreset draw tr (congrArg Turn.host he)) h
  | mfc =>
    rw [takeTurn, mfcStep_of_halted hfault] at h
    cases h
    exact ⟨rfl, rfl, fun _ => rfl⟩
  | transport next =>
    obtain ⟨-, htransport, -⟩ := eachTurnIsAStepOfItsAgent
    obtain ⟨u, hu, hregs, hfb, htxlog, -⟩ := htransport next s
    cases h.symm.trans hu
    exact ⟨hregs, htxlog, fun _ => hfb⟩

theorem step_of_halted {s t : State} (hfault : s.regs.fault ≠ 0)
    (hreset : ∀ draw tr ts, ¬ s.HostFaces (.hardwareReset draw tr) ts) (h : step s = .next t) :
    HaltKeeps (∃ a v ts, s.HostFaces (.writeFb a v) ts) s t := by
  cases hturns : s.env.turns with
  | nil =>
    rw [step_of_no_turn hturns] at h
    cases h
    exact ⟨rfl, rfl, fun _ => rfl⟩
  | cons a ts =>
    rw [step_of_turn hturns] at h
    obtain ⟨hregs, htxlog, hfb⟩ := takeTurn_of_halted (s := s.setTurns ts) hfault
      (fun draw tr ha => hreset draw tr ts (hturns.trans (congrArg (· :: ts) ha))) h
    exact ⟨hregs, htxlog, fun hwrite => hfb fun ⟨b, v, ha⟩ => hwrite ⟨b, v, ts, hturns.trans (congrArg (· :: ts) ha)⟩⟩

/-- Settles O47: the host's presenting turn, the MFC's turn, and any agent's (`step_of_halted`). -/
theorem haltedMachineAcceptsNothing : Obligations.HaltedMachineAcceptsNothing := by
  unfold Obligations.HaltedMachineAcceptsNothing
  refine fun s hfault => ⟨fun ts h => step_presents_of_halted hfault h, fun ts hturns => ?_, fun hreset t h => ?_⟩
  · rw [step_of_turn hturns]
    exact mfcStep_of_halted (s := s.setTurns ts) hfault
  · obtain ⟨hregs, htxlog, hfb⟩ := step_of_halted hfault hreset h
    exact ⟨hregs, htxlog, fun hwrite => hfb fun ⟨a, v, ts, hf⟩ => hwrite a v ts hf⟩

end Sys2Proof.Machine
end

section
/-! INIT at a transport that holds every transaction (20_memory R57, 70_reset_and_hazards R229). Settles O42. -/

namespace Sys2Proof.Machine

/-- The turns in which `n` reports come one by one, the transport holding what is sent after each. -/
def reportTurns (n : Nat) : List Turn := (List.replicate n [Turn.transport (.holdsAfter 0), Turn.mfc]).flatten

theorem reportTurns_succ (n : Nat) : reportTurns (n + 1) = .transport (.holdsAfter 0) :: .mfc :: reportTurns n := rfl

/-- The report of a held transaction and the MFC's turn after it: the operation goes on. -/
theorem run_of_report {s : State} {rest : Rest} {next : Transport} {ts : List Turn} (k : Nat)
    (hseq : s.seq = .waiting rest) (howed : s.env.owed = true) (hfault : s.regs.fault = 0)
    (hturns : s.env.turns = .transport next :: .mfc :: ts) :
    Sys2Proof.core.run (k + 2) s =
      Sys2Proof.core.run k (rest.run (((s.setTurns ts).setTransport next).setOwed false)) := by
  have hreport : step s = .next (((s.setTurns (.mfc :: ts)).setTransport next).setOwed false) :=
    (step_of_turn hturns).trans (transportStep_of_owed (s := s.setTurns (.mfc :: ts)) howed next)
  have hgo : step (((s.setTurns (.mfc :: ts)).setTransport next).setOwed false) =
      .next (rest.run (((s.setTurns ts).setTransport next).setOwed false)) := by
    rw [step_of_turn rfl]
    exact mfcStep_of_report (s := ((s.setTurns ts).setTransport next).setOwed false) hfault hseq rfl
  rw [run_succ hreport, run_succ hgo]

/-- Commands that the transport holds one by one end as they do when all are reported at once, after one turn of the
transport and one of the MFC for each. The first report leaves the other commands to be sent and held in the same way;
that its lateness changes no result is `State.sendCmds_late`. -/
theorem run_sendCmds_of_held (e : Ending) {bs : List Byte} (hne : bs ≠ []) {s : State}
    (htransport : s.env.transport = .holdsAfter 0) (hfault : s.regs.fault = 0)
    (hturns : s.env.turns = reportTurns bs.length) :
    Sys2Proof.core.run (2 * bs.length) (State.sendCmds e bs s) =
      .next ((State.sendCmds e bs s.promptly).setTransport (.holdsAfter 0)) := by
  induction bs generalizing s with
  | nil => exact absurd rfl hne
  | cons b bs ih =>
    have hlate := State.sendCmds_late e (b :: bs) htransport (Nat.succ_pos _) []
    have hwait : State.sendCmds e (b :: bs) s = (s.log ⟨s.regs.devaddr, .cmd, [b]⟩).await ⟨bs, e⟩ :=
      State.tx_held htransport .cmd [b] ⟨bs, e⟩ (State.sendCmds e bs)
    have hreport := run_of_report (s := (s.log ⟨s.regs.devaddr, .cmd, [b]⟩).await ⟨bs, e⟩) (2 * bs.length) rfl rfl
      hfault (hturns.trans (reportTurns_succ bs.length))
    rw [hwait] at hlate ⊢
    rw [State.promptly, ← hlate]
    refine hreport.trans ?_
    cases bs with
    | nil => cases e <;> rfl
    | cons c cs => exact ih (List.cons_ne_nil c cs) rfl hfault rfl

/-- Settles O42: the 32 commands are sent from the soft state, each held (`run_sendCmds_of_held`). -/
theorem initEndsWhenEveryReportComes : Obligations.InitEndsWhenEveryReportComes := by
  unfold Obligations.InitEndsWhenEveryReportComes
  intro s hvalid hfault htransport hturns
  have hend := run_sendCmds_of_held (s := initSoft s) .init
    (bs := initSeq s.env.display s.regs.width.toNat s.regs.height.toNat) (List.cons_ne_nil _ _) htransport hfault hturns
  exact ⟨opLast .init s, opLast .init s.promptly, exec_of_transmits rfl hvalid,
    exec_of_transmits (s := s.promptly) rfl hvalid, hend⟩

end Sys2Proof.Machine
end

section
/-! What the agents' turns leave alone: every access of the host to a busy machine but reading STATUS
(70_reset_and_hazards R224), and each agent's turn with nothing to do (R210). Settles O49 and O53. -/

namespace Sys2Proof.Machine

/-! ### The busy machine -/

theorem whileIdle_of_busy {s : State} (h : s.regs.status = 1) (r : Host.Outcome State Fault Refusal) :
    whileIdle s r = .refused .hostAccessWhileBusy :=
  if_neg (by simp [h])

theorem readRegPort_of_ne {n : BitVec 4} (hn : n ≠ 11) (s : State) :
    readRegPort n s = whileIdle s (.next (s.setHostData (s.regs.read n))) := if_neg hn

theorem State.not_ready_of_busy {s : State} (h : s.regs.status = 1) : ¬ s.Ready := fun hready => by
  simp [hready.1] at h

/-- The host's turn at a busy machine: no completed operation to count, so the event is all it does. -/
theorem step_of_host_busy {s : State} {e : HostEvent} {ts : List Turn} (hbusy : s.regs.status = 1)
    (h : s.HostFaces e ts) : step s = serve e (s.setTurns ts) := by
  rw [step_of_host h, State.setTurns_moveOn, State.moveOn_of_not_ready (State.not_ready_of_busy hbusy)]

theorem Regs.read_status (r : Regs) : r.read 11 = r.status.setWidth 32 := rfl

/-- STATUS may be read at any time (10_state R34), and reads 1 at a busy machine. -/
theorem readRegPort_status_of_busy {s : State} (h : s.regs.status = 1) :
    readRegPort 11 s = .next (s.setHostData 1) := by
  rw [readRegPort, if_pos (by decide), Regs.read_status, h]
  rfl

/-- Settles O49: each event by its port, behind `step_of_host_busy`. -/
theorem busyMachineTakesNoWordAndNoAccess : Obligations.BusyMachineTakesNoWordAndNoAccess := by
  unfold Obligations.BusyMachineTakesNoWordAndNoAccess
  intro s ts hbusy
  have hrefused := whileIdle_of_busy (s := s.setTurns ts) hbusy
  refine ⟨fun h => ?_, fun h => ?_, fun n hn h => ?_, fun a h => ?_, fun a v h => ?_, fun a v h => ?_⟩ <;>
    rw [step_of_host_busy hbusy h]
  · exact presentWord_of_not_ready (s := s.setTurns ts) (State.not_ready_of_busy hbusy)
  · exact readRegPort_status_of_busy (s := s.setTurns ts) hbusy
  · exact (readRegPort_of_ne hn _).trans (hrefused _)
  · exact hrefused _
  · exact hrefused _
  · exact hrefused _

/-! ### The idle machine -/

/-- Past its last word the host has none to present. -/
theorem State.nextWord_of_program_ended {s : State} (h : s.env.program.length ≤ s.env.hostPc) : s.nextWord = none :=
  List.getElem?_eq_none h

/-- Settles O53: each agent's step with nothing to do, in the state whose turn has gone by. -/
theorem idleMachineWaits : Obligations.IdleMachineWaits := by
  unfold Obligations.IdleMachineWaits
  refine ⟨fun s => step_of_no_turn, fun s ts => ⟨fun hturns hseq => ?_, fun h hissued hended => ?_,
    fun next hturns howed => ?_⟩⟩
  · rw [step_of_turn hturns]
    exact mfcStep_of_idle (s := s.setTurns ts) hseq
  · rw [step_of_host h, State.moveOn_of_not_issued (s := s.setTurns ts) hissued]
    exact presentWord_of_none (s := s.setTurns ts) (State.nextWord_of_program_ended hended)
  · rw [step_of_turn hturns]
    exact transportStep_of_not_owed (s := s.setTurns ts) howed next

end Sys2Proof.Machine
end
